-- ==== Sys2Proof/Word.lean ====
section
/-!
DEFINITION. The word types and their plainest arithmetic (00_scope.md rule R10).

Most words of this hardware have a width that is a build parameter (W, C or P), so they are exact naturals with a width
bound, as rule R10 says; only the widths the spec fixes are bit vectors.
-/

namespace Sys2Proof

/-- A byte: 8 bits (rule R14). -/
abbrev Byte := BitVec 8

/-- The 4-bit indices of the hardware: `enc_pos`, `dec_i` and the magnitude index (rules R28, R30, R78). -/
abbrev Nibble := BitVec 4

/-- A 3-bit control vector of a block, reset in bit 2 (rules R76, R77). -/
abbrev Ctrl := BitVec 3

/-- `trunc_N(v)`: the low `n` bits of `v` (rule R10). -/
def trunc (n v : Nat) : Nat := v % 2 ^ n

end Sys2Proof
end

