-- ==== Sys2Proof/Config.lean ====
section
/-!
DEFINITION. What an implementation fixes, and the free values: the five build parameters of rule R5, and the opaque
constants behind every value the spec leaves unspecified (10_state.md rule R41, 20_memory.md rule R51).
-/

namespace Sys2Proof.Config

/-- The parameters of a build (00_scope.md rule R5). -/
structure Params where
  /-- Width of ENG `value`, of `init_i` and of every trace word. -/
  W : Nat
  /-- Width of ENG `steps` and of the trace index. -/
  C : Nat
  /-- Width of a command payload. -/
  P : Nat
  /-- Capacity of CMDQ in records. -/
  cmdDepth : Nat
  /-- Capacity of OUTQ in bytes. -/
  outDepth : Nat
deriving DecidableEq, Repr

/-- The constraints of rule R5 (92_eei_decisions.md D4). -/
abbrev Params.Valid (p : Params) : Prop :=
  2 ≤ p.W ∧ 1 ≤ p.C ∧ 32 ≤ p.P ∧ p.W ≤ p.P ∧ p.C ≤ p.P ∧ 1 ≤ p.cmdDepth ∧ 1 ≤ p.outDepth

/-- The reference configuration. W = P = 34 is rule R5's; C = 10 is what the spec's vectors use, and the two depths are
those of its programs P2 and P6 (DESIGN CHOICE, entry 2: rule R5 leaves the three open). -/
def reference : Params := { W := 34, C := 10, P := 34, cmdDepth := 4, outDepth := 4 }

/-- The free values behind every unspecified register value: no body, so nothing can be proved of one. The step reads it
at the counter `draws` of the state and advances the counter (rule R41: "a free value under no law"; entry 5). -/
opaque freeValue : Nat → Nat

/-- The unspecified word a trace entry holds when nothing has written it since reset (rule R37; entry 6). -/
opaque freeTraceWord : Nat → Nat

/-- What a reader of the trace port sees at an index the current run did not write: an unspecified word (rule R51,
93_implementation_defined.md I5; entry 7). The first argument is the state's draw counter, which every tick of ENG
advances, the second the index; so no law relates the words of two ticks or of two indices. -/
opaque freeTraceRead : Nat → Nat → Nat

end Sys2Proof.Config
end

