-- ==== Sys2Proof/Syntax.lean ====
section
/-!
DEFINITION. The operations of spec/opcode_table.json, one constructor a row, and the coded forms they have on their ports
(30_encoding.md rules R70, R76, R77, R78).
-/

namespace Sys2Proof

/-- The FIFO instances of the CORE (44_fifo.md rule R159). -/
inductive QueueId where
  /-- Command records, `P + 5` bits. -/
  | cmdq
  /-- Output bytes, 8 bits. -/
  | outq
deriving DecidableEq, Repr

/-- One constructor for each row of the opcode table. Payloads, initial values and queue entries have parameterised
widths and are naturals (rule R10); `WellFormed` bounds them. -/
inductive Instr where
  /-- VERBATIM (R132): four literal bytes of the payload. -/
  | verbatim (pl : Nat)
  /-- DECIMAL (R133): the payload's decimal numeral and a space. -/
  | decimal (pl : Nat)
  /-- HEX (R135): eight hex digits and a space. -/
  | hex (pl : Nat)
  /-- HEXSPACED (R136): hex digits in spaced groups. -/
  | hexspaced (pl : Nat)
  /-- CMD_RESERVED_TAG (R74, R139): a record whose tag is 0 to 3. -/
  | cmdReservedTag (tag : BitVec 2) (pl : Nat)
  /-- ENG_RESET (R210). -/
  | engReset
  /-- ENG_LOAD (R101). -/
  | engLoad (init : Nat)
  /-- ENG_ADVANCE (R102). -/
  | engAdvance
  /-- ENG_HOLD (R109). -/
  | engHold
  /-- FIFO_RESET (R158). -/
  | fifoReset (q : QueueId)
  /-- FIFO_PUSH (R151). -/
  | fifoPush (q : QueueId) (din : Nat)
  /-- FIFO_POP (R152). -/
  | fifoPop (q : QueueId)
  /-- FIFO_PUSHPOP (R153). -/
  | fifoPushpop (q : QueueId) (din : Nat)
  /-- FIFO_IDLE (R150). -/
  | fifoIdle (q : QueueId)
  /-- MULTIPLES (R90). -/
  | multiples (i : Nibble)
  /-- EXTRACT (R92). -/
  | extract (i : Nibble) (v : Nat)
deriving DecidableEq, Repr

/-- An operation as it stands, coded, on the port of its block. The port selects the format: the formats of the table
share bit patterns, and no bit of a word tells them apart (rules R76 to R78; entry 8). -/
inductive Code where
  /-- A command record at CMDQ's head (format CMD). -/
  | cmd (rec : Nat)
  /-- ENG's control vector `rst, load_i, advance_i` with its operand `init_i` (format ENG_CTRL). -/
  | engCtrl (vec : Ctrl) (init : Nat)
  /-- A FIFO's control vector `rst, push, pop` with its operand `din` (format FIFO_CTRL). -/
  | fifoCtrl (q : QueueId) (vec : Ctrl) (din : Nat)
  /-- MAG's operand (format FUNC). -/
  | mag (i : Nibble)
  /-- EXT's operands (format FUNC). -/
  | ext (i : Nibble) (v : Nat)
deriving DecidableEq, Repr

end Sys2Proof
end

