-- ==== Sys2Proof/WellFormed.lean ====
section
/-!
DEFINITION. Which operand values an encoding admits: each operand within the width of its field or port
(30_encoding.md rules R70, R76, R77, R78; 44_fifo.md rule R159).
-/

namespace Sys2Proof

/-- The entry width of a FIFO instance (rule R159). -/
def entryWidth (p : Config.Params) : QueueId → Nat
  | .cmdq => p.P + 5
  | .outq => 8

/-- Every operand fits its field or port. -/
def WellFormed (p : Config.Params) : Instr → Bool
  | .verbatim pl => decide (pl < 2 ^ p.P)
  | .decimal pl => decide (pl < 2 ^ p.P)
  | .hex pl => decide (pl < 2 ^ p.P)
  | .hexspaced pl => decide (pl < 2 ^ p.P)
  | .cmdReservedTag _ pl => decide (pl < 2 ^ p.P)
  | .engReset => true
  | .engLoad init => decide (init < 2 ^ p.W)
  | .engAdvance => true
  | .engHold => true
  | .fifoReset _ => true
  | .fifoPush q din => decide (din < 2 ^ entryWidth p q)
  | .fifoPop _ => true
  | .fifoPushpop q din => decide (din < 2 ^ entryWidth p q)
  | .fifoIdle _ => true
  | .multiples _ => true
  | .extract _ v => decide (v < 2 ^ p.P)

end Sys2Proof
end

