-- ==== Sys2Proof/Decode.lean ====
section
/-!
DEFINITION. Decoding and encoding (30_encoding.md). Decoding is total: the functions `decodeCmd`, `decodeEng` and
`decodeFifo` read what the wires of a port carry, and `decode` also rejects, by name, a coded form that no port of the
given widths can carry. The encoder follows; then the pseudo-operations of rule R84.
-/

namespace Sys2Proof

/-- `v[lo+n-1 : lo]`, a field of `n` bits (rule R10). -/
def bitField (v lo n : Nat) : Nat := (v >>> lo) % 2 ^ n

/-! ## Command records (rules R70 to R74, R82) -/

/-- `rec[P-1:0]`. -/
def recPayload (p : Config.Params) (rec : Nat) : Nat := bitField rec 0 p.P

/-- `rec[P+1:P]`, which decoding ignores (rule R73). -/
def recRsv (p : Config.Params) (rec : Nat) : Nat := bitField rec p.P 2

/-- `rec[P+4:P+2]`. -/
def recTag (p : Config.Params) (rec : Nat) : Nat := bitField rec (p.P + 2) 3

/-- `Decode(rec)` of rule R82, on the `P + 5` bits of a record. -/
def decodeCmd (p : Config.Params) (rec : Nat) : Instr :=
  match recTag p rec with
  | 4 => .verbatim (recPayload p rec)
  | 5 => .decimal (recPayload p rec)
  | 6 => .hex (recPayload p rec)
  | 7 => .hexspaced (recPayload p rec)
  | tag => .cmdReservedTag (BitVec.ofNat 2 tag) (recPayload p rec)

/-! ## Control vectors (rules R76, R77, R100, R150) -/

/-- ENG's operation of the tick: reset, then load, then advance (rules R76, R100). -/
def decodeEng (vec : Ctrl) (init : Nat) : Instr :=
  if vec.getLsbD 2 then .engReset
  else if vec.getLsbD 1 then .engLoad init
  else if vec.getLsbD 0 then .engAdvance
  else .engHold

/-- A FIFO instance's operation of the tick (rules R77, R150). -/
def decodeFifo (q : QueueId) (vec : Ctrl) (din : Nat) : Instr :=
  if vec.getLsbD 2 then .fifoReset q
  else if vec.getLsbD 1 && vec.getLsbD 0 then .fifoPushpop q din
  else if vec.getLsbD 1 then .fifoPush q din
  else if vec.getLsbD 0 then .fifoPop q
  else .fifoIdle q

/-! ## The decoder -/

/-- Why a coded form is none of a build with the given widths. -/
inductive DecodeReject where
  /-- A command record of more than `P + 5` bits (rule R70). -/
  | recordTooWide
  /-- An `init_i` of more than W bits (rule R26). -/
  | initTooWide
  /-- A `din` wider than the instance's entries (rule R159). -/
  | entryTooWide
  /-- An EXTRACT value of more than P bits (rule R92). -/
  | valueTooWide
deriving DecidableEq, Repr

/-- Decode a coded form: total, and rejecting by name. An operand that the operation does not read is not looked at. -/
def decode (p : Config.Params) : Code → Except DecodeReject Instr
  | .cmd rec => if rec < 2 ^ (p.P + 5) then .ok (decodeCmd p rec) else .error .recordTooWide
  | .engCtrl vec init =>
    if WellFormed p (decodeEng vec init) then .ok (decodeEng vec init) else .error .initTooWide
  | .fifoCtrl q vec din =>
    if WellFormed p (decodeFifo q vec din) then .ok (decodeFifo q vec din) else .error .entryTooWide
  | .mag i => .ok (.multiples i)
  | .ext i v => if v < 2 ^ p.P then .ok (.extract i v) else .error .valueTooWide

/-! ## The encoder -/

/-- `record = tag * 2^(P+2) + rsv * 2^P + payload` (rule R70). -/
def packRecord (p : Config.Params) (tag rsv pl : Nat) : Nat := tag * 2 ^ (p.P + 2) + rsv * 2 ^ p.P + pl

/-- The coded form of an operation, every don't-care bit and `rsv` 0 (rules R70, R73, R76 to R78). -/
def encode (p : Config.Params) : Instr → Code
  | .verbatim pl => .cmd (packRecord p 4 0 pl)
  | .decimal pl => .cmd (packRecord p 5 0 pl)
  | .hex pl => .cmd (packRecord p 6 0 pl)
  | .hexspaced pl => .cmd (packRecord p 7 0 pl)
  | .cmdReservedTag tag pl => .cmd (packRecord p tag.toNat 0 pl)
  | .engReset => .engCtrl 0b100#3 0
  | .engLoad init => .engCtrl 0b010#3 init
  | .engAdvance => .engCtrl 0b001#3 0
  | .engHold => .engCtrl 0b000#3 0
  | .fifoReset q => .fifoCtrl q 0b100#3 0
  | .fifoPush q din => .fifoCtrl q 0b010#3 din
  | .fifoPop q => .fifoCtrl q 0b001#3 0
  | .fifoPushpop q din => .fifoCtrl q 0b011#3 din
  | .fifoIdle q => .fifoCtrl q 0b000#3 0
  | .multiples i => .mag i
  | .extract i v => .ext i v

/-! ## Words of the opcode table -/

/-- The coded form, in the reference configuration, of a table word of `nbits` bits: a word of 39 bits or more is a
command record (format CMD, 39 bits at P = 34), one of 1 to 8 bits is ENG's control vector with `init_i = 0`, and one of
no bits is a FUNC word, which MAG reads as its index. FIFO_CTRL has the same 3-bit words as ENG_CTRL and no bit tells the two
apart (rules R76, R77; DESIGN CHOICE, entry 8). -/
def tableCode (nbits w : Nat) : Option Code :=
  if nbits = 0 then if w < 2 ^ 4 then some (.mag (BitVec.ofNat 4 w)) else none
  else if nbits ≤ 8 then if w < 2 ^ 3 then some (.engCtrl (BitVec.ofNat 3 w) 0) else none
  else if Config.reference.P + 5 ≤ nbits then some (.cmd w)
  else none

/-- The instruction the decoder reads from a table word. -/
def decodeTableWord (nbits w : Nat) : Option Instr :=
  match tableCode nbits w with
  | none => none
  | some c =>
    match decode Config.reference c with
    | .ok i => some i
    | .error _ => none

/-! ## Pseudo-operations (rule R84) -/

/-- The payload of `TEXT s`: the first character is the least significant byte. -/
def textPayload : List Byte → Nat
  | [] => 0
  | b :: rest => b.toNat + 256 * textPayload rest

/-- `TEXT s`. -/
def pseudoText (s : List Byte) : Instr := .verbatim (textPayload s)

/-- `TRAILER`: carriage-return, line-feed, bell. -/
def pseudoTrailer : Instr := .verbatim 0x00070A0D

/-- `REPORT a, b, c`. -/
def pseudoReport (a b c : Nat) : List Instr := [.decimal a, .decimal b, .decimal c, pseudoTrailer]

/-- `ERRREP ch, len, trial`. -/
def pseudoErrRep (ch : Byte) (len trial : Nat) : List Instr :=
  [pseudoText [ch], .decimal len, .decimal trial, pseudoTrailer]

/-- The record a command assembles to (rule R83); 0 for an operation that is no command. -/
def assemble (p : Config.Params) (i : Instr) : Nat :=
  match encode p i with
  | .cmd rec => rec
  | .engCtrl _ _ => 0
  | .fifoCtrl _ _ _ => 0
  | .mag _ => 0
  | .ext _ _ => 0

end Sys2Proof
end

