-- ==== Sys2Proof/Machine/State.lean ====
section
/-!
DEFINITION. The state of the machine (10_state.md rules R20 to R42), its environment (45_host_interface.md), the reasons
a step can stop (60_exceptions.md rule R196), and the state after reset (rule R41).
-/

namespace Sys2Proof.Machine

/-- ENG's control state (rule R24). Code 3 is never written (rule R75). -/
inductive Phase where
  | idle
  | loaded
  | active
deriving DecidableEq, Repr

/-- ENC's control state (rule R27). Codes 6 and 7 are never written (rule R75). -/
inductive EncMode where
  | ready
  | verb
  | dec
  | decsp
  | hex
  | hexs
deriving DecidableEq, Repr

/-- The trace RAM as (index, word) pairs, in one canonical form: indices strictly rising. An index with no pair was not
written since reset and its word is unspecified (20_memory.md rules R50, R51). -/
abbrev Memory := List (Nat × Nat)

/-- The registers and the trace of ENG (rules R21 to R24, R37). -/
structure Engine where
  /-- The TrialValue, W bits. -/
  value : Nat
  /-- The StepCounter, C bits. -/
  steps : Nat
  /-- The OverflowError flag. -/
  overflow : Bool
  /-- The ExhaustionError flag. -/
  exhausted : Bool
  /-- IDLE, LOADED or ACTIVE. -/
  phase : Phase
  /-- The trace RAM: every word written since reset, stale ones too (rules R37, R39). -/
  trace : Memory
  /-- The model's own: the part of the trace that the current run has written (rule R51; entry 7). -/
  runTrace : Memory
deriving DecidableEq, Repr

/-- The registers of ENC (rules R27 to R29). -/
structure Encoder where
  mode : EncMode
  /-- Position inside the current rendering sequence, 4 bits. -/
  pos : Nibble
  /-- The payload being rendered, P bits. -/
  pl : Nat
deriving DecidableEq, Repr

/-- The registers of DEC (rule R30). -/
structure Renderer where
  /-- `dec_i`, the magnitude index now extracted, 4 bits. -/
  idx : Nibble
  /-- `dec_rem`, the remaining value, P bits. -/
  rem : Nat
  /-- `dec_started`. -/
  started : Bool
deriving DecidableEq, Repr

/-- The strobes ENC drives in a tick (rule R31): `cmd_pop`, and `out_push` with `out_data` (`some` is a push). The model's
own field: wires, not storage (entry 14). -/
structure EncoderOut where
  cmdPop : Bool
  outPush : Option Byte
deriving DecidableEq, Repr

/-- What the consumer's port of a FIFO gave in the last operation on it (rules R152, R155). The model's own field
(entry 14). -/
inductive Taken where
  /-- The operation did not pop. -/
  | nothing
  /-- The head, which left the queue. -/
  | entry (v : Nat)
  /-- The queue was empty: `v` is a free value (rule R155). -/
  | unspecified (v : Nat)
deriving DecidableEq, Repr

/-- The outputs of MAG and EXT as last evaluated (rules R90, R92). The model's own field: the two blocks hold no state
(entry 14). -/
structure FuncOut where
  row : List Nat
  digit : Nat
  remainder : Nat
deriving DecidableEq, Repr

/-- The control state of the reference driver (45_host_interface.md rule R175). -/
inductive DriverMode where
  | dIdle
  | dLoad
  | dRun
  | dReport
deriving DecidableEq, Repr

/-- The state of the reference driver (rule R175). -/
structure Driver where
  mode : DriverMode
  /-- W bits. -/
  trial : Nat
  /-- C bits. -/
  bestLength : Nat
  /-- W bits. -/
  bestTrial : Nat
  /-- P bits. -/
  recordCount : Nat
  /-- At most 4 command records. -/
  pending : List Nat
deriving DecidableEq, Repr

/-- What XPORT does with OUTQ in a tick (rule R172). `take` keeps its duty; the blind pops break it when OUTQ is empty. -/
inductive XportMove where
  /-- No pop. -/
  | busy
  /-- Pops exactly when OUTQ shows `not_empty`, and transmits the byte. -/
  | take
  /-- Pops whatever OUTQ shows, and transmits the byte it takes. -/
  | popBlind
  /-- Pops whatever OUTQ shows, and does not use the byte it takes. -/
  | popDiscard
deriving DecidableEq, Repr

/-- The environment's inputs in one tick (rules R26, R76, R77, R174). -/
structure TickInput where
  /-- ENG's control vector `rst, load_i, advance_i`; bit 2 is the `rst` net of every block (rule R210). -/
  engCtrl : Ctrl
  /-- `init_i`; the port carries W bits of it. -/
  init : Nat
  /-- DRV's `push` on CMDQ. -/
  push : Bool
  /-- DRV's `din` on CMDQ; the port carries `P + 5` bits of it. -/
  din : Nat
  /-- XPORT's move on OUTQ. -/
  xport : XportMove
  /-- A byte XPORT delivers to DRV (rule R173). -/
  inbound : Option Byte
  /-- `trace_raddr_i`; the port carries C bits of it. -/
  raddr : Nat
deriving DecidableEq, Repr

/-- The environment: what it does in the ticks to come and what it has done since reset. It is no CORE state
(rule R40; entries 1, 17, 18). -/
structure Environment where
  /-- The inputs of the coming ticks, oldest first; past its end the environment is idle (entry 1). -/
  script : List TickInput
  /-- Whether the reference driver drives ENG and CMDQ in place of the script (entry 17). -/
  drvOn : Bool
  /-- The reference driver. -/
  drv : Driver
  /-- Inbound bytes not yet read by DRV. -/
  inq : List Byte
  /-- Bytes XPORT has popped since the last reset, oldest first (rule R223). -/
  popped : List Byte
  /-- Records CMDQ has accepted since the last reset, oldest first (rule R223). -/
  pushed : List Nat
deriving DecidableEq, Repr

/-- The whole machine: the tuple of rule R40, the parameters, the model's own observations and the environment. -/
structure State where
  /-- The parameters of this build; no step changes them (rule R6; entry 2). -/
  cfg : Config.Params
  /-- ENG. -/
  eng : Engine
  /-- ENC. -/
  enc : Encoder
  /-- DEC. -/
  dec : Renderer
  /-- `CMDQ.items`, oldest first (rule R32). -/
  cmdq : List Nat
  /-- `OUTQ.items`, oldest first (rule R32). -/
  outq : List Byte
  /-- The strobes ENC drove in the last tick. -/
  encOut : EncoderOut
  /-- What CMDQ's pop port last gave. -/
  cmdTaken : Taken
  /-- What OUTQ's pop port last gave. -/
  outTaken : Taken
  /-- What MAG and EXT last gave. -/
  func : FuncOut
  /-- How many free values have been drawn (entry 5), the trace port's draw of each tick of ENG included (entry 7). -/
  draws : Nat
  /-- The environment. -/
  env : Environment
deriving DecidableEq, Repr

/-- The model faults of rule R196. None is a hardware trap (rule R198). A fault ends the run, so it is sticky and the
faulted state is never final. Each is safe: the model claims nothing of what the hardware does then. -/
inductive Fault where
  /-- Raised by CMD_RESERVED_TAG, when ENC dispatches a record with tag 0 to 3 (rule R139). Safe. -/
  | reservedTag
  /-- Raised by XPORT, when it pops an empty OUTQ and uses the value (rule R155). Safe. -/
  | popEmpty
  /-- Raised by MULTIPLES and EXTRACT at an index of 10 to 15 (rule R95). Safe. -/
  | magnitudeIndex
deriving DecidableEq, Repr

/-- Why a step has no meaning. -/
inductive Refusal where
  /-- Raised by `exec` for an instruction without a meaning; no arm raises it. Safe. -/
  | notModelled (mnemonic : String)
  /-- Raised by `step` where the state's parameters break rule R5: "configurations outside these bounds are refused"
  (92_eei_decisions.md D4; entry 20). Safe. -/
  | invalidParameters
deriving DecidableEq, Repr

/-- An idle environment tick: no control bit, no push, no pop, no inbound byte. -/
def TickInput.idle : TickInput :=
  { engCtrl := 0b000#3, init := 0, push := false, din := 0, xport := .busy, inbound := none, raddr := 0 }

/-- The reference driver after reset (rule R175). -/
def Driver.reset : Driver :=
  { mode := .dIdle, trial := 0, bestLength := 0, bestTrial := 0, recordCount := 0, pending := [] }

/-- The state after reset of a build with the parameters `p` (rule R41): ENG IDLE, ENC READY, both FIFOs empty. Every
register that rule R41 leaves unspecified is 0 here (DESIGN CHOICE, UNSAFE, entry 4). -/
def State.resetOf (p : Config.Params) : State :=
  { cfg := p
    eng :=
      { value := 0, steps := 0, overflow := false, exhausted := false, phase := .idle, trace := [], runTrace := [] }
    enc := { mode := .ready, pos := 0#4, pl := 0 }
    dec := { idx := 0#4, rem := 0, started := false }
    cmdq := []
    outq := []
    encOut := { cmdPop := false, outPush := none }
    cmdTaken := .nothing
    outTaken := .nothing
    func := { row := [], digit := 0, remainder := 0 }
    draws := 0
    env := { script := [], drvOn := false, drv := Driver.reset, inq := [], popped := [], pushed := [] } }

/-- The state after reset of the reference configuration. -/
def State.reset : State := State.resetOf Config.reference

end Sys2Proof.Machine
end

