-- ==== Sys2Proof/Machine/Operands.lean ====
section
/-!
DEFINITION. How operands are read: the bytes of a payload, the hex and decimal characters, and what a port carries of an
input (20_memory.md rules R56, R57; 30_encoding.md rules R72, R79, R80).
-/

namespace Sys2Proof.Machine

/-- `pl[8j+7 : 8j]`: payload byte `j`, byte 0 the least significant (rules R56, R57). -/
def payloadByte (pl j : Nat) : Byte := BitVec.ofNat 8 (bitField pl (8 * j) 8)

/-- `b[7:4]`. -/
def highNibble (b : Byte) : Nat := bitField b.toNat 4 4

/-- `b[3:0]`. -/
def lowNibble (b : Byte) : Nat := bitField b.toNat 0 4

/-- `HexChar(n)` (rule R80). -/
def hexChar (n : Nat) : Byte := BitVec.ofNat 8 (if n < 10 then 0x30 + n else 0x61 + (n - 10))

/-- The character of a decimal digit, `'0' + digit` (rule R121). -/
def digitChar (d : Nat) : Byte := BitVec.ofNat 8 (0x30 + d)

/-- The space character (rule R79). -/
def spaceChar : Byte := 0x20#8

/-- The entry a FIFO's `din` port carries: the entry width of the instance (rules R77, R159). -/
def dinEntry (p : Config.Params) (q : QueueId) (din : Nat) : Nat := trunc (entryWidth p q) din

/-- The environment's inputs of the tick: the script's first entry, idle past its end (entry 1). -/
def scriptInput (s : State) : TickInput := s.env.script.headD TickInput.idle

/-- A 3-bit control vector: `rst` in bit 2, then the two operation bits (rules R76, R77). -/
def ctrlVec (rst hi lo : Bool) : Ctrl := BitVec.ofNat 3 (4 * rst.toNat + 2 * hi.toNat + lo.toNat)

/-- `rst` of the tick: bit 2 of the control vector, one net for every block (rules R76, R210). -/
def TickInput.rst (inp : TickInput) : Bool := inp.engCtrl.getLsbD 2

end Sys2Proof.Machine
end

