-- ==== Sys2Proof/Machine/Flags.lean ====
section
/-!
DEFINITION. Every status bit and condition of the CORE (10_state.md rules R25, R31, R33, R35), computed from the state at
the start of the tick, and the conditions of ENG's and ENC's rules.
-/

namespace Sys2Proof.Machine

/-- The 2-bit code of ENG's phase (rule R24). -/
def Phase.code : Phase → BitVec 2
  | .idle => 0#2
  | .loaded => 1#2
  | .active => 2#2

/-- The 3-bit code of ENC's mode (rule R27). -/
def EncMode.code : EncMode → BitVec 3
  | .ready => 0#3
  | .verb => 1#3
  | .dec => 2#3
  | .decsp => 3#3
  | .hex => 4#3
  | .hexs => 5#3

/-! ## ENG -/

/-- `B = 2^C - 2`, the step budget (rule R5). -/
def stepBudget (p : Config.Params) : Nat := 2 ^ p.C - 2

/-- The guard of an effective ADVANCE: `value > 1` (rule R102). -/
def effective (e : Engine) : Bool := decide (1 < e.value)

/-- The budget check: `steps >= 2^C - 2` (rule R103). -/
def budgetReached (p : Config.Params) (e : Engine) : Bool := decide (stepBudget p ≤ e.steps)

/-- `value[0] == 1`. -/
def oddValue (e : Engine) : Bool := e.value.testBit 0

/-- The headroom check: the two most significant bits of `value` are both zero (rule R105). -/
def headroomClear (p : Config.Params) (e : Engine) : Bool :=
  !e.value.testBit (p.W - 1) && !e.value.testBit (p.W - 2)

/-- `done_o = (phase == ACTIVE) and (value == 1)` (rules R25, R110). -/
def doneO (s : State) : Bool := decide (s.eng.phase = .active) && decide (s.eng.value = 1)

/-! ## FIFOs -/

/-- `not_empty` of CMDQ (rule R33). -/
def cmdqNotEmpty (s : State) : Bool := decide (0 < s.cmdq.length)

/-- `not_full` of CMDQ (rule R33). -/
def cmdqNotFull (s : State) : Bool := decide (s.cmdq.length < s.cfg.cmdDepth)

/-- `not_empty` of OUTQ (rule R33). -/
def outqNotEmpty (s : State) : Bool := decide (0 < s.outq.length)

/-- `not_full` of OUTQ (rule R33). -/
def outqNotFull (s : State) : Bool := decide (s.outq.length < s.cfg.outDepth)

/-! ## ENC -/

/-- `enc_ready_o` (rule R31). -/
def encReadyO (s : State) : Bool := decide (s.enc.mode = .ready)

/-- The condition of a dispatch: CMDQ shows `not_empty` and OUTQ `not_full` (rule R131). -/
def canDispatch (s : State) : Bool := cmdqNotEmpty s && outqNotFull s

end Sys2Proof.Machine
end

