-- ==== Sys2Proof/Machine/Ops.lean ====
section
/-!
DEFINITION. The named operations over the trace, the registers and the queues that the meanings share. The CORE has no
exception entry and no return from one (60_exceptions.md rule R198): the one thing an error does is `forceEnd`, the forced
termination of a run, and the one return from it is the next LOAD (rule R194).
-/

namespace Sys2Proof.Machine

/-! ## The trace RAM (20_memory.md rules R50 to R52) -/

/-- The canonical form: indices strictly rising. -/
def Memory.wf : Memory → Bool
  | [] => true
  | (_, _) :: [] => true
  | (a, _) :: (b, w) :: rest => decide (a < b) && Memory.wf ((b, w) :: rest)

/-- The word written at an index, if any was. -/
def Memory.read : Memory → Nat → Option Nat
  | [], _ => none
  | (a, w) :: rest, i => if a = i then some w else Memory.read rest i

/-- Write one word, keeping the canonical form. -/
def Memory.write : Memory → Nat → Nat → Memory
  | [], i, v => [(i, v)]
  | (a, w) :: rest, i, v =>
    if i < a then (i, v) :: (a, w) :: rest
    else if i = a then (i, v) :: rest
    else (a, w) :: Memory.write rest i v

/-- `TraceRead(i)`: the word of the RAM at index `i` (rule R12); at an index not written since reset, the unspecified
word the entry holds (rule R37; entry 6). -/
def traceRead (s : State) (i : Nat) : Nat :=
  match s.eng.trace.read i with
  | some w => w
  | none => trunc s.cfg.W (Config.freeTraceWord i)

/-- `trace_rdata_o` at `trace_raddr_i = i` (rules R25, R52): the RAM's word where the current run wrote the index, and an
unspecified word elsewhere, which is what a reader must take it for (rule R51, 93_implementation_defined.md I5). It is a draw
of the tick: each of ENG's operations advances the counter, with `drawPort` or `resetEngine` (entry 7). -/
def traceRdataO (s : State) (i : Nat) : Nat :=
  match s.eng.runTrace.read i with
  | some w => w
  | none => trunc s.cfg.W (Config.freeTraceRead s.draws i)

/-- The trace port's draw of a tick is spent: its words at the indices that the current run did not write are other free
values in the next tick (rule R51, decision D12; entry 7). -/
def drawPort (s : State) : State := { s with draws := s.draws + 1 }

/-! ## Free values (rule R41; entry 5) -/

/-- The `k`-th free value from the state's counter on, of `n` bits. -/
def freeBits (s : State) (k n : Nat) : Nat := trunc n (Config.freeValue (s.draws + k))

/-- The `k`-th free value from the state's counter on, of 4 bits. -/
def freeNibble (s : State) (k : Nat) : Nibble := BitVec.ofNat 4 (Config.freeValue (s.draws + k))

/-- The `k`-th free value from the state's counter on, of 1 bit. -/
def freeBit (s : State) (k : Nat) : Bool := (Config.freeValue (s.draws + k)).testBit 0

/-! ## ENG (41_trajectory_engine.md) -/

/-- `TraceWrite(steps, value)` with the values at the start of the tick (rule R107). -/
def traceWrite (e : Engine) : Engine :=
  { e with trace := e.trace.write e.steps e.value, runTrace := e.runTrace.write e.steps e.value }

/-- LOAD (rule R101). The trace keeps its words; the current run has written none (rule R51). -/
def loadRun (init : Nat) (e : Engine) : Engine :=
  { e with value := init, steps := 0, overflow := false, exhausted := false, phase := .loaded, runTrace := [] }

/-- The forced termination of a run: `value` is forced to 1, `steps` stays (rules R104, R105, R190, R191). -/
def forceEnd (e : Engine) : Engine := { e with value := 1 }

/-- EXHAUST (rule R104). -/
def exhaust (e : Engine) : Engine := { forceEnd e with exhausted := true }

/-- ODD_STEP with its headroom check (rule R105). -/
def oddStep (p : Config.Params) (e : Engine) : Engine :=
  if headroomClear p e then { e with value := (3 * e.value + 1) >>> 1, steps := e.steps + 2 }
  else { forceEnd e with overflow := true }

/-- EVEN_STEP (rule R106). -/
def evenStep (e : Engine) : Engine := { e with value := e.value >>> 1, steps := e.steps + 1 }

/-- The branch of an effective ADVANCE, the budget check first (rule R103). -/
def collatzStep (p : Config.Params) (e : Engine) : Engine :=
  if budgetReached p e then exhaust e
  else if oddValue e then oddStep p e
  else evenStep e

/-- ADVANCE (rule R102): in IDLE nothing; else the run is ACTIVE, and a value above 1 is traced and stepped. -/
def advanceRun (p : Config.Params) (e : Engine) : Engine :=
  match e.phase with
  | .idle => e
  | .loaded | .active =>
    if effective e then { collatzStep p (traceWrite e) with phase := .active }
    else { e with phase := .active }

/-- ENG_RESET (rule R210): IDLE; the datapath registers are unspecified, the trace is not written. The free values are
drawn in the order `value`, `steps`, `overflow`, `exhausted`, and the trace port's words are drawn afresh with them. -/
def resetEngine (s : State) : State :=
  { s with
    eng :=
      { s.eng with
        phase := .idle
        value := freeBits s 0 s.cfg.W
        steps := freeBits s 1 s.cfg.C
        overflow := freeBit s 2
        exhausted := freeBit s 3
        runTrace := [] }
    draws := s.draws + 4 }

/-! ## FIFOs (44_fifo.md) -/

/-- The FIFO tick of rule R150 on the list of items: push and pop are each judged against the occupancy at the start of
the tick. -/
def fifoNext {α : Type} (depth : Nat) (rst push pop : Bool) (din : α) (items : List α) : List α :=
  if rst then []
  else
    let pushOk := push && decide (items.length < depth)
    let popOk := pop && decide (0 < items.length)
    let kept := if popOk then items.drop 1 else items
    if pushOk then kept ++ [din] else kept

/-- What a pop takes (rules R152, R155): the head; from an empty queue an unspecified value, here the free value `w`. -/
def takenBy (pop : Bool) (head : Option Nat) (w : Nat) : Taken :=
  if pop then
    match head with
    | some v => .entry v
    | none => .unspecified w
  else .nothing

/-- How many free values a pop draws: one from an empty queue (rule R155). -/
def drawsOfPop (pop empty : Bool) : Nat := if pop && empty then 1 else 0

/-- A FIFO_CTRL operation on CMDQ. -/
def cmdqTick (rst push pop : Bool) (din : Nat) (s : State) : State :=
  { s with
    cmdq := fifoNext s.cfg.cmdDepth rst push pop (dinEntry s.cfg .cmdq din) s.cmdq
    cmdTaken := takenBy (pop && !rst) s.cmdq.head? (freeBits s 0 (entryWidth s.cfg .cmdq))
    draws := s.draws + drawsOfPop (pop && !rst) s.cmdq.isEmpty }

/-- A FIFO_CTRL operation on OUTQ. -/
def outqTick (rst push pop : Bool) (din : Nat) (s : State) : State :=
  { s with
    outq := fifoNext s.cfg.outDepth rst push pop (BitVec.ofNat 8 (dinEntry s.cfg .outq din)) s.outq
    outTaken := takenBy (pop && !rst) (s.outq.head?.map BitVec.toNat) (freeBits s 0 (entryWidth s.cfg .outq))
    draws := s.draws + drawsOfPop (pop && !rst) s.outq.isEmpty }

/-- A FIFO_CTRL operation on an instance (rule R150). -/
def fifoTick (q : QueueId) (rst push pop : Bool) (din : Nat) (s : State) : State :=
  match q with
  | .cmdq => cmdqTick rst push pop din s
  | .outq => outqTick rst push pop din s

/-! ## MAG and EXT (40_digit_extraction.md) -/

/-- The row of the MagnitudeTable: `[k * 10^i for k in 1..9]`, exact (rule R90). -/
def multiplesRow (i : Nat) : List Nat := (List.range 9).map fun k => (k + 1) * 10 ^ i

/-- The descending comparison ladder from entry `k` down to entry 1 of a row (rule R92). -/
def ladder (row : List Nat) (v : Nat) : Nat → Nat × Nat
  | 0 => (0, v)
  | k + 1 => if row.getD k 0 ≤ v then (k + 1, v - row.getD k 0) else ladder row v k

/-- `EXTRACT(i, v)` as a function (rule R92). -/
def extractDigit (i v : Nat) : Nat × Nat := ladder (multiplesRow i) v 9

/-- MULTIPLES: MAG shows the row; an index outside 0..9 faults (rules R90, R95). -/
def lookupRow (i : Nibble) (s : State) : Host.Outcome State Fault Refusal :=
  if i.toNat ≤ 9 then .next { s with func := { s.func with row := multiplesRow i.toNat } }
  else .fault .magnitudeIndex

/-- EXTRACT: EXT fetches the row from MAG and shows the digit and the remainder of the ladder (rules R92, R95). -/
def extractOp (i : Nibble) (v : Nat) (s : State) : Host.Outcome State Fault Refusal :=
  match lookupRow i s with
  | .next t =>
    .next { t with func := { t.func with digit := (ladder t.func.row v 9).1, remainder := (ladder t.func.row v 9).2 } }
  | .fault f => .fault f
  | .refused r => .refused r

/-! ## ENC (43_protocol_encoder.md) -/

/-- ENC drives no strobe. -/
def EncoderOut.idle : EncoderOut := { cmdPop := false, outPush := none }

/-- `hold`: no register of ENC or DEC changes, nothing is popped and nothing is pushed (rules R131, R138). -/
def encHold (s : State) : State := { s with encOut := EncoderOut.idle }

/-- `Emit(b)`: `out_push` with `out_data = b` (rules R12, R130). -/
def emit (b : Byte) (s : State) : State := { s with encOut := { cmdPop := false, outPush := some b } }

/-- A dispatch's part that every command shares: `cmd_pop`, and the latched payload at position 0 (rule R131). -/
def latchCommand (mode : EncMode) (pl : Nat) (s : State) : State :=
  { s with
    enc := { mode := mode, pos := 0#4, pl := trunc s.cfg.P pl }
    encOut := { cmdPop := true, outPush := none } }

/-- DEC_START (rule R120). -/
def decStart (pl : Nat) (s : State) : State :=
  { s with dec := { idx := 9#4, rem := trunc s.cfg.P pl, started := false } }

/-- Move to the next position, or to READY after the last one. -/
def advancePos (last : Nat) (s : State) : State :=
  if s.enc.pos.toNat = last then { s with enc := { s.enc with mode := .ready } }
  else { s with enc := { s.enc with pos := s.enc.pos + 1#4 } }

/-- READY_STEP for a record whose command is rendered in `mode` (rule R131). -/
def readyStep (mode : EncMode) (pl : Nat) (s : State) : State :=
  if canDispatch s then latchCommand mode pl s else encHold s

/-- READY_STEP for a DECIMAL record, which also starts DEC (rules R120, R131). -/
def readyStepDec (pl : Nat) (s : State) : State :=
  if canDispatch s then decStart pl (latchCommand .dec pl s) else encHold s

/-- VERB_STEP (rule R132). -/
def verbStep (s : State) : State :=
  if payloadByte s.enc.pl s.enc.pos.toNat = 0#8 then advancePos 3 (encHold s)
  else if outqNotFull s then advancePos 3 (emit (payloadByte s.enc.pl s.enc.pos.toNat) s)
  else encHold s

/-- `HexSeq(pl, spaced)` (rule R137). -/
def hexSeq (pl : Nat) (spaced : Bool) : List Byte :=
  ([3, 2, 1, 0].flatMap fun g =>
    [hexChar (highNibble (payloadByte pl g)), hexChar (lowNibble (payloadByte pl g))]
      ++ (if spaced && decide (g ≠ 0) then [spaceChar] else []))
    ++ [spaceChar]

/-- HEX_STEP and HEXS_STEP: byte `enc_pos` of the hex sequence (rules R135, R136). -/
def hexStep (spaced : Bool) (last : Nat) (s : State) : State :=
  if outqNotFull s then advancePos last (emit ((hexSeq s.enc.pl spaced).getD s.enc.pos.toNat spaceChar) s)
  else encHold s

/-- DEC_STEP once EXT has given its digit and remainder (rule R121). -/
def decPosition (s : State) : State :=
  if s.func.digit = 0 ∧ s.dec.started = false ∧ s.dec.idx ≠ 0#4 then
    { encHold s with dec := { s.dec with rem := s.func.remainder, idx := s.dec.idx - 1#4 } }
  else if outqNotFull s then
    if s.dec.idx = 0#4 then
      { emit (digitChar s.func.digit) s with
        dec := { s.dec with rem := s.func.remainder, started := true }
        enc := { s.enc with mode := .decsp } }
    else
      { emit (digitChar s.func.digit) s with
        dec := { idx := s.dec.idx - 1#4, rem := s.func.remainder, started := true } }
  else encHold s

/-- DEC_STEP (rule R121): DEC calls EXT on `dec_i` and `dec_rem`. -/
def decStep (s : State) : Host.Outcome State Fault Refusal :=
  match extractOp s.dec.idx s.dec.rem s with
  | .next t => .next (decPosition t)
  | .fault f => .fault f
  | .refused r => .refused r

/-- DECSP_STEP (rule R134). -/
def decspStep (s : State) : State :=
  if outqNotFull s then { emit spaceChar s with enc := { s.enc with mode := .ready } }
  else encHold s

/-- ENC_RESET (rule R142): READY; every other register of ENC and DEC is unspecified. The free values are drawn in the
order `enc_pos`, `enc_pl`, `dec_i`, `dec_rem`, `dec_started`. -/
def resetEncoder (s : State) : State :=
  { s with
    enc := { mode := .ready, pos := freeNibble s 0, pl := freeBits s 1 s.cfg.P }
    dec := { idx := freeNibble s 2, rem := freeBits s 3 s.cfg.P, started := freeBit s 4 }
    encOut := EncoderOut.idle
    draws := s.draws + 5 }

/-! ## Sequencing -/

/-- Go on with `f` from a next state; a fault or a refusal stops. -/
def andThen (o : Host.Outcome State Fault Refusal) (f : State → Host.Outcome State Fault Refusal) :
    Host.Outcome State Fault Refusal :=
  match o with
  | .next s => f s
  | .fault r => .fault r
  | .refused r => .refused r

end Sys2Proof.Machine
end

