-- ==== Sys2Proof/Machine/Command.lean ====
section
/-!
DEFINITION. The meanings of the commands (43_protocol_encoder.md): what ENC does for a command in one tick. In READY that
is READY_STEP with the command's record at CMDQ's head; in the command's own rendering mode it is that mode's step; and
while ENC renders another command it is nothing, since commands are rendered one at a time (rule R140). ENC's strobes go to
the FIFOs in the same tick (Tick.lean).
-/

namespace Sys2Proof.Machine

/-- VERBATIM (rules R131, R132). -/
def execVerbatim (pl : Nat) (s : State) : Host.Outcome State Fault Refusal :=
  match s.enc.mode with
  | .ready => .next (readyStep .verb pl s)
  | .verb => .next (verbStep s)
  | .dec | .decsp | .hex | .hexs => .next (encHold s)

/-- DECIMAL (rules R131, R133, R134; 42_decimal_renderer.md rules R120, R121). -/
def execDecimal (pl : Nat) (s : State) : Host.Outcome State Fault Refusal :=
  match s.enc.mode with
  | .ready => .next (readyStepDec pl s)
  | .dec => decStep s
  | .decsp => .next (decspStep s)
  | .verb | .hex | .hexs => .next (encHold s)

/-- HEX (rules R131, R135). -/
def execHex (pl : Nat) (s : State) : Host.Outcome State Fault Refusal :=
  match s.enc.mode with
  | .ready => .next (readyStep .hex pl s)
  | .hex => .next (hexStep false 8 s)
  | .verb | .dec | .decsp | .hexs => .next (encHold s)

/-- HEXSPACED (rules R131, R136). -/
def execHexspaced (pl : Nat) (s : State) : Host.Outcome State Fault Refusal :=
  match s.enc.mode with
  | .ready => .next (readyStep .hexs pl s)
  | .hexs => .next (hexStep true 11 s)
  | .verb | .dec | .decsp | .hex => .next (encHold s)

/-- CMD_RESERVED_TAG (rules R74, R139): a dispatched record with tag 0 to 3 has no behaviour in the source, and the model
faults. It is run only when ENC dispatches the record (Tick.lean). -/
def execCmdReservedTag (_tag : BitVec 2) (_pl : Nat) (_s : State) : Host.Outcome State Fault Refusal :=
  .fault .reservedTag

end Sys2Proof.Machine
end

