-- ==== Sys2Proof/Machine/EngCtrl.lean ====
section
/-!
DEFINITION. The meanings of the ENG_CTRL operations (41_trajectory_engine.md, 70_reset_and_hazards.md): what ENG does in a
tick with the operation. Each touches ENG alone (20_memory.md rule R66), and ends the trace port's draw of the tick, the model's
own (entry 7); the other blocks' share of the tick is Tick.lean's.
-/

namespace Sys2Proof.Machine

/-- ENG_RESET (rule R210). -/
def execEngReset (s : State) : Host.Outcome State Fault Refusal := .next (resetEngine s)

/-- ENG_LOAD (rule R101): accepted in every phase. `init_i` has W bits. -/
def execEngLoad (init : Nat) (s : State) : Host.Outcome State Fault Refusal :=
  .next (drawPort { s with eng := loadRun (trunc s.cfg.W init) s.eng })

/-- ENG_ADVANCE (rules R102 to R107). -/
def execEngAdvance (s : State) : Host.Outcome State Fault Refusal :=
  .next (drawPort { s with eng := advanceRun s.cfg s.eng })

/-- ENG_HOLD (rule R109): no register of ENG and no trace entry changes. -/
def execEngHold (s : State) : Host.Outcome State Fault Refusal := .next (drawPort s)

end Sys2Proof.Machine
end

