-- ==== Sys2Proof/Machine/FifoCtrl.lean ====
section
/-!
DEFINITION. The meanings of the FIFO_CTRL operations on one instance (44_fifo.md rules R150 to R158).
-/

namespace Sys2Proof.Machine

/-- FIFO_RESET (rule R158). -/
def execFifoReset (q : QueueId) (s : State) : Host.Outcome State Fault Refusal :=
  .next (fifoTick q true false false 0 s)

/-- FIFO_PUSH (rules R151, R154). -/
def execFifoPush (q : QueueId) (din : Nat) (s : State) : Host.Outcome State Fault Refusal :=
  .next (fifoTick q false true false din s)

/-- FIFO_POP (rules R152, R155). -/
def execFifoPop (q : QueueId) (s : State) : Host.Outcome State Fault Refusal :=
  .next (fifoTick q false false true 0 s)

/-- FIFO_PUSHPOP (rule R153). -/
def execFifoPushpop (q : QueueId) (din : Nat) (s : State) : Host.Outcome State Fault Refusal :=
  .next (fifoTick q false true true din s)

/-- FIFO_IDLE (rule R150). -/
def execFifoIdle (q : QueueId) (s : State) : Host.Outcome State Fault Refusal :=
  .next (fifoTick q false false false 0 s)

end Sys2Proof.Machine
end

