-- ==== Sys2Proof/Machine/Func.lean ====
section
/-!
DEFINITION. The meanings of the FUNC operations (40_digit_extraction.md): the outputs MAG and EXT show for their operands.
-/

namespace Sys2Proof.Machine

/-- MULTIPLES (rules R90, R95). -/
def execMultiples (i : Nibble) (s : State) : Host.Outcome State Fault Refusal := lookupRow i s

/-- EXTRACT (rules R92, R95). -/
def execExtract (i : Nibble) (v : Nat) (s : State) : Host.Outcome State Fault Refusal := extractOp i v s

end Sys2Proof.Machine
end

