-- ==== Sys2Proof/Machine/Dispatch.lean ====
section
/-! DEFINITION. The dispatch: one arm a constructor, each one call of that operation's meaning. -/

namespace Sys2Proof.Machine

def exec (i : Instr) (s : State) : Host.Outcome State Fault Refusal :=
  match i with
  | .verbatim pl => Sys2Proof.Machine.execVerbatim pl s
  | .decimal pl => Sys2Proof.Machine.execDecimal pl s
  | .hex pl => Sys2Proof.Machine.execHex pl s
  | .hexspaced pl => Sys2Proof.Machine.execHexspaced pl s
  | .cmdReservedTag tag pl => Sys2Proof.Machine.execCmdReservedTag tag pl s
  | .engReset => Sys2Proof.Machine.execEngReset s
  | .engLoad init => Sys2Proof.Machine.execEngLoad init s
  | .engAdvance => Sys2Proof.Machine.execEngAdvance s
  | .engHold => Sys2Proof.Machine.execEngHold s
  | .fifoReset q => Sys2Proof.Machine.execFifoReset q s
  | .fifoPush q din => Sys2Proof.Machine.execFifoPush q din s
  | .fifoPop q => Sys2Proof.Machine.execFifoPop q s
  | .fifoPushpop q din => Sys2Proof.Machine.execFifoPushpop q din s
  | .fifoIdle q => Sys2Proof.Machine.execFifoIdle q s
  | .multiples idx => Sys2Proof.Machine.execMultiples idx s
  | .extract idx v => Sys2Proof.Machine.execExtract idx v s

end Sys2Proof.Machine
end

