-- ==== Sys2Proof/Machine/Driver.lean ====
section
/-!
DEFINITION. The reference driver of 45_host_interface.md rules R175 to R181: what it drives in a tick from the state at the
start of the tick, and its next state. It stands in for the script's ENG and CMDQ inputs while `env.drvOn` is set; `rst`, XPORT,
the inbound bytes and `trace_raddr_i` stay the script's (entry 17).
-/

namespace Sys2Proof.Machine

/-- The records of a report (rules R84, R178). -/
def reportRecords (p : Config.Params) (is : List Instr) : List Nat := is.map (assemble p)

/-- The report that follows a completed run (rule R178, cases c to f). -/
def runReport (s : State) : List Nat :=
  let d := s.env.drv
  if s.eng.overflow then reportRecords s.cfg (pseudoErrRep 0x58#8 s.eng.steps d.trial)
  else if s.eng.exhausted then reportRecords s.cfg (pseudoErrRep 0x4E#8 s.eng.steps d.trial)
  else if d.bestLength < s.eng.steps then
    reportRecords s.cfg (pseudoReport (trunc s.cfg.P (d.recordCount + 1)) s.eng.steps d.trial)
  else []

/-- The driver's record of the best trial after a completed run (rule R178, case c). -/
def runRecord (s : State) : Driver :=
  let d := s.env.drv
  if s.eng.overflow || s.eng.exhausted then d
  else if d.bestLength < s.eng.steps then
    { d with
      bestLength := s.eng.steps
      bestTrial := d.trial
      recordCount := trunc s.cfg.P (d.recordCount + 1) }
  else d

/-- What the reference driver drives in the tick (rules R176 to R179); the rest of `inp` stays. -/
def driverInput (s : State) (inp : TickInput) : TickInput :=
  let d := s.env.drv
  match d.mode with
  | .dIdle => { inp with engCtrl := ctrlVec inp.rst false false, push := false }
  | .dLoad =>
    { inp with engCtrl := ctrlVec inp.rst true false, init := trunc s.cfg.W (d.trial + 1), push := false }
  | .dRun => { inp with engCtrl := ctrlVec inp.rst false (!doneO s), push := false }
  | .dReport =>
    match d.pending with
    | [] => { inp with engCtrl := ctrlVec inp.rst false false, push := false }
    | rec :: _ => { inp with engCtrl := ctrlVec inp.rst false false, push := cmdqNotFull s, din := rec }

/-- The driver's next state (rules R176 to R179). -/
def driverNext (s : State) : Driver :=
  let d := s.env.drv
  match d.mode with
  | .dIdle => if s.env.inq.head? = some 65#8 then { d with mode := .dLoad } else d
  | .dLoad => { d with trial := trunc s.cfg.W (d.trial + 1), mode := .dRun }
  | .dRun =>
    if doneO s then
      { runRecord s with
        pending := runReport s
        mode := if runReport s = [] then .dLoad else .dReport }
    else d
  | .dReport =>
    if cmdqNotFull s then
      { d with pending := d.pending.drop 1, mode := if d.pending.drop 1 = [] then .dLoad else .dReport }
    else d

/-- The inbound bytes left after the driver's tick: in D_IDLE it reads one, if one is there (rule R176); elsewhere it
ignores them (92_eei_decisions.md D29). -/
def driverInq (s : State) : List Byte :=
  match s.env.drv.mode with
  | .dIdle => s.env.inq.drop 1
  | .dLoad | .dRun | .dReport => s.env.inq

end Sys2Proof.Machine
end

