-- ==== Sys2Proof/Machine/Render.lean ====
section
/-!
DEFINITION. The byte sequences of the commands as pure functions (43_protocol_encoder.md rule R140, 42_decimal_renderer.md
rule R123), the bytes ENC has still to emit in a state, and the reference decoders of the round-trip law (rule R141).
-/

namespace Sys2Proof.Machine

/-- `VerbBytes(pl)` (rule R132). -/
def verbBytes (pl : Nat) : List Byte := ([0, 1, 2, 3].map (payloadByte pl)).filter fun b => b != 0#8

/-- `DecBytes` from magnitude position `i` down, with `started` as rule R123 threads it. -/
def decBytesFrom : Nat → Nat → Bool → List Byte
  | 0, v, _ => [digitChar (extractDigit 0 v).1]
  | i + 1, v, started =>
    if (extractDigit (i + 1) v).1 = 0 ∧ started = false then decBytesFrom i (extractDigit (i + 1) v).2 false
    else digitChar (extractDigit (i + 1) v).1 :: decBytesFrom i (extractDigit (i + 1) v).2 true

/-- `DecBytes(v)` (rule R123). -/
def decBytes (v : Nat) : List Byte := decBytesFrom 9 v false

/-- `OutBytes(rec)` (rule R140). Rule R140 gives none for a reserved tag, and such a record is never rendered: its
dispatch faults (rule R139). -/
def outBytes (p : Config.Params) (rec : Nat) : List Byte :=
  match recTag p rec with
  | 4 => verbBytes (recPayload p rec)
  | 5 => decBytes (recPayload p rec) ++ [spaceChar]
  | 6 => hexSeq (recPayload p rec) false
  | 7 => hexSeq (recPayload p rec) true
  | _ => []

/-- The bytes of the command being rendered that ENC has not yet emitted: a function of its registers alone
(rule R138). -/
def pendingBytes (s : State) : List Byte :=
  match s.enc.mode with
  | .ready => []
  | .verb =>
    (([0, 1, 2, 3].drop s.enc.pos.toNat).map (payloadByte s.enc.pl)).filter fun b => b != 0#8
  | .dec => decBytesFrom s.dec.idx.toNat s.dec.rem s.dec.started ++ [spaceChar]
  | .decsp => [spaceChar]
  | .hex => (hexSeq s.enc.pl false).drop s.enc.pos.toNat
  | .hexs => (hexSeq s.enc.pl true).drop s.enc.pos.toNat

/-- How many ticks ENC still works on the command it renders when OUTQ is never full: the reference schedule of rule R143
(92_eei_decisions.md D16). -/
def remainingTicks (s : State) : Nat :=
  match s.enc.mode with
  | .ready => 0
  | .verb => 4 - s.enc.pos.toNat
  | .dec => s.dec.idx.toNat + 2
  | .decsp => 1
  | .hex => 9 - s.enc.pos.toNat
  | .hexs => 12 - s.enc.pos.toNat

/-- The reference decoder of a decimal numeral (rules R124, R141). -/
def parseDec (bytes : List Byte) : Nat := bytes.foldl (fun n b => 10 * n + (b.toNat - 0x30)) 0

/-- The value of a hex digit character (rules R80, R141). -/
def hexValue (b : Byte) : Nat := if b.toNat < 0x61 then b.toNat - 0x30 else b.toNat - 0x61 + 10

/-- The reference decoder of hex text: spaces are passed over (rule R141). -/
def parseHex (bytes : List Byte) : Nat :=
  bytes.foldl (fun n b => if b = spaceChar then n else 16 * n + hexValue b) 0

end Sys2Proof.Machine
end

