-- ==== Sys2Proof/Machine/Tick.lean ====
section
/-!
DEFINITION. One tick of the whole machine (00_scope.md rules R7 to R9). Every block's operation is read off its port and run
by `exec`: ENG's control vector, the command ENC works on, the control vectors of CMDQ and of OUTQ. Each block writes its own
state only and reads the others' as they stand at the start of the tick, so that running them one after another commits them
all at once (20_memory.md rules R64, R66).
-/

namespace Sys2Proof.Machine

/-- The inputs of the tick: the script's, or the reference driver's (rule R174). -/
def tickInput (s : State) : TickInput :=
  if s.env.drvOn then driverInput s (scriptInput s) else scriptInput s

/-- ENG's operation of the tick (rule R100). -/
def engInstr (s : State) : Instr := decodeEng (tickInput s).engCtrl (trunc s.cfg.W (tickInput s).init)

/-- The command ENC works on in the tick, if it is not holding: in READY the record at CMDQ's head, if it may be
dispatched (rule R131), and else the command being rendered, whose payload is `enc_pl` (rule R130). -/
def encInstr (s : State) : Option Instr :=
  match s.enc.mode with
  | .ready => if canDispatch s then s.cmdq.head?.map (decodeCmd s.cfg) else none
  | .verb => some (.verbatim s.enc.pl)
  | .dec | .decsp => some (.decimal s.enc.pl)
  | .hex => some (.hex s.enc.pl)
  | .hexs => some (.hexspaced s.enc.pl)

/-- ENC's tick (rule R130). -/
def encTick (rst : Bool) (s : State) : Host.Outcome State Fault Refusal :=
  if rst then .next (resetEncoder s)
  else
    match encInstr s with
    | none => .next (encHold s)
    | some i => exec i s

/-- CMDQ's operation of the tick: DRV pushes, ENC pops (rules R150, R159). -/
def cmdqInstr (inp : TickInput) (s : State) : Instr :=
  decodeFifo .cmdq (ctrlVec inp.rst inp.push s.encOut.cmdPop) inp.din

/-- Whether XPORT pops OUTQ, from OUTQ's status at the start of the tick (rule R172). -/
def xportPops (move : XportMove) (s : State) : Bool :=
  match move with
  | .busy => false
  | .take => outqNotEmpty s
  | .popBlind => true
  | .popDiscard => true

/-- OUTQ's operation of the tick: ENC pushes, XPORT pops (rules R150, R159). -/
def outqInstr (inp : TickInput) (s : State) : Instr :=
  decodeFifo .outq (ctrlVec inp.rst s.encOut.outPush.isSome (xportPops inp.xport s))
    ((s.encOut.outPush.map BitVec.toNat).getD 0)

/-- Whether XPORT uses the byte it takes (entry 13). -/
def xportUses (move : XportMove) : Bool :=
  match move with
  | .busy => false
  | .take => true
  | .popBlind => true
  | .popDiscard => false

/-- XPORT takes what OUTQ's pop port gave (rules R155, R172): a byte joins those popped; the value of an empty queue is a
fault if XPORT uses it. -/
def xportTick (inp : TickInput) (s : State) : Host.Outcome State Fault Refusal :=
  match s.outTaken with
  | .nothing => .next s
  | .entry v => .next { s with env := { s.env with popped := s.env.popped ++ [BitVec.ofNat 8 v] } }
  | .unspecified _ => if xportUses inp.xport then .fault .popEmpty else .next s

/-- Whether CMDQ accepts a push of DRV in the tick (rule R150). -/
def pushAccepted (inp : TickInput) (s : State) : Bool := !inp.rst && inp.push && cmdqNotFull s

/-- The environment at the end of the tick that started in `s0`: the script moves on, the driver takes its step, inbound
bytes arrive, and the histories since reset are kept; `rst` clears them and resets the driver (rules R175, R223; entries 17,
18). -/
def envTick (inp : TickInput) (s0 s : State) : State :=
  { s with
    env :=
      { s.env with
        script := s.env.script.drop 1
        drv := if inp.rst then Driver.reset else if s.env.drvOn then driverNext s0 else s.env.drv
        inq := (if s.env.drvOn && !inp.rst then driverInq s0 else s0.env.inq) ++ inp.inbound.toList
        popped := if inp.rst then [] else s.env.popped
        pushed :=
          if inp.rst then []
          else if pushAccepted inp s0 then s.env.pushed ++ [dinEntry s.cfg .cmdq inp.din]
          else s.env.pushed } }

/-- One tick: ENG, ENC, CMDQ, OUTQ, XPORT, and the environment's own step. Where ENC and XPORT both raise a fault in one tick
the spec gives no order between them (rules R12, R196); the model reports ENC's, because ENC runs first here
(DESIGN CHOICE, entry 24). -/
def tick (s : State) : Host.Outcome State Fault Refusal :=
  andThen (exec (engInstr s) s) fun s1 =>
  andThen (encTick (tickInput s).rst s1) fun s2 =>
  andThen (exec (cmdqInstr (tickInput s) s2) s2) fun s3 =>
  andThen (exec (outqInstr (tickInput s) s3) s3) fun s4 =>
  andThen (xportTick (tickInput s) s4) fun s5 =>
  .next (envTick (tickInput s) s s5)

/-! ## Outputs (rules R25, R31, R33) -/

/-- The outputs the CORE shows in a tick. -/
structure Outputs where
  done : Bool
  value : Nat
  steps : Nat
  overflow : Bool
  exhausted : Bool
  phase : BitVec 2
  traceRdata : Nat
  encReady : Bool
  cmdqNotEmpty : Bool
  cmdqNotFull : Bool
  cmdqHead : Option Nat
  outqNotEmpty : Bool
  outqNotFull : Bool
  outqHead : Option Byte
deriving DecidableEq, Repr

/-- The outputs at the start of the tick, from the registers and `trace_raddr_i`, which carries C bits. -/
def outputs (s : State) : Outputs :=
  { done := doneO s
    value := s.eng.value
    steps := s.eng.steps
    overflow := s.eng.overflow
    exhausted := s.eng.exhausted
    phase := s.eng.phase.code
    traceRdata := traceRdataO s (trunc s.cfg.C (tickInput s).raddr)
    encReady := encReadyO s
    cmdqNotEmpty := cmdqNotEmpty s
    cmdqNotFull := cmdqNotFull s
    cmdqHead := s.cmdq.head?
    outqNotEmpty := outqNotEmpty s
    outqNotFull := outqNotFull s
    outqHead := s.outq.head? }

/-! ## Placing an operation where the next tick runs it (entry 1) -/

/-- Replace the script's first entry. -/
def setInput (f : TickInput → TickInput) (s : State) : State :=
  { s with env := { s.env with script := f (scriptInput s) :: s.env.script.drop 1 } }

/-- Keep `rst` out of the next tick. -/
def clearRst (inp : TickInput) : TickInput :=
  { inp with engCtrl := ctrlVec false (inp.engCtrl.getLsbD 1) (inp.engCtrl.getLsbD 0) }

/-- Put a coded operation on its port, with all that the next tick needs to run it: a record at CMDQ's head with ENC READY and
room in OUTQ; ENG's control vector in the script's next entry, the script driving ENG; a FUNC operand with DEC as the caller.
No FIFO vector is placed: its bits are driven by two agents each (rule R159), and no table word is read as one. -/
def placeCode (c : Code) (s : State) : State :=
  match c with
  | .cmd rec =>
    setInput clearRst
      { s with
        cmdq := trunc (s.cfg.P + 5) rec :: s.cmdq.drop 1
        outq := s.outq.take (s.cfg.outDepth - 1)
        enc := { s.enc with mode := .ready } }
  | .engCtrl vec init =>
    setInput (fun inp => { inp with engCtrl := vec, init := init })
      { s with env := { s.env with drvOn := false } }
  | .fifoCtrl _ _ _ => s
  | .mag i =>
    setInput clearRst { s with enc := { s.enc with mode := .dec }, dec := { s.dec with idx := i } }
  | .ext i v =>
    setInput clearRst { s with enc := { s.enc with mode := .dec }, dec := { s.dec with idx := i, rem := v } }

/-- Store a table word where the next tick runs it; a word that no port can carry changes nothing. -/
def placeWord (nbits w : Nat) (s : State) : State :=
  match tableCode nbits w with
  | none => s
  | some c => placeCode c s

end Sys2Proof.Machine
end

