-- ==== Sys2Proof/Machine/Step.lean ====
section
/-! DEFINITION. The step: one tick of a build whose parameters rule R5 admits. -/

namespace Sys2Proof.Machine

/-- One step is one tick (rule R7). Parameters outside rule R5's constraints are refused (92_eei_decisions.md D4). -/
def step (s : State) : Host.Outcome State Fault Refusal :=
  if s.cfg.Valid then tick s else .refused .invalidParameters

/-- `s` with a table word placed where the next step runs it (entry 1). -/
def State.withFetchWord (s : State) (nbits w : Nat) : State := placeWord nbits w s

end Sys2Proof.Machine
end

