-- ==== Sys2Proof/Machine/Ring.lean ====
section
/-!
DEFINITION. The ring-buffer realisation of a FIFO (10_state.md rule R34). Only the items are observable, so State holds
the items; this file says what a ring does and which items it stands for.
-/

namespace Sys2Proof.Machine

/-- The storage and pointers of rule R34. -/
structure RingBuffer (α : Type) where
  mem : List α
  rd : Nat
  wr : Nat
  cnt : Nat
deriving DecidableEq, Repr

/-- `[q.mem[(q.rd + n) mod DEPTH] for n in 0..q.cnt-1]` (rule R34). -/
def ringItems {α : Type} (depth : Nat) (r : RingBuffer α) : List α :=
  (List.range r.cnt).filterMap fun n => r.mem[(r.rd + n) % depth]?

/-- The ring's own invariant: `DEPTH` cells, the pointers inside, `wr` being `cnt` cells after `rd`. -/
def RingBuffer.Wf {α : Type} (depth : Nat) (r : RingBuffer α) : Prop :=
  r.mem.length = depth ∧ r.rd < depth ∧ r.cnt ≤ depth ∧ r.wr = (r.rd + r.cnt) % depth

/-- One tick of a ring (rules R34, R150). A reset clears the pointers and the count; the cells are unspecified after it,
so they may be anything a claim wants: here they stay. -/
def ringNext {α : Type} (depth : Nat) (rst push pop : Bool) (din : α) (r : RingBuffer α) : RingBuffer α :=
  if rst then { r with rd := 0, wr := 0, cnt := 0 }
  else
    let pushOk := push && decide (r.cnt < depth)
    let popOk := pop && decide (0 < r.cnt)
    { mem := if pushOk then r.mem.set r.wr din else r.mem
      rd := if popOk then (r.rd + 1) % depth else r.rd
      wr := if pushOk then (r.wr + 1) % depth else r.wr
      cnt := r.cnt + pushOk.toNat - popOk.toNat }

end Sys2Proof.Machine
end

