-- ==== Sys2Proof/Safety.lean ====
section
/-!
DEFINITION. What counts as a safe run, in the terms claims use: the machine's invariant, the environment's contract
(45_host_interface.md rules R170 to R172), quiescence (70_reset_and_hazards.md rule R223), the byte-stream invariant
(43_protocol_encoder.md rule R140), and the shortcut trajectory of a run (41_trajectory_engine.md rule R113).
-/

namespace Sys2Proof.Machine

/-! ## The invariant of the machine -/

/-- ENG's part: the registers fit their widths (rules R21, R22), the flags are what a run leaves (rules R101, R111), the
trace is canonical and in range (rules R50, R108), and the current run's words are below `steps` while it goes on
(rule R51). -/
structure EngineInv (p : Config.Params) (e : Engine) : Prop where
  value_fits : e.value < 2 ^ p.W
  steps_fits : e.steps < 2 ^ p.C
  flags_exclusive : e.phase ≠ .idle → ¬(e.overflow = true ∧ e.exhausted = true)
  loaded_clean : e.phase = .loaded → e.steps = 0 ∧ e.overflow = false ∧ e.exhausted = false
  flagged_ended : e.phase ≠ .idle → e.overflow = true ∨ e.exhausted = true → e.phase = .active ∧ e.value = 1
  trace_wf : e.trace.wf = true
  run_wf : e.runTrace.wf = true
  trace_fits : ∀ i w, e.trace.read i = some w → i < 2 ^ p.C ∧ 1 < w ∧ w < 2 ^ p.W
  run_stored : ∀ i w, e.runTrace.read i = some w → e.trace.read i = some w
  run_below : 1 < e.value → ∀ i w, e.runTrace.read i = some w → i < e.steps

/-- ENC's and DEC's part: the payloads fit P bits (rules R29, R30), and the position of each mode is in its range
(rules R28, R121). -/
structure EncoderInv (p : Config.Params) (e : Encoder) (d : Renderer) : Prop where
  pl_fits : e.pl < 2 ^ p.P
  rem_fits : d.rem < 2 ^ p.P
  verb_pos : e.mode = .verb → e.pos.toNat ≤ 3
  hex_pos : e.mode = .hex → e.pos.toNat ≤ 8
  hexs_pos : e.mode = .hexs → e.pos.toNat ≤ 11
  dec_idx : e.mode = .dec → d.idx.toNat ≤ 9

/-- The reference driver's part: its fields fit the widths of rule R175. -/
structure DriverInv (p : Config.Params) (d : Driver) : Prop where
  trial_fits : d.trial < 2 ^ p.W
  bestLength_fits : d.bestLength < 2 ^ p.C
  bestTrial_fits : d.bestTrial < 2 ^ p.W
  recordCount_fits : d.recordCount < 2 ^ p.P
  pending_short : d.pending.length ≤ 4
  pending_fits : ∀ r ∈ d.pending, r < 2 ^ (p.P + 5)

/-- The invariant: what every state right after reset has and every step keeps. -/
structure Inv (s : State) : Prop where
  params : s.cfg.Valid
  eng : EngineInv s.cfg s.eng
  enc : EncoderInv s.cfg s.enc s.dec
  cmdq_depth : s.cmdq.length ≤ s.cfg.cmdDepth
  cmdq_fits : ∀ r ∈ s.cmdq, r < 2 ^ (s.cfg.P + 5)
  outq_depth : s.outq.length ≤ s.cfg.outDepth
  drv : DriverInv s.cfg s.env.drv

/-! ## The environment's contract -/

/-- A record that DRV may push: tag 4 to 7 and `rsv` 0 (rule R171, duty 2). -/
def properRecord (p : Config.Params) (rec : Nat) : Bool :=
  decide (rec < 2 ^ (p.P + 5)) && decide (4 ≤ recTag p rec) && decide (recRsv p rec = 0)

/-- DRV's duties 1 and 2 toward CMDQ in the tick (rule R171). -/
def cmdqDuty (s : State) : Bool :=
  !(tickInput s).push || (cmdqNotFull s && properRecord s.cfg (tickInput s).din)

/-- XPORT's duty in the tick: it pops only when OUTQ shows `not_empty` (rule R172). -/
def xportDuty (s : State) : Bool := !xportPops (tickInput s).xport s || outqNotEmpty s

/-- A run is in progress: a trial is loaded and not complete (rule R14). -/
def runInProgress (s : State) : Bool := decide (s.eng.phase ≠ .idle) && !doneO s

/-- DRV's duties 1, 2 and 4 toward ENG, as far as one tick without `rst` shows them: it loads no 0, loads nothing while a
run is in progress, and advances a run in progress (rule R170). -/
def engDuty (s : State) : Bool :=
  (tickInput s).rst
    || (if (tickInput s).engCtrl.getLsbD 1 then
          decide (1 ≤ trunc s.cfg.W (tickInput s).init) && !runInProgress s
        else (tickInput s).engCtrl.getLsbD 0 || !runInProgress s)

/-- The contract in the tick (rules R170 to R172). -/
def Contract (s : State) : Prop := cmdqDuty s = true ∧ xportDuty s = true ∧ engDuty s = true

/-- The invariant of runs under the contract: no reserved record waits in CMDQ, and none in the reference driver. -/
structure SafeInv (s : State) : Prop where
  inv : Inv s
  cmdq_proper : ∀ r ∈ s.cmdq, properRecord s.cfg r = true
  pending_proper : ∀ r ∈ s.env.drv.pending, properRecord s.cfg r = true

/-! ## Quiescence and the byte stream -/

/-- The CORE is quiescent (rule R223). -/
def quiescent (s : State) : Bool :=
  decide (s.enc.mode = .ready) && s.cmdq.isEmpty && s.outq.isEmpty && (decide (s.eng.phase ≠ .active) || doneO s)

/-- Everything XPORT has popped, then what is in OUTQ, then what ENC has still to emit of the command it renders, then the
bytes of the records in CMDQ, is the bytes of every record accepted since reset, in order (rules R140, R156, R223). -/
def ByteStream (s : State) : Prop :=
  s.env.popped ++ s.outq ++ pendingBytes s ++ s.cmdq.flatMap (outBytes s.cfg) =
    s.env.pushed.flatMap (outBytes s.cfg)

/-- The current step of ENC must emit a byte (rules R121, R132, R134 to R136). -/
def mustEmit (s : State) : Bool :=
  match s.enc.mode with
  | .ready => false
  | .verb => payloadByte s.enc.pl s.enc.pos.toNat != 0#8
  | .dec =>
    (extractDigit s.dec.idx.toNat s.dec.rem).1 != 0 || s.dec.started || s.dec.idx == 0#4
  | .decsp => true
  | .hex => true
  | .hexs => true

/-! ## Runs of a FIFO -/

/-- A run of push and pop requests on a queue: the entries accepted, the entries popped and the items left, each oldest
first (rules R150, R156). -/
def fifoRun {α : Type} (depth : Nat) : List (Bool × Bool × α) → List α → List α × List α × List α
  | [], items => ([], [], items)
  | (push, pop, din) :: rest, items =>
    let r := fifoRun depth rest (fifoNext depth false push pop din items)
    ((if push && decide (items.length < depth) then [din] else []) ++ r.1,
      (if pop then items.take 1 else []) ++ r.2.1, r.2.2)

/-! ## Runs of ENG -/

/-- `n` ADVANCE operations. -/
def advances : Nat → State → Host.Outcome State Fault Refusal
  | 0, s => .next s
  | n + 1, s => andThen (exec .engAdvance s) (advances n)

/-- One step of the shortcut trajectory with its count of standard steps (rule R113). -/
def shortcutStep (xs : Nat × Nat) : Nat × Nat :=
  if xs.1 % 2 = 1 then ((3 * xs.1 + 1) / 2, xs.2 + 2) else (xs.1 / 2, xs.2 + 1)

/-- `(x_n, s_n)` of rule R113. -/
def shortcut (init : Nat) : Nat → Nat × Nat
  | 0 => (init, 0)
  | n + 1 => shortcutStep (shortcut init n)

/-- A run at `(x, s)` goes on: none of the three stopping conditions of rule R113 holds. -/
def goesOn (p : Config.Params) (xs : Nat × Nat) : Bool :=
  decide (xs.1 ≠ 1) && decide (xs.2 < 2 ^ p.C - 2) && !(decide (xs.1 % 2 = 1) && decide (2 ^ (p.W - 2) ≤ xs.1))

/-- ENG right after LOAD of `init` (rule R101). -/
def justLoaded (init : Nat) (e : Engine) : Bool :=
  decide (e.value = init) && decide (e.steps = 0) && !e.overflow && !e.exhausted && decide (e.phase = .loaded)

end Sys2Proof.Machine
end

