-- ==== Sys2Proof/Certificates/Slice0/Obligations.lean ====
section
/-!
DEFINITION. The statements for the provers, by family: encodings, ENG, MAG and EXT, ENC and DEC, the FIFOs, the whole machine,
the reference driver. Each says which rules of spec/ it formalises; OBLIGATIONS.json lists them.
-/

open Sys2Proof Sys2Proof.Machine

/-! ## Encodings -/

/-- Decoding the coded form of a well-formed operation gives the operation back, in every build (rules R70, R76 to R78,
R82, R83). -/
def Obligations.DecodeEncodeRoundTrip : Prop :=
  ∀ (p : Config.Params) (i : Instr), WellFormed p i = true → decode p (encode p i) = .ok i

/-- Words written out from the spec's encodings, one or more a family, decode to the operations they stand for (rules R71,
R76, R77; 95_test_vectors.md section 2.5). -/
def Obligations.SpecWordsDecode : Prop :=
  decode Config.reference (.cmd 0x4000070A0D) = .ok (.verbatim 0x00070A0D) ∧
  decode Config.reference (.cmd 0x500000001B) = .ok (.decimal 27) ∧
  decode Config.reference (.cmd 0x60DEADBEEF) = .ok (.hex 0xDEADBEEF) ∧
  decode Config.reference (.cmd 0x700000ABCD) = .ok (.hexspaced 0x0000ABCD) ∧
  decode Config.reference (.cmd 0x3000000041) = .ok (.cmdReservedTag 3#2 0x41) ∧
  decode Config.reference (.engCtrl 0b010#3 27) = .ok (.engLoad 27) ∧
  decode Config.reference (.fifoCtrl .outq 0b011#3 0x34) = .ok (.fifoPushpop .outq 0x34) ∧
  decode Config.reference (.ext 2#4 987) = .ok (.extract 2#4 987)

/-- Every record of `P + 5` bits decodes, by its tag alone, to the command of rule R71's table with the record's payload
(rules R70, R71); tags 0 to 3 to the opcode table's row CMD_RESERVED_TAG (the spec's decision D17). -/
def Obligations.RecordTagSelectsCommand : Prop :=
  ∀ (p : Config.Params) (tag rsv pl : Nat), tag < 8 → rsv < 4 → pl < 2 ^ p.P →
    packRecord p tag rsv pl < 2 ^ (p.P + 5) ∧
    decode p (.cmd (packRecord p tag rsv pl)) =
      .ok (if tag = 4 then .verbatim pl
        else if tag = 5 then .decimal pl
        else if tag = 6 then .hex pl
        else if tag = 7 then .hexspaced pl
        else .cmdReservedTag (BitVec.ofNat 2 tag) pl)

/-- Records that differ only in `rsv` decode to one operation and render the same bytes, and the encoder writes 0 there
(rule R73). -/
def Obligations.ReservedBitsIgnored : Prop :=
  (∀ (p : Config.Params) (tag rsv rsv' pl : Nat), tag < 8 → rsv < 4 → rsv' < 4 → pl < 2 ^ p.P →
    recRsv p (packRecord p tag rsv pl) = rsv ∧
    decodeCmd p (packRecord p tag rsv pl) = decodeCmd p (packRecord p tag rsv' pl) ∧
    outBytes p (packRecord p tag rsv pl) = outBytes p (packRecord p tag rsv' pl)) ∧
  (∀ (p : Config.Params) (i : Instr) (rec : Nat), WellFormed p i = true → encode p i = .cmd rec → recRsv p rec = 0)

/-- The tables of rules R76 and R77, every don't-care bit at both values: for ENG reset, then load, then advance; for a FIFO
reset, then push and pop. -/
def Obligations.ControlVectorsDecode : Prop :=
  (∀ (rst load adv : Bool) (init : Nat),
    decodeEng (ctrlVec rst load adv) init =
      if rst then .engReset else if load then .engLoad init else if adv then .engAdvance else .engHold) ∧
  (∀ (q : QueueId) (rst push pop : Bool) (din : Nat),
    decodeFifo q (ctrlVec rst push pop) din =
      if rst then .fifoReset q
      else if push then (if pop then .fifoPushpop q din else .fifoPush q din)
      else if pop then .fifoPop q else .fifoIdle q)

/-! ## ENG -/

/-- LOAD completes in every state, so in every phase: `value := init`, `steps := 0`, both flags clear, LOADED, not done even at
value 1; the trace and every other block stay (rule R101). The draw counter is the model's own (entry 7). -/
def Obligations.LoadStartsRun : Prop :=
  ∀ (s : State) (init : Nat), init < 2 ^ s.cfg.W →
    ∃ t, exec (.engLoad init) s = .next t ∧ t = { s with eng := t.eng, draws := t.draws } ∧
      t.eng.value = init ∧ t.eng.steps = 0 ∧ t.eng.overflow = false ∧ t.eng.exhausted = false ∧
      t.eng.phase = .loaded ∧ doneO t = false ∧ ∀ a, traceRead t a = traceRead s a

/-- An ADVANCE before any LOAD is ignored, and one at value 0 or 1 only makes the run ACTIVE (rule R102). The draw counter is
the model's own (entry 7). -/
def Obligations.IneffectiveAdvance : Prop :=
  ∀ s : State,
    (s.eng.phase = .idle → ∃ d, exec .engAdvance s = .next { s with draws := d }) ∧
    (s.eng.phase ≠ .idle → s.eng.value ≤ 1 →
      ∃ d, exec .engAdvance s = .next { s with eng := { s.eng with phase := .active }, draws := d })

/-- An effective ADVANCE at an even value within the budget halves it, counts 1 and traces the value before it
(rule R106; the traced word is rule R107's, the spec's decision D11, entry 16). -/
def Obligations.EvenStepHalves : Prop :=
  ∀ s : State, s.eng.phase ≠ .idle → 1 < s.eng.value → s.eng.steps < 2 ^ s.cfg.C - 2 → s.eng.value % 2 = 0 →
    ∃ t, exec .engAdvance s = .next t ∧ t = { s with eng := t.eng, draws := t.draws } ∧
      t.eng.value = s.eng.value / 2 ∧ t.eng.steps = s.eng.steps + 1 ∧
      t.eng.overflow = s.eng.overflow ∧ t.eng.exhausted = s.eng.exhausted ∧ t.eng.phase = .active ∧
      ∀ a, traceRead t a = if a = s.eng.steps then s.eng.value else traceRead s a

/-- An effective ADVANCE at an odd value below `2^(W-2)`, within the budget, gives exactly `(3v + 1) / 2`, which fits
`W - 1` bits, counts 2 and traces the value before it (rules R105, R114; the traced word is rule R107's, the spec's decision
D11, entry 16). -/
def Obligations.OddStepWithinHeadroom : Prop :=
  ∀ s : State, 2 ≤ s.cfg.W → s.eng.phase ≠ .idle → 1 < s.eng.value → s.eng.steps < 2 ^ s.cfg.C - 2 →
    s.eng.value % 2 = 1 → s.eng.value < 2 ^ (s.cfg.W - 2) →
    ∃ t, exec .engAdvance s = .next t ∧ t = { s with eng := t.eng, draws := t.draws } ∧
      2 * t.eng.value = 3 * s.eng.value + 1 ∧ t.eng.value < 2 ^ (s.cfg.W - 1) ∧ t.eng.steps = s.eng.steps + 2 ∧
      t.eng.overflow = s.eng.overflow ∧ t.eng.exhausted = s.eng.exhausted ∧ t.eng.phase = .active ∧
      ∀ a, traceRead t a = if a = s.eng.steps then s.eng.value else traceRead s a

/-- An effective ADVANCE at an odd value with one of its two top bits set, within the budget, sets `overflow`, forces value 1,
leaves `steps` and traces the failing value (rule R190). -/
def Obligations.OddStepOverflows : Prop :=
  ∀ s : State, 2 ≤ s.cfg.W → s.eng.phase ≠ .idle → 1 < s.eng.value → s.eng.steps < 2 ^ s.cfg.C - 2 →
    s.eng.value % 2 = 1 → 2 ^ (s.cfg.W - 2) ≤ s.eng.value → s.eng.value < 2 ^ s.cfg.W →
    ∃ t, exec .engAdvance s = .next t ∧ t = { s with eng := t.eng, draws := t.draws } ∧
      t.eng.value = 1 ∧ t.eng.steps = s.eng.steps ∧ t.eng.overflow = true ∧
      t.eng.exhausted = s.eng.exhausted ∧ t.eng.phase = .active ∧ doneO t = true ∧
      ∀ a, traceRead t a = if a = s.eng.steps then s.eng.value else traceRead s a

/-- An effective ADVANCE with the budget reached sets `exhausted` alone, whatever the value's parity and headroom, forces
value 1, leaves `steps`, which is then `2^C - 2` or `2^C - 1`, and traces the value (rule R191; the order of the checks is
rule R103's). -/
def Obligations.BudgetExhaustsFirst : Prop :=
  ∀ s : State, s.eng.phase ≠ .idle → 1 < s.eng.value → 2 ^ s.cfg.C - 2 ≤ s.eng.steps →
    ∃ t, exec .engAdvance s = .next t ∧ t = { s with eng := t.eng, draws := t.draws } ∧
      t.eng.value = 1 ∧ t.eng.steps = s.eng.steps ∧ t.eng.exhausted = true ∧
      t.eng.overflow = s.eng.overflow ∧ t.eng.phase = .active ∧ doneO t = true ∧
      (s.eng.steps < 2 ^ s.cfg.C → t.eng.steps = 2 ^ s.cfg.C - 2 ∨ t.eng.steps = 2 ^ s.cfg.C - 1) ∧
      ∀ a, traceRead t a = if a = s.eng.steps then s.eng.value else traceRead s a

/-- HOLD changes nothing but the model's own draw counter (entry 7), and FIFO_IDLE changes no queue: nothing but the record
that the port popped nothing (rules R109, R150). -/
def Obligations.HoldAndIdleKeepState : Prop :=
  ∀ s : State, (∃ d, exec .engHold s = .next { s with draws := d }) ∧
    exec (.fifoIdle .cmdq) s = .next { s with cmdTaken := .nothing } ∧
    exec (.fifoIdle .outq) s = .next { s with outTaken := .nothing }

/-- ENG_RESET completes in every state and leaves IDLE; the datapath registers take values of their widths about which
nothing more is said, the trace is not written, and the other blocks stay (rule R210). -/
def Obligations.EngineResetReturnsToIdle : Prop :=
  ∀ s : State, ∃ t, exec .engReset s = .next t ∧ t = { s with eng := t.eng, draws := t.draws } ∧
    t.eng.phase = .idle ∧ doneO t = false ∧ t.eng.value < 2 ^ s.cfg.W ∧ t.eng.steps < 2 ^ s.cfg.C ∧
    ∀ a, traceRead t a = traceRead s a

/-- `steps` never wraps: a step is taken only at `2^C - 3` or below, an odd one leaves at most `2^C - 1` and an even one at
most `2^C - 2` (rule R108). -/
def Obligations.StepCounterNeverWraps : Prop :=
  ∀ s t : State, s.eng.steps < 2 ^ s.cfg.C → exec .engAdvance s = .next t →
    t.eng.steps < 2 ^ s.cfg.C ∧
    (t.eng.steps = s.eng.steps ∨
      s.eng.steps + 3 ≤ 2 ^ s.cfg.C ∧ s.eng.value % 2 = 1 ∧ t.eng.steps = s.eng.steps + 2 ∨
      s.eng.steps + 3 ≤ 2 ^ s.cfg.C ∧ s.eng.value % 2 = 0 ∧ t.eng.steps = s.eng.steps + 1)

/-- Every run from an initial value of at least 1 is done after at most `2^C - 1` ADVANCE operations (rule R113). -/
def Obligations.RunEndsWithinBudget : Prop :=
  ∀ (s : State) (init : Nat), s.cfg.Valid → 1 ≤ init → init < 2 ^ s.cfg.W → justLoaded init s.eng = true →
    ∃ n t, 1 ≤ n ∧ n ≤ 2 ^ s.cfg.C - 1 ∧ advances n s = .next t ∧ doneO t = true

/-- While no stopping condition of rule R113 has held, a run is at `(x_n, s_n)` of the shortcut trajectory with both flags
clear, and the trace holds every value visited, at its step count. -/
def Obligations.RunFollowsShortcutTrajectory : Prop :=
  ∀ (s : State) (init n : Nat), s.cfg.Valid → 1 ≤ init → init < 2 ^ s.cfg.W → justLoaded init s.eng = true →
    (∀ m, m < n → goesOn s.cfg (shortcut init m) = true) →
    ∃ t, advances n s = .next t ∧ t = { s with eng := t.eng, draws := t.draws } ∧
      t.eng.value = (shortcut init n).1 ∧ t.eng.steps = (shortcut init n).2 ∧
      t.eng.overflow = false ∧ t.eng.exhausted = false ∧
      ∀ m, m < n → traceRead t (shortcut init m).2 = (shortcut init m).1

/-- The run is done at the first stop, with the outcome of the first stopping condition that holds: value 1 normally,
else the budget by exhaustion, else the headroom by overflow; `steps` is the count at the stop (rules R113, R192). -/
def Obligations.RunOutcome : Prop :=
  ∀ (s : State) (init n : Nat), s.cfg.Valid → 1 ≤ init → init < 2 ^ s.cfg.W → justLoaded init s.eng = true →
    (∀ m, m < n → goesOn s.cfg (shortcut init m) = true) → goesOn s.cfg (shortcut init n) = false →
    ∃ t, advances (n + 1) s = .next t ∧ doneO t = true ∧ t.eng.steps = (shortcut init n).2 ∧
      (if (shortcut init n).1 = 1 then t.eng.overflow = false ∧ t.eng.exhausted = false
      else traceRead t (shortcut init n).2 = (shortcut init n).1 ∧
        if 2 ^ s.cfg.C - 2 ≤ (shortcut init n).2 then t.eng.overflow = false ∧ t.eng.exhausted = true
        else t.eng.overflow = true ∧ t.eng.exhausted = false)

/-- A run at value 0 never completes: no number of ADVANCE operations changes its value, its count or its flags, and it
is never done (rule R112). -/
def Obligations.RunFromZeroHangs : Prop :=
  ∀ (s : State) (n : Nat), s.eng.phase ≠ .idle → s.eng.value = 0 →
    ∃ t, advances n s = .next t ∧ t.eng.value = 0 ∧ t.eng.steps = s.eng.steps ∧
      t.eng.overflow = s.eng.overflow ∧ t.eng.exhausted = s.eng.exhausted ∧ doneO t = false

/-- Once done, ENG keeps every register and stays done through every tick that neither resets nor loads, whatever the
other inputs (rule R110). -/
def Obligations.CompletionPersists : Prop :=
  ∀ s t : State, step s = .next t → doneO s = true → (tickInput s).rst = false →
    (tickInput s).engCtrl.getLsbD 1 = false → t.eng = s.eng ∧ doneO t = true

/-- A word traced in a tick shows on the read port from the next tick, and the words the run traced before still do
(rules R51, R52, R107). -/
def Obligations.TracePortShowsRunWords : Prop :=
  ∀ s t : State, Inv s → step s = .next t → engInstr s = .engAdvance → s.eng.phase ≠ .idle → 1 < s.eng.value →
    traceRdataO t s.eng.steps = s.eng.value ∧
    ∀ a w, s.eng.runTrace.read a = some w → traceRdataO s a = w ∧ traceRdataO t a = w

/-- Right after LOAD and ENG_RESET the current run has written no index, and the port shows at every such index a free value of
its own for each value of the draw counter; no operation turns the counter back, and each of ENG's operations, and so every
step, advances it: no two ticks show one free value (rule R51, treatment I5). The counter and the free values are the model's
form of "unspecified", a DESIGN CHOICE (entry 7). -/
def Obligations.StaleTraceWordsDrawnAfresh : Prop :=
  (∀ (s t : State) (init a : Nat), exec (.engLoad init) s = .next t ∨ exec .engReset s = .next t →
    t.eng.runTrace.read a = none) ∧
  (∀ (s : State) (a : Nat), s.eng.runTrace.read a = none →
    traceRdataO s a = Config.freeTraceRead s.draws a % 2 ^ s.cfg.W) ∧
  (∀ (i : Instr) (s t : State), exec i s = .next t → s.draws ≤ t.draws) ∧
  (∀ (s t : State) (init : Nat), exec .engReset s = .next t ∨ exec (.engLoad init) s = .next t ∨
    exec .engAdvance s = .next t ∨ exec .engHold s = .next t → s.draws < t.draws) ∧
  (∀ s t : State, step s = .next t → s.draws < t.draws)

/-! ## MAG and EXT -/

/-- MULTIPLES in its domain shows the row `k * 10^i`, k = 1 to 9, each entry below `2^34`, and changes nothing else
(rule R90). -/
def Obligations.MultiplesRowExact : Prop :=
  ∀ (s : State) (i : Nibble), i.toNat ≤ 9 →
    ∃ t, exec (.multiples i) s = .next t ∧ t = { s with func := { s.func with row := t.func.row } } ∧
      t.func.row = [1 * 10 ^ i.toNat, 2 * 10 ^ i.toNat, 3 * 10 ^ i.toNat, 4 * 10 ^ i.toNat, 5 * 10 ^ i.toNat,
        6 * 10 ^ i.toNat, 7 * 10 ^ i.toNat, 8 * 10 ^ i.toNat, 9 * 10 ^ i.toNat] ∧
      ∀ m ∈ t.func.row, m < 2 ^ 34

/-- EXTRACT in its domain gives the first `k`, from 9 down, with `k * 10^i <= v`, ties included, and the remainder
`v - k * 10^i`; where none matches, digit 0 and `v`; so a digit of 4 bits and a remainder of P bits for a value of P bits
(rule R92). -/
def Obligations.ExtractScansDescending : Prop :=
  ∀ (s : State) (i : Nibble) (v : Nat), i.toNat ≤ 9 →
    ∃ t, exec (.extract i v) s = .next t ∧ t = { s with func := t.func } ∧
      t.func.digit ≤ 9 ∧ t.func.remainder ≤ v ∧
      (∀ k, 1 ≤ k → k ≤ 9 → k * 10 ^ i.toNat ≤ v → (∀ j, k < j → j ≤ 9 → v < j * 10 ^ i.toNat) →
        t.func.digit = k ∧ t.func.remainder = v - k * 10 ^ i.toNat) ∧
      ((∀ k, 1 ≤ k → k ≤ 9 → v < k * 10 ^ i.toNat) → t.func.digit = 0 ∧ t.func.remainder = v)

/-- EXTRACT in closed form: `min(9, v / 10^i)` and what is left; below `10^(i+1)` the quotient and remainder; and the
source's law (rules R93, R94). -/
def Obligations.ExtractClosedForm : Prop :=
  ∀ (s : State) (i : Nibble) (v : Nat), i.toNat ≤ 9 →
    ∃ t, exec (.extract i v) s = .next t ∧
      t.func.digit = min 9 (v / 10 ^ i.toNat) ∧ t.func.remainder = v - t.func.digit * 10 ^ i.toNat ∧
      (v < 10 ^ (i.toNat + 1) → t.func.digit = v / 10 ^ i.toNat ∧ t.func.remainder = v % 10 ^ i.toNat) ∧
      t.func.digit * 10 ^ i.toNat ≤ v ∧ (t.func.digit < 9 → v < (t.func.digit + 1) * 10 ^ i.toNat)

/-- At an index of 10 to 15 MULTIPLES and EXTRACT give no value: the model faults (rule R95). -/
def Obligations.IndexOutsideDomainFaults : Prop :=
  ∀ (s : State) (i : Nibble) (v : Nat), 9 < i.toNat →
    exec (.multiples i) s = .fault .magnitudeIndex ∧ exec (.extract i v) s = .fault .magnitudeIndex

/-! ## ENC and DEC -/

/-- READY_STEP of each command: with a record waiting and room in OUTQ it pops CMDQ, latches the payload at position 0,
enters the command's mode, and starts DEC for DECIMAL; otherwise it holds (rules R120, R131). -/
def Obligations.CommandsDispatch : Prop :=
  ∀ (s : State) (pl : Nat), s.enc.mode = .ready → pl < 2 ^ s.cfg.P →
    (s.cmdq ≠ [] → s.outq.length < s.cfg.outDepth →
      exec (.verbatim pl) s = .next { s with
        enc := { mode := .verb, pos := 0#4, pl := pl }, encOut := { cmdPop := true, outPush := none } } ∧
      exec (.decimal pl) s = .next { s with
        enc := { mode := .dec, pos := 0#4, pl := pl }, dec := { idx := 9#4, rem := pl, started := false }
        encOut := { cmdPop := true, outPush := none } } ∧
      exec (.hex pl) s = .next { s with
        enc := { mode := .hex, pos := 0#4, pl := pl }, encOut := { cmdPop := true, outPush := none } } ∧
      exec (.hexspaced pl) s = .next { s with
        enc := { mode := .hexs, pos := 0#4, pl := pl }, encOut := { cmdPop := true, outPush := none } }) ∧
    (s.cmdq = [] ∨ s.cfg.outDepth ≤ s.outq.length →
      exec (.verbatim pl) s = .next { s with encOut := { cmdPop := false, outPush := none } } ∧
      exec (.decimal pl) s = .next { s with encOut := { cmdPop := false, outPush := none } } ∧
      exec (.hex pl) s = .next { s with encOut := { cmdPop := false, outPush := none } } ∧
      exec (.hexspaced pl) s = .next { s with encOut := { cmdPop := false, outPush := none } })

/-- VERB_STEP at position `j`: a zero byte is skipped without needing room, a non-zero byte is emitted if OUTQ has room and
stalls if not; after `j = 3` ENC is READY (rules R56, R132). -/
def Obligations.VerbatimPosition : Prop :=
  ∀ (s : State) (pl : Nat), s.enc.mode = .verb → s.enc.pos.toNat ≤ 3 →
    ∃ t, exec (.verbatim pl) s = .next t ∧ t = { s with enc := t.enc, encOut := t.encOut } ∧
      t.enc.pl = s.enc.pl ∧ t.encOut.cmdPop = false ∧
      (s.enc.pl / 256 ^ s.enc.pos.toNat % 256 ≠ 0 ∧ s.cfg.outDepth ≤ s.outq.length →
        t.enc = s.enc ∧ t.encOut.outPush = none) ∧
      (s.enc.pl / 256 ^ s.enc.pos.toNat % 256 = 0 ∨ s.outq.length < s.cfg.outDepth →
        (t.encOut.outPush = if s.enc.pl / 256 ^ s.enc.pos.toNat % 256 = 0 then none
          else some (BitVec.ofNat 8 (s.enc.pl / 256 ^ s.enc.pos.toNat % 256))) ∧
        (s.enc.pos.toNat = 3 → t.enc.mode = .ready) ∧
        (s.enc.pos.toNat < 3 → t.enc.mode = .verb ∧ t.enc.pos.toNat = s.enc.pos.toNat + 1))

/-- DEC_STEP at position `i` with EXT's digit `d` and remainder `r`: a leading zero above the units is passed without needing
room; else the character `'0' + d` is emitted if OUTQ has room, and the units lead to the trailing space; else DEC stalls
(rules R121, R122). -/
def Obligations.DecimalPosition : Prop :=
  ∀ (s : State) (pl d r : Nat), s.enc.mode = .dec → s.dec.idx.toNat ≤ 9 →
    d = min 9 (s.dec.rem / 10 ^ s.dec.idx.toNat) → r = s.dec.rem - d * 10 ^ s.dec.idx.toNat →
    ∃ t, exec (.decimal pl) s = .next t ∧
      t = { s with enc := t.enc, dec := t.dec, encOut := t.encOut, func := t.func } ∧
      t.encOut.cmdPop = false ∧ t.enc.pos = s.enc.pos ∧ t.enc.pl = s.enc.pl ∧
      (if d = 0 ∧ s.dec.started = false ∧ s.dec.idx.toNat ≠ 0 then
        t.encOut.outPush = none ∧ t.enc.mode = .dec ∧ t.dec.rem = s.dec.rem ∧ t.dec.started = false ∧
          t.dec.idx.toNat = s.dec.idx.toNat - 1
      else if s.outq.length < s.cfg.outDepth then
        t.encOut.outPush = some (BitVec.ofNat 8 (0x30 + d)) ∧ t.dec.rem = r ∧ t.dec.started = true ∧
          (if s.dec.idx.toNat = 0 then t.enc.mode = .decsp
          else t.enc.mode = .dec ∧ t.dec.idx.toNat = s.dec.idx.toNat - 1)
      else t.encOut.outPush = none ∧ t.enc = s.enc ∧ t.dec = s.dec)

/-- DECSP_STEP: one space and READY if OUTQ has room, else a stall (rule R134). -/
def Obligations.DecimalTrailingSpace : Prop :=
  ∀ (s : State) (pl : Nat), s.enc.mode = .decsp →
    exec (.decimal pl) s = .next
      (if s.outq.length < s.cfg.outDepth then
        { s with enc := { s.enc with mode := .ready }, encOut := { cmdPop := false, outPush := some 0x20#8 } }
      else { s with encOut := { cmdPop := false, outPush := none } })

/-- HEX_STEP at position `k`: with room in OUTQ, the lowercase character of hex digit `k` of the payload's low 32 bits, most
significant first, and a space at `k = 8`, after which ENC is READY; without room a stall (rules R57, R80, R135, R137). -/
def Obligations.HexPosition : Prop :=
  ∀ (s : State) (pl k n : Nat), s.enc.mode = .hex → s.enc.pos.toNat = k → k ≤ 8 → n = s.enc.pl / 16 ^ (7 - k) % 16 →
    ∃ t, exec (.hex pl) s = .next t ∧ t = { s with enc := t.enc, encOut := t.encOut } ∧
      t.enc.pl = s.enc.pl ∧ t.encOut.cmdPop = false ∧
      (if s.outq.length < s.cfg.outDepth then
        t.encOut.outPush =
            some (if k = 8 then 0x20#8 else if n < 10 then BitVec.ofNat 8 (0x30 + n) else BitVec.ofNat 8 (0x61 + (n - 10))) ∧
          (if k = 8 then t.enc.mode = .ready else t.enc.mode = .hex ∧ t.enc.pos.toNat = k + 1)
      else t.encOut.outPush = none ∧ t.enc = s.enc)

/-- HEXS_STEP at position `k`: as HEX, with a space after each two digits, 12 bytes in all (rules R57, R80, R136, R137). -/
def Obligations.HexspacedPosition : Prop :=
  ∀ (s : State) (pl k n : Nat), s.enc.mode = .hexs → s.enc.pos.toNat = k → k ≤ 11 →
    n = s.enc.pl / 16 ^ (7 - (2 * (k / 3) + k % 3)) % 16 →
    ∃ t, exec (.hexspaced pl) s = .next t ∧ t = { s with enc := t.enc, encOut := t.encOut } ∧
      t.enc.pl = s.enc.pl ∧ t.encOut.cmdPop = false ∧
      (if s.outq.length < s.cfg.outDepth then
        t.encOut.outPush =
            some (if k % 3 = 2 then 0x20#8 else if n < 10 then BitVec.ofNat 8 (0x30 + n) else BitVec.ofNat 8 (0x61 + (n - 10))) ∧
          (if k = 11 then t.enc.mode = .ready else t.enc.mode = .hexs ∧ t.enc.pos.toNat = k + 1)
      else t.encOut.outPush = none ∧ t.enc = s.enc)

/-- A record with a reserved tag faults when ENC dispatches it: the operation faults in every state, and so does the step
whose ENC is READY with such a record at CMDQ's head and room in OUTQ (rules R74, R139; entry 11). Where XPORT's pop faults in
the same tick, that the step reports this fault and not XPORT's is the model's choice (entry 24). -/
def Obligations.ReservedTagFaults : Prop :=
  (∀ (s : State) (tag : BitVec 2) (pl : Nat), exec (.cmdReservedTag tag pl) s = .fault .reservedTag) ∧
  (∀ (s : State) (rec : Nat) (rest : List Nat), s.cfg.Valid → (tickInput s).rst = false → s.enc.mode = .ready →
    s.cmdq = rec :: rest → recTag s.cfg rec < 4 → s.outq.length < s.cfg.outDepth →
    step s = .fault .reservedTag)

/-- Where ENC must emit and OUTQ is full, the tick leaves ENC's and DEC's registers as they are and pushes nothing, so the
bytes still to come are the same (rules R122, R138). -/
def Obligations.FullOutputStalls : Prop :=
  ∀ s t : State, step s = .next t → (tickInput s).rst = false → s.cfg.outDepth ≤ s.outq.length → mustEmit s = true →
    t.enc = s.enc ∧ t.dec = s.dec ∧ t.encOut = { cmdPop := false, outPush := none } ∧ pendingBytes t = pendingBytes s

/-- Up to 9,999,999,999 the bytes of DECIMAL are the value's numeral: decimal digits that parse back to it, 1 to 10 of
them, no leading zero but for the single `0` of value 0 (rule R124). -/
def Obligations.DecimalNumeral : Prop :=
  ∀ v : Nat, v ≤ 9999999999 →
    parseDec (decBytes v) = v ∧ 1 ≤ (decBytes v).length ∧ (decBytes v).length ≤ 10 ∧
    (∀ b ∈ decBytes v, 0x30 ≤ b.toNat ∧ b.toNat ≤ 0x39) ∧
    ((decBytes v).head? = some 0x30#8 → v = 0 ∧ decBytes v = [0x30#8])

/-- From 9,999,999,999 on, DECIMAL gives ten nines (rule R125). -/
def Obligations.DecimalSaturates : Prop :=
  ∀ v : Nat, 9999999999 ≤ v → decBytes v = List.replicate 10 0x39#8

/-- The round-trip law: the reference decoders give back a DECIMAL payload in range, the low 32 bits of a HEX or HEXSPACED
payload, and the non-zero bytes of a VERBATIM payload, in order (rule R141). -/
def Obligations.ProtocolRoundTrip : Prop :=
  ∀ (p : Config.Params) (rsv pl : Nat), p.Valid → rsv < 4 → pl < 2 ^ p.P →
    (pl ≤ 9999999999 →
      ∃ bytes, outBytes p (packRecord p 5 rsv pl) = bytes ++ [0x20#8] ∧ parseDec bytes = pl) ∧
    parseHex (outBytes p (packRecord p 6 rsv pl)) = pl % 2 ^ 32 ∧
    parseHex (outBytes p (packRecord p 7 rsv pl)) = pl % 2 ^ 32 ∧
    (outBytes p (packRecord p 4 rsv pl)).map BitVec.toNat =
      [pl % 256, pl / 256 % 256, pl / 65536 % 256, pl / 16777216 % 256].filter fun n => n != 0

/-- The bytes ENC pushes: in VERB any byte but 0; in the other modes digits, `a` to `f` and the space, the letters in the
hex modes only (rule R79). -/
def Obligations.EmittedByteCodes : Prop :=
  ∀ (s t : State) (b : Byte), step s = .next t → t.encOut.outPush = some b →
    b ≠ 0x00#8 ∧
    (s.enc.mode ≠ .verb →
      b = 0x20#8 ∨ (0x30 ≤ b.toNat ∧ b.toNat ≤ 0x39) ∨
        ((s.enc.mode = .hex ∨ s.enc.mode = .hexs) ∧ 0x61 ≤ b.toNat ∧ b.toNat ≤ 0x66))

/-- The reference schedule: with room in OUTQ every tick of a rendering takes one tick off what remains, and a dispatch
leaves 4, 11, 9 or 12 ticks (rule R143, the spec's decision D16). -/
def Obligations.ReferenceSchedule : Prop :=
  ∀ s t : State, Inv s → step s = .next t → (tickInput s).rst = false → s.outq.length < s.cfg.outDepth →
    (s.enc.mode ≠ .ready → remainingTicks t + 1 = remainingTicks s) ∧
    (∀ rec rest, s.enc.mode = .ready → s.cmdq = rec :: rest →
      remainingTicks t = if recTag s.cfg rec = 4 then 4 else if recTag s.cfg rec = 5 then 11
        else if recTag s.cfg rec = 6 then 9 else 12)

/-! ## FIFOs -/

/-- FIFO_PUSH on each instance: appended if the queue was not full, rejected without change if it was (rules R151, R154). -/
def Obligations.FifoPushRule : Prop :=
  ∀ (s : State) (din : Nat),
    (din < 2 ^ (s.cfg.P + 5) →
      exec (.fifoPush .cmdq din) s = .next { s with
        cmdq := if s.cmdq.length < s.cfg.cmdDepth then s.cmdq ++ [din] else s.cmdq, cmdTaken := .nothing }) ∧
    (din < 256 →
      exec (.fifoPush .outq din) s = .next { s with
        outq := if s.outq.length < s.cfg.outDepth then s.outq ++ [BitVec.ofNat 8 din] else s.outq
        outTaken := .nothing })

/-- FIFO_POP on each instance: the head is taken and leaves; on an empty queue nothing changes, and the value taken is some
value about which nothing is said (rules R152, R155). -/
def Obligations.FifoPopRule : Prop :=
  ∀ s : State,
    (∀ rec rest, s.cmdq = rec :: rest →
      exec (.fifoPop .cmdq) s = .next { s with cmdq := rest, cmdTaken := .entry rec }) ∧
    (∀ b rest, s.outq = b :: rest →
      exec (.fifoPop .outq) s = .next { s with outq := rest, outTaken := .entry b.toNat }) ∧
    (s.cmdq = [] → ∃ w d, exec (.fifoPop .cmdq) s = .next { s with cmdTaken := .unspecified w, draws := d }) ∧
    (s.outq = [] → ∃ w d, exec (.fifoPop .outq) s = .next { s with outTaken := .unspecified w, draws := d })

/-- FIFO_PUSHPOP on CMDQ and on OUTQ, judged against the occupancy before it: both succeed between empty and full, only the
push on an empty queue, only the pop on a full one (rule R153). -/
def Obligations.FifoPushpopRule : Prop :=
  ∀ (s : State) (din : Nat), s.cfg.Valid →
    (din < 2 ^ (s.cfg.P + 5) →
      (∀ rec rest, s.cmdq = rec :: rest →
        exec (.fifoPushpop .cmdq din) s = .next { s with
          cmdq := if s.cmdq.length < s.cfg.cmdDepth then rest ++ [din] else rest, cmdTaken := .entry rec }) ∧
      (s.cmdq = [] → ∃ w d, exec (.fifoPushpop .cmdq din) s = .next { s with
          cmdq := [din], cmdTaken := .unspecified w, draws := d })) ∧
    (din < 256 →
      (∀ b rest, s.outq = b :: rest →
        exec (.fifoPushpop .outq din) s = .next { s with
          outq := if s.outq.length < s.cfg.outDepth then rest ++ [BitVec.ofNat 8 din] else rest
          outTaken := .entry b.toNat }) ∧
      (s.outq = [] → ∃ w d, exec (.fifoPushpop .outq din) s = .next { s with
          outq := [BitVec.ofNat 8 din], outTaken := .unspecified w, draws := d }))

/-- FIFO_RESET on each instance discards every entry of that instance and nothing else (rule R158). -/
def Obligations.FifoResetEmpties : Prop :=
  ∀ s : State, exec (.fifoReset .cmdq) s = .next { s with cmdq := [], cmdTaken := .nothing } ∧
    exec (.fifoReset .outq) s = .next { s with outq := [], outTaken := .nothing }

/-- The FIFO law: over any run of push and pop requests, what was there and then every accepted entry is, in order, every
popped entry and then what is left; and the queue never exceeds its depth (rules R54, R65, R156). -/
def Obligations.FifoOrderLaw : Prop :=
  ∀ (α : Type) (depth : Nat) (ops : List (Bool × Bool × α)) (items : List α),
    items ++ (fifoRun depth ops items).1 = (fifoRun depth ops items).2.1 ++ (fifoRun depth ops items).2.2 ∧
    (items.length ≤ depth → (fifoRun depth ops items).2.2.length ≤ depth)

/-- The ring buffer of rule R34 is a FIFO: each of its ticks, resets included, keeps its pointers in order and does to the
items it stands for what rule R150's tick does. -/
def Obligations.RingRefinesFifo : Prop :=
  ∀ (α : Type) (depth : Nat) (r : RingBuffer α) (rst push pop : Bool) (din : α), 1 ≤ depth → RingBuffer.Wf depth r →
    RingBuffer.Wf depth (ringNext depth rst push pop din r) ∧
    ringItems depth (ringNext depth rst push pop din r) = fifoNext depth rst push pop din (ringItems depth r)

/-- No FIFO passes an entry or a freed slot through in the same tick: XPORT gets no byte from an OUTQ that was empty, ENC pops
no record of a CMDQ that was empty, and DRV's push into a CMDQ that was full is not accepted, whatever is pushed and popped
in the tick (rule R157). -/
def Obligations.NoSameTickBypass : Prop :=
  ∀ s t : State, step s = .next t → (tickInput s).rst = false →
    (s.outq = [] → t.env.popped = s.env.popped) ∧
    (s.cmdq = [] → t.encOut.cmdPop = false ∧ (s.enc.mode = .ready → t.enc.mode = .ready)) ∧
    (s.cfg.cmdDepth ≤ s.cmdq.length →
      t.env.pushed = s.env.pushed ∧ t.cmdq = if t.encOut.cmdPop then s.cmdq.drop 1 else s.cmdq)

/-! ## The whole machine -/

/-- A step runs the operations decoded from the ports at the start of the tick: ENG's control vector, the command ENC works
on (a reset in its place when `rst` is 1, a hold when there is none), and each FIFO's control vector, every one executed on
the state at the start of the tick; a command whose execution faults is a step that faults (rules R7, R100, R130, R150), with
ENC's fault even where XPORT's pop faults in the same tick, which is the model's choice (entry 24). -/
def Obligations.StepRunsDecodedOperations : Prop :=
  (∀ s t : State, step s = .next t →
    decode s.cfg (.engCtrl (tickInput s).engCtrl (trunc s.cfg.W (tickInput s).init)) = .ok (engInstr s) ∧
    (∃ u, exec (engInstr s) s = .next u ∧ t.eng = u.eng) ∧
    ((tickInput s).rst = true → t.enc.mode = .ready ∧ t.encOut = { cmdPop := false, outPush := none }) ∧
    ((tickInput s).rst = false → encInstr s = none →
      t.enc = s.enc ∧ t.dec = s.dec ∧ t.encOut = { cmdPop := false, outPush := none }) ∧
    (∀ i, (tickInput s).rst = false → encInstr s = some i →
      ∃ u, exec i s = .next u ∧ t.enc = u.enc ∧ t.dec = u.dec ∧ t.encOut = u.encOut ∧ t.func = u.func) ∧
    (∃ u, exec (decodeFifo .cmdq (ctrlVec (tickInput s).rst (tickInput s).push t.encOut.cmdPop) (tickInput s).din) s
      = .next u ∧ t.cmdq = u.cmdq) ∧
    (∃ u, exec (decodeFifo .outq (ctrlVec (tickInput s).rst t.encOut.outPush.isSome
        (xportPops (tickInput s).xport s)) ((t.encOut.outPush.getD 0#8).toNat)) s = .next u ∧ t.outq = u.outq)) ∧
  (∀ (s : State) (rec : Nat) (rest : List Nat) (i : Instr), s.enc.mode = .ready → s.cmdq = rec :: rest →
    s.outq.length < s.cfg.outDepth → decode s.cfg (.cmd rec) = .ok i → encInstr s = some i) ∧
  (∀ (s : State) (i : Instr) (f : Fault), s.cfg.Valid → (tickInput s).rst = false → encInstr s = some i →
    exec i s = .fault f → step s = .fault f)

/-- Every step keeps the machine's invariant, whatever the inputs: the widths, the flags of a run, the canonical trace and
its range, the positions of the renderers, the depths of the queues, the driver's registers. -/
def Obligations.StepKeepsInvariant : Prop :=
  ∀ s t : State, Inv s → step s = .next t → Inv t

/-- The state after reset of every build that rule R5 admits meets the machine's invariant, the contract's and the byte
stream's. -/
def Obligations.ResetMeetsInvariants : Prop :=
  ∀ p : Config.Params, p.Valid → SafeInv (State.resetOf p) ∧ ByteStream (State.resetOf p)

/-- Under the environment's contract a step never faults and is never refused, and the next state is safe again
(rule R196). -/
def Obligations.ContractExcludesFaults : Prop :=
  ∀ s : State, SafeInv s → Contract s → ∃ t, step s = .next t ∧ SafeInv t

/-- A tick with `rst` completes and resets every block whatever its other inputs: IDLE, READY, both FIFOs empty, no strobe, the
trace not written, the status outputs as rule R41 lists them (rules R41, R142, R158, R210, R213). -/
def Obligations.ResetTickResetsEveryBlock : Prop :=
  ∀ s : State, s.cfg.Valid → (tickInput s).rst = true →
    ∃ t, step s = .next t ∧ t.eng.phase = .idle ∧ t.enc.mode = .ready ∧ t.cmdq = [] ∧ t.outq = [] ∧
      t.encOut = { cmdPop := false, outPush := none } ∧ (∀ a, traceRead t a = traceRead s a) ∧
      doneO t = false ∧ encReadyO t = true ∧ cmdqNotEmpty t = false ∧ cmdqNotFull t = true ∧
      outqNotEmpty t = false ∧ outqNotFull t = true

/-- The byte stream: every step keeps what XPORT popped, then OUTQ, then the bytes ENC still owes, then the bytes of the
records in CMDQ, equal to the bytes of the records accepted since reset; so in a quiescent state XPORT has popped exactly
the bytes of those records, in order (rules R140, R156, R223). -/
def Obligations.ByteStreamConserved : Prop :=
  (∀ s t : State, Inv s → ByteStream s → step s = .next t → ByteStream t) ∧
  (∀ s : State, ByteStream s → quiescent s = true → s.env.popped = s.env.pushed.flatMap (outBytes s.cfg))

/-- Each operation writes its own block only: ENG's its registers and trace, a FIFO's its instance, a command's ENC, DEC and
ENC's strobes, a function's the function outputs; the parameters and the environment are never written (rules R6, R66). -/
def Obligations.OperationsWriteOwnBlock : Prop :=
  ∀ (i : Instr) (s t : State), exec i s = .next t →
    match i with
    | .engReset => t = { s with eng := t.eng, draws := t.draws }
    | .engLoad _ => t = { s with eng := t.eng, draws := t.draws }
    | .engAdvance => t = { s with eng := t.eng, draws := t.draws }
    | .engHold => t = { s with draws := t.draws }
    | .fifoReset .cmdq => t = { s with cmdq := t.cmdq, cmdTaken := t.cmdTaken }
    | .fifoPush .cmdq _ => t = { s with cmdq := t.cmdq, cmdTaken := t.cmdTaken }
    | .fifoPop .cmdq => t = { s with cmdq := t.cmdq, cmdTaken := t.cmdTaken, draws := t.draws }
    | .fifoPushpop .cmdq _ => t = { s with cmdq := t.cmdq, cmdTaken := t.cmdTaken, draws := t.draws }
    | .fifoIdle .cmdq => t = { s with cmdTaken := t.cmdTaken }
    | .fifoReset .outq => t = { s with outq := t.outq, outTaken := t.outTaken }
    | .fifoPush .outq _ => t = { s with outq := t.outq, outTaken := t.outTaken }
    | .fifoPop .outq => t = { s with outq := t.outq, outTaken := t.outTaken, draws := t.draws }
    | .fifoPushpop .outq _ => t = { s with outq := t.outq, outTaken := t.outTaken, draws := t.draws }
    | .fifoIdle .outq => t = { s with outTaken := t.outTaken }
    | .multiples _ => t = { s with func := t.func }
    | .extract _ _ => t = { s with func := t.func }
    | .verbatim _ => t = { s with enc := t.enc, encOut := t.encOut }
    | .decimal _ => t = { s with enc := t.enc, dec := t.dec, encOut := t.encOut, func := t.func }
    | .hex _ => t = { s with enc := t.enc, encOut := t.encOut }
    | .hexspaced _ => t = { s with enc := t.enc, encOut := t.encOut }
    | .cmdReservedTag _ _ => False

/-- While OUTQ is full no command leaves CMDQ: no pop is driven, and CMDQ keeps every record, in order (rule R219). -/
def Obligations.FullOutputHoldsCommands : Prop :=
  ∀ s t : State, step s = .next t → (tickInput s).rst = false → s.cfg.outDepth ≤ s.outq.length →
    t.encOut.cmdPop = false ∧ ∃ added, t.cmdq = s.cmdq ++ added

/-! ## The reference driver -/

/-- The reference driver in D_IDLE reads one inbound byte and starts on `A`; in D_LOAD it loads the next trial; in D_RUN it
advances until it sees completion (rules R176, R177, R178; the driver's details are the spec's decision D28). That with no byte
waiting the driver stays, even when one arrives in the tick, is the model's choice: a byte delivered in a tick is read from the
next tick on (entry 17). -/
def Obligations.DriverLoadsAndRuns : Prop :=
  ∀ s t : State, step s = .next t → s.env.drvOn = true → (tickInput s).rst = false →
    (s.env.drv.mode = .dIdle →
      t.eng = s.eng ∧
      (∀ b rest, s.env.inq = b :: rest → (∃ added, t.env.inq = rest ++ added) ∧
        t.env.drv.mode = if b = 65#8 then .dLoad else .dIdle) ∧
      (s.env.inq = [] → t.env.drv = s.env.drv)) ∧
    (s.env.drv.mode = .dLoad →
      t.eng.value = (s.env.drv.trial + 1) % 2 ^ s.cfg.W ∧ t.eng.phase = .loaded ∧ t.eng.steps = 0 ∧
      t.env.drv.trial = (s.env.drv.trial + 1) % 2 ^ s.cfg.W ∧ t.env.drv.mode = .dRun) ∧
    (s.env.drv.mode = .dRun → doneO s = false →
      t.env.drv = s.env.drv ∧ ∃ u, exec .engAdvance s = .next u ∧ t.eng = u.eng)

/-- On completion the reference driver holds ENG and chooses its report by the outcome: an X line, an N line, a record line
with the index after the increment, or none (rule R178). -/
def Obligations.DriverReportsByOutcome : Prop :=
  ∀ s t : State, step s = .next t → s.env.drvOn = true → (tickInput s).rst = false → s.env.drv.mode = .dRun →
    doneO s = true →
    t.eng = s.eng ∧
    (if s.eng.overflow = true then
      t.env.drv = { s.env.drv with
        mode := .dReport
        pending := [4 * 2 ^ (s.cfg.P + 2) + 0x58, 5 * 2 ^ (s.cfg.P + 2) + s.eng.steps,
          5 * 2 ^ (s.cfg.P + 2) + s.env.drv.trial, 4 * 2 ^ (s.cfg.P + 2) + 0x00070A0D] }
    else if s.eng.exhausted = true then
      t.env.drv = { s.env.drv with
        mode := .dReport
        pending := [4 * 2 ^ (s.cfg.P + 2) + 0x4E, 5 * 2 ^ (s.cfg.P + 2) + s.eng.steps,
          5 * 2 ^ (s.cfg.P + 2) + s.env.drv.trial, 4 * 2 ^ (s.cfg.P + 2) + 0x00070A0D] }
    else if s.env.drv.bestLength < s.eng.steps then
      t.env.drv = { s.env.drv with
        mode := .dReport
        bestLength := s.eng.steps
        bestTrial := s.env.drv.trial
        recordCount := (s.env.drv.recordCount + 1) % 2 ^ s.cfg.P
        pending := [5 * 2 ^ (s.cfg.P + 2) + (s.env.drv.recordCount + 1) % 2 ^ s.cfg.P,
          5 * 2 ^ (s.cfg.P + 2) + s.eng.steps, 5 * 2 ^ (s.cfg.P + 2) + s.env.drv.trial,
          4 * 2 ^ (s.cfg.P + 2) + 0x00070A0D] }
    else t.env.drv = { s.env.drv with mode := .dLoad, pending := [] })

/-- In D_REPORT the reference driver pushes its first pending record when CMDQ has room, goes on to the next trial after the
last one, and holds when CMDQ is full; and its pushes keep DRV's duties toward CMDQ (rules R171, R179). -/
def Obligations.DriverEnqueuesReport : Prop :=
  (∀ (s t : State) (rec : Nat) (rest : List Nat), Inv s → step s = .next t → s.env.drvOn = true →
    (tickInput s).rst = false → s.env.drv.mode = .dReport → s.env.drv.pending = rec :: rest →
    t.eng = s.eng ∧
    (if s.cmdq.length < s.cfg.cmdDepth then
      t.cmdq = (if t.encOut.cmdPop then s.cmdq.drop 1 else s.cmdq) ++ [rec] ∧ t.env.pushed = s.env.pushed ++ [rec] ∧
        t.env.drv = { s.env.drv with pending := rest, mode := if rest = [] then .dLoad else .dReport }
    else t.env.drv = s.env.drv ∧ t.env.pushed = s.env.pushed)) ∧
  (∀ s : State, SafeInv s → s.env.drvOn = true → cmdqDuty s = true)
end

