-- ==== Sys2Proof/Laws/State.lean ====
section
/-!
SUPPORT. One lemma a field of State for each of the machine's updates, true by rfl: what the update gives the field, or that
it leaves it alone.
-/

namespace Sys2Proof.Machine

variable (s : State)

/-! ## resetEngine -/

@[simp] theorem resetEngine_cfg : (resetEngine s).cfg = s.cfg := rfl
@[simp] theorem resetEngine_enc : (resetEngine s).enc = s.enc := rfl
@[simp] theorem resetEngine_dec : (resetEngine s).dec = s.dec := rfl
@[simp] theorem resetEngine_cmdq : (resetEngine s).cmdq = s.cmdq := rfl
@[simp] theorem resetEngine_outq : (resetEngine s).outq = s.outq := rfl
@[simp] theorem resetEngine_encOut : (resetEngine s).encOut = s.encOut := rfl
@[simp] theorem resetEngine_cmdTaken : (resetEngine s).cmdTaken = s.cmdTaken := rfl
@[simp] theorem resetEngine_outTaken : (resetEngine s).outTaken = s.outTaken := rfl
@[simp] theorem resetEngine_func : (resetEngine s).func = s.func := rfl
@[simp] theorem resetEngine_draws : (resetEngine s).draws = s.draws + 4 := rfl
@[simp] theorem resetEngine_env : (resetEngine s).env = s.env := rfl

/-! ## drawPort -/

@[simp] theorem drawPort_cfg : (drawPort s).cfg = s.cfg := rfl
@[simp] theorem drawPort_eng : (drawPort s).eng = s.eng := rfl
@[simp] theorem drawPort_enc : (drawPort s).enc = s.enc := rfl
@[simp] theorem drawPort_dec : (drawPort s).dec = s.dec := rfl
@[simp] theorem drawPort_cmdq : (drawPort s).cmdq = s.cmdq := rfl
@[simp] theorem drawPort_outq : (drawPort s).outq = s.outq := rfl
@[simp] theorem drawPort_encOut : (drawPort s).encOut = s.encOut := rfl
@[simp] theorem drawPort_cmdTaken : (drawPort s).cmdTaken = s.cmdTaken := rfl
@[simp] theorem drawPort_outTaken : (drawPort s).outTaken = s.outTaken := rfl
@[simp] theorem drawPort_func : (drawPort s).func = s.func := rfl
@[simp] theorem drawPort_draws : (drawPort s).draws = s.draws + 1 := rfl
@[simp] theorem drawPort_env : (drawPort s).env = s.env := rfl

/-! ## resetEncoder -/

@[simp] theorem resetEncoder_cfg : (resetEncoder s).cfg = s.cfg := rfl
@[simp] theorem resetEncoder_eng : (resetEncoder s).eng = s.eng := rfl
@[simp] theorem resetEncoder_cmdq : (resetEncoder s).cmdq = s.cmdq := rfl
@[simp] theorem resetEncoder_outq : (resetEncoder s).outq = s.outq := rfl
@[simp] theorem resetEncoder_encOut : (resetEncoder s).encOut = EncoderOut.idle := rfl
@[simp] theorem resetEncoder_cmdTaken : (resetEncoder s).cmdTaken = s.cmdTaken := rfl
@[simp] theorem resetEncoder_outTaken : (resetEncoder s).outTaken = s.outTaken := rfl
@[simp] theorem resetEncoder_func : (resetEncoder s).func = s.func := rfl
@[simp] theorem resetEncoder_draws : (resetEncoder s).draws = s.draws + 5 := rfl
@[simp] theorem resetEncoder_env : (resetEncoder s).env = s.env := rfl

/-! ## encHold -/

@[simp] theorem encHold_cfg : (encHold s).cfg = s.cfg := rfl
@[simp] theorem encHold_eng : (encHold s).eng = s.eng := rfl
@[simp] theorem encHold_enc : (encHold s).enc = s.enc := rfl
@[simp] theorem encHold_dec : (encHold s).dec = s.dec := rfl
@[simp] theorem encHold_cmdq : (encHold s).cmdq = s.cmdq := rfl
@[simp] theorem encHold_outq : (encHold s).outq = s.outq := rfl
@[simp] theorem encHold_encOut : (encHold s).encOut = EncoderOut.idle := rfl
@[simp] theorem encHold_cmdTaken : (encHold s).cmdTaken = s.cmdTaken := rfl
@[simp] theorem encHold_outTaken : (encHold s).outTaken = s.outTaken := rfl
@[simp] theorem encHold_func : (encHold s).func = s.func := rfl
@[simp] theorem encHold_draws : (encHold s).draws = s.draws := rfl
@[simp] theorem encHold_env : (encHold s).env = s.env := rfl

/-! ## emit -/

@[simp] theorem emit_cfg (b : Byte) : (emit b s).cfg = s.cfg := rfl
@[simp] theorem emit_eng (b : Byte) : (emit b s).eng = s.eng := rfl
@[simp] theorem emit_enc (b : Byte) : (emit b s).enc = s.enc := rfl
@[simp] theorem emit_dec (b : Byte) : (emit b s).dec = s.dec := rfl
@[simp] theorem emit_cmdq (b : Byte) : (emit b s).cmdq = s.cmdq := rfl
@[simp] theorem emit_outq (b : Byte) : (emit b s).outq = s.outq := rfl
@[simp] theorem emit_encOut (b : Byte) : (emit b s).encOut = { cmdPop := false, outPush := some b } := rfl
@[simp] theorem emit_cmdTaken (b : Byte) : (emit b s).cmdTaken = s.cmdTaken := rfl
@[simp] theorem emit_outTaken (b : Byte) : (emit b s).outTaken = s.outTaken := rfl
@[simp] theorem emit_func (b : Byte) : (emit b s).func = s.func := rfl
@[simp] theorem emit_draws (b : Byte) : (emit b s).draws = s.draws := rfl
@[simp] theorem emit_env (b : Byte) : (emit b s).env = s.env := rfl

/-! ## latchCommand -/

@[simp] theorem latchCommand_cfg (m : EncMode) (pl : Nat) : (latchCommand m pl s).cfg = s.cfg := rfl
@[simp] theorem latchCommand_eng (m : EncMode) (pl : Nat) : (latchCommand m pl s).eng = s.eng := rfl
@[simp] theorem latchCommand_enc (m : EncMode) (pl : Nat) : (latchCommand m pl s).enc = { mode := m, pos := 0#4, pl := trunc s.cfg.P pl } := rfl
@[simp] theorem latchCommand_dec (m : EncMode) (pl : Nat) : (latchCommand m pl s).dec = s.dec := rfl
@[simp] theorem latchCommand_cmdq (m : EncMode) (pl : Nat) : (latchCommand m pl s).cmdq = s.cmdq := rfl
@[simp] theorem latchCommand_outq (m : EncMode) (pl : Nat) : (latchCommand m pl s).outq = s.outq := rfl
@[simp] theorem latchCommand_encOut (m : EncMode) (pl : Nat) : (latchCommand m pl s).encOut = { cmdPop := true, outPush := none } := rfl
@[simp] theorem latchCommand_cmdTaken (m : EncMode) (pl : Nat) : (latchCommand m pl s).cmdTaken = s.cmdTaken := rfl
@[simp] theorem latchCommand_outTaken (m : EncMode) (pl : Nat) : (latchCommand m pl s).outTaken = s.outTaken := rfl
@[simp] theorem latchCommand_func (m : EncMode) (pl : Nat) : (latchCommand m pl s).func = s.func := rfl
@[simp] theorem latchCommand_draws (m : EncMode) (pl : Nat) : (latchCommand m pl s).draws = s.draws := rfl
@[simp] theorem latchCommand_env (m : EncMode) (pl : Nat) : (latchCommand m pl s).env = s.env := rfl

/-! ## decStart -/

@[simp] theorem decStart_cfg (pl : Nat) : (decStart pl s).cfg = s.cfg := rfl
@[simp] theorem decStart_eng (pl : Nat) : (decStart pl s).eng = s.eng := rfl
@[simp] theorem decStart_enc (pl : Nat) : (decStart pl s).enc = s.enc := rfl
@[simp] theorem decStart_dec (pl : Nat) : (decStart pl s).dec = { idx := 9#4, rem := trunc s.cfg.P pl, started := false } := rfl
@[simp] theorem decStart_cmdq (pl : Nat) : (decStart pl s).cmdq = s.cmdq := rfl
@[simp] theorem decStart_outq (pl : Nat) : (decStart pl s).outq = s.outq := rfl
@[simp] theorem decStart_encOut (pl : Nat) : (decStart pl s).encOut = s.encOut := rfl
@[simp] theorem decStart_cmdTaken (pl : Nat) : (decStart pl s).cmdTaken = s.cmdTaken := rfl
@[simp] theorem decStart_outTaken (pl : Nat) : (decStart pl s).outTaken = s.outTaken := rfl
@[simp] theorem decStart_func (pl : Nat) : (decStart pl s).func = s.func := rfl
@[simp] theorem decStart_draws (pl : Nat) : (decStart pl s).draws = s.draws := rfl
@[simp] theorem decStart_env (pl : Nat) : (decStart pl s).env = s.env := rfl

/-! ## cmdqTick -/

@[simp] theorem cmdqTick_cfg (r pu po : Bool) (din : Nat) : (cmdqTick r pu po din s).cfg = s.cfg := rfl
@[simp] theorem cmdqTick_eng (r pu po : Bool) (din : Nat) : (cmdqTick r pu po din s).eng = s.eng := rfl
@[simp] theorem cmdqTick_enc (r pu po : Bool) (din : Nat) : (cmdqTick r pu po din s).enc = s.enc := rfl
@[simp] theorem cmdqTick_dec (r pu po : Bool) (din : Nat) : (cmdqTick r pu po din s).dec = s.dec := rfl
@[simp] theorem cmdqTick_cmdq (r pu po : Bool) (din : Nat) : (cmdqTick r pu po din s).cmdq = fifoNext s.cfg.cmdDepth r pu po (dinEntry s.cfg .cmdq din) s.cmdq := rfl
@[simp] theorem cmdqTick_outq (r pu po : Bool) (din : Nat) : (cmdqTick r pu po din s).outq = s.outq := rfl
@[simp] theorem cmdqTick_encOut (r pu po : Bool) (din : Nat) : (cmdqTick r pu po din s).encOut = s.encOut := rfl
@[simp] theorem cmdqTick_outTaken (r pu po : Bool) (din : Nat) : (cmdqTick r pu po din s).outTaken = s.outTaken := rfl
@[simp] theorem cmdqTick_func (r pu po : Bool) (din : Nat) : (cmdqTick r pu po din s).func = s.func := rfl
@[simp] theorem cmdqTick_env (r pu po : Bool) (din : Nat) : (cmdqTick r pu po din s).env = s.env := rfl

/-! ## outqTick -/

@[simp] theorem outqTick_cfg (r pu po : Bool) (din : Nat) : (outqTick r pu po din s).cfg = s.cfg := rfl
@[simp] theorem outqTick_eng (r pu po : Bool) (din : Nat) : (outqTick r pu po din s).eng = s.eng := rfl
@[simp] theorem outqTick_enc (r pu po : Bool) (din : Nat) : (outqTick r pu po din s).enc = s.enc := rfl
@[simp] theorem outqTick_dec (r pu po : Bool) (din : Nat) : (outqTick r pu po din s).dec = s.dec := rfl
@[simp] theorem outqTick_cmdq (r pu po : Bool) (din : Nat) : (outqTick r pu po din s).cmdq = s.cmdq := rfl
@[simp] theorem outqTick_outq (r pu po : Bool) (din : Nat) : (outqTick r pu po din s).outq = fifoNext s.cfg.outDepth r pu po (BitVec.ofNat 8 (dinEntry s.cfg .outq din)) s.outq := rfl
@[simp] theorem outqTick_encOut (r pu po : Bool) (din : Nat) : (outqTick r pu po din s).encOut = s.encOut := rfl
@[simp] theorem outqTick_cmdTaken (r pu po : Bool) (din : Nat) : (outqTick r pu po din s).cmdTaken = s.cmdTaken := rfl
@[simp] theorem outqTick_func (r pu po : Bool) (din : Nat) : (outqTick r pu po din s).func = s.func := rfl
@[simp] theorem outqTick_env (r pu po : Bool) (din : Nat) : (outqTick r pu po din s).env = s.env := rfl

/-! ## envTick -/

@[simp] theorem envTick_cfg (inp : TickInput) (s0 : State) : (envTick inp s0 s).cfg = s.cfg := rfl
@[simp] theorem envTick_eng (inp : TickInput) (s0 : State) : (envTick inp s0 s).eng = s.eng := rfl
@[simp] theorem envTick_enc (inp : TickInput) (s0 : State) : (envTick inp s0 s).enc = s.enc := rfl
@[simp] theorem envTick_dec (inp : TickInput) (s0 : State) : (envTick inp s0 s).dec = s.dec := rfl
@[simp] theorem envTick_cmdq (inp : TickInput) (s0 : State) : (envTick inp s0 s).cmdq = s.cmdq := rfl
@[simp] theorem envTick_outq (inp : TickInput) (s0 : State) : (envTick inp s0 s).outq = s.outq := rfl
@[simp] theorem envTick_encOut (inp : TickInput) (s0 : State) : (envTick inp s0 s).encOut = s.encOut := rfl
@[simp] theorem envTick_cmdTaken (inp : TickInput) (s0 : State) : (envTick inp s0 s).cmdTaken = s.cmdTaken := rfl
@[simp] theorem envTick_outTaken (inp : TickInput) (s0 : State) : (envTick inp s0 s).outTaken = s.outTaken := rfl
@[simp] theorem envTick_func (inp : TickInput) (s0 : State) : (envTick inp s0 s).func = s.func := rfl
@[simp] theorem envTick_draws (inp : TickInput) (s0 : State) : (envTick inp s0 s).draws = s.draws := rfl

/-! ## setInput -/

@[simp] theorem setInput_cfg (f : TickInput → TickInput) : (setInput f s).cfg = s.cfg := rfl
@[simp] theorem setInput_eng (f : TickInput → TickInput) : (setInput f s).eng = s.eng := rfl
@[simp] theorem setInput_enc (f : TickInput → TickInput) : (setInput f s).enc = s.enc := rfl
@[simp] theorem setInput_dec (f : TickInput → TickInput) : (setInput f s).dec = s.dec := rfl
@[simp] theorem setInput_cmdq (f : TickInput → TickInput) : (setInput f s).cmdq = s.cmdq := rfl
@[simp] theorem setInput_outq (f : TickInput → TickInput) : (setInput f s).outq = s.outq := rfl
@[simp] theorem setInput_encOut (f : TickInput → TickInput) : (setInput f s).encOut = s.encOut := rfl
@[simp] theorem setInput_cmdTaken (f : TickInput → TickInput) : (setInput f s).cmdTaken = s.cmdTaken := rfl
@[simp] theorem setInput_outTaken (f : TickInput → TickInput) : (setInput f s).outTaken = s.outTaken := rfl
@[simp] theorem setInput_func (f : TickInput → TickInput) : (setInput f s).func = s.func := rfl
@[simp] theorem setInput_draws (f : TickInput → TickInput) : (setInput f s).draws = s.draws := rfl

@[simp] theorem resetEngine_phase : (resetEngine s).eng.phase = .idle := rfl
@[simp] theorem resetEngine_trace : (resetEngine s).eng.trace = s.eng.trace := rfl
@[simp] theorem resetEngine_runTrace : (resetEngine s).eng.runTrace = [] := rfl
@[simp] theorem resetEncoder_mode : (resetEncoder s).enc.mode = .ready := rfl

end Sys2Proof.Machine
end

