-- ==== Sys2Proof/Laws/Ops.lean ====
section
/-!
SUPPORT. What each shared operation can do, said once: the trace RAM, the FIFO tick, the ladder, ENG's steps, ENC's steps.
-/

namespace Sys2Proof.Machine

theorem trunc_lt (n v : Nat) : trunc n v < 2 ^ n := Nat.mod_lt _ (Nat.two_pow_pos n)

theorem trunc_of_lt {n v : Nat} (h : v < 2 ^ n) : trunc n v = v := Nat.mod_eq_of_lt h

/-! ## The trace RAM -/

@[simp] theorem Memory.read_nil (i : Nat) : Memory.read [] i = none := rfl

theorem Memory.read_write_same (m : Memory) (i v : Nat) : (m.write i v).read i = some v := by
  induction m with
  | nil => simp [Memory.write, Memory.read]
  | cons c rest ih =>
    obtain ⟨a, w⟩ := c
    by_cases h1 : i < a
    · simp [Memory.write, Memory.read, h1]
    · by_cases h2 : i = a
      · simp [Memory.write, Memory.read, h2]
      · simpa [Memory.write, Memory.read, h1, h2, Ne.symm h2] using ih

theorem Memory.read_write_other (m : Memory) {i j : Nat} (v : Nat) (h : j ≠ i) :
    (m.write i v).read j = m.read j := by
  induction m with
  | nil => simp [Memory.write, Memory.read, h.symm]
  | cons c rest ih =>
    obtain ⟨a, w⟩ := c
    by_cases h1 : i < a
    · simp [Memory.write, Memory.read, h1, h.symm]
    · by_cases h2 : i = a
      · subst h2; simp [Memory.write, Memory.read, h.symm]
      · simp [Memory.write, Memory.read, h1, h2, ih]

/-- Reading after a write, at any index. -/
theorem Memory.read_write (m : Memory) (i v j : Nat) :
    (m.write i v).read j = if j = i then some v else m.read j := by
  by_cases h : j = i
  · subst h; simp [Memory.read_write_same]
  · simp [h, Memory.read_write_other m v h]

/-- A canonical tail stays canonical under any smaller head. -/
theorem Memory.wf_cons {a w : Nat} {m : Memory} (h : Memory.wf ((a, w) :: m) = true) : Memory.wf m = true := by
  cases m with
  | nil => rfl
  | cons c rest => obtain ⟨b, x⟩ := c; simp [Memory.wf] at h; exact h.2

theorem Memory.wf_cons_write {a w : Nat} {m : Memory} {i v : Nat} (h : Memory.wf ((a, w) :: m) = true) (hi : a < i) :
    Memory.wf ((a, w) :: m.write i v) = true := by
  induction m generalizing a w with
  | nil => simp [Memory.write, Memory.wf, hi]
  | cons c rest ih =>
    obtain ⟨b, x⟩ := c
    have hab : a < b := by simp [Memory.wf] at h; exact h.1
    have hrest := Memory.wf_cons h
    by_cases h1 : i < b
    · simp [Memory.write, h1, Memory.wf, hi, hrest]
    · by_cases h2 : i = b
      · subst h2
        cases rest with
        | nil => simp [Memory.write, Memory.wf, hi]
        | cons d r =>
          obtain ⟨y, z⟩ := d
          simp only [Memory.wf, Bool.and_eq_true, decide_eq_true_eq] at hrest
          simp [Memory.write, Memory.wf, hi, hrest.1, hrest.2]
      · have := ih hrest (Nat.lt_of_le_of_ne (Nat.not_lt.mp h1) (Ne.symm h2))
        simp [Memory.write, h1, h2, Memory.wf, hab, this]

/-- A write keeps the canonical form. -/
theorem Memory.wf_write (m : Memory) (i v : Nat) (h : m.wf = true) : (m.write i v).wf = true := by
  cases m with
  | nil => rfl
  | cons c rest =>
    obtain ⟨a, w⟩ := c
    by_cases h1 : i < a
    · simp [Memory.write, h1, Memory.wf, h]
    · by_cases h2 : i = a
      · subst h2
        cases rest with
        | nil => simp [Memory.write, Memory.wf]
        | cons d r =>
          obtain ⟨y, z⟩ := d
          simp only [Memory.wf, Bool.and_eq_true, decide_eq_true_eq] at h
          simp [Memory.write, Memory.wf, h.1, h.2]
      · have hi : a < i := Nat.lt_of_le_of_ne (Nat.not_lt.mp h1) (Ne.symm h2)
        simp only [Memory.write, h1, h2, if_false]
        exact Memory.wf_cons_write h hi

theorem reset_trace_wf (p : Config.Params) : (State.resetOf p).eng.trace.wf = true := rfl

/-! ## FIFOs -/

@[simp] theorem fifoNext_reset {α : Type} (depth : Nat) (pu po : Bool) (din : α) (l : List α) :
    fifoNext depth true pu po din l = [] := rfl

@[simp] theorem fifoNext_idle {α : Type} (depth : Nat) (din : α) (l : List α) :
    fifoNext depth false false false din l = l := by simp [fifoNext]

/-- A FIFO never holds more than its depth. -/
theorem fifoNext_length_le {α : Type} (depth : Nat) (r pu po : Bool) (din : α) (l : List α) (h : l.length ≤ depth) :
    (fifoNext depth r pu po din l).length ≤ depth := by
  cases r
  · have hd : ∀ c : Bool, (if c = true then l.drop 1 else l).length ≤ l.length := by
      intro c; split <;> simp
    simp only [fifoNext, Bool.false_eq_true, if_false]
    split
    · rename_i hp
      simp only [Bool.and_eq_true, decide_eq_true_eq] at hp
      rw [List.length_append]
      exact Nat.lt_of_le_of_lt (hd _) hp.2
    · exact Nat.le_trans (hd _) h
  · simp

/-- Every entry after a tick was there before it, or was pushed in it. -/
theorem mem_fifoNext {α : Type} {depth : Nat} {r pu po : Bool} {din x : α} {l : List α}
    (h : x ∈ fifoNext depth r pu po din l) : x ∈ l ∨ (r = false ∧ pu = true ∧ l.length < depth ∧ x = din) := by
  cases r
  · have hd : ∀ c : Bool, x ∈ (if c = true then l.drop 1 else l) → x ∈ l := by
      intro c hc; split at hc
      · exact List.mem_of_mem_drop hc
      · exact hc
    simp only [fifoNext, Bool.false_eq_true, if_false] at h
    split at h
    · rename_i hp
      simp only [Bool.and_eq_true, decide_eq_true_eq] at hp
      rcases List.mem_append.mp h with h | h
      · exact .inl (hd _ h)
      · exact .inr ⟨rfl, hp.1, hp.2, by simpa using h⟩
    · exact .inl (hd _ h)
  · simp at h

/-- What the FIFO operation decoded from a control vector does: the tick of rule R150 with the vector's three bits. -/
theorem exec_decodeFifo (q : QueueId) (r pu po : Bool) (din : Nat) (s : State) :
    ∃ d, exec (decodeFifo q (ctrlVec r pu po) din) s = .next (fifoTick q r (pu && !r) (po && !r) d s) ∧
      (pu = true ∧ r = false → d = din) := by
  cases r <;> cases pu <;> cases po <;> refine ⟨_, rfl, ?_⟩ <;> simp

/-! ## MAG and EXT -/

theorem multiplesRow_getD (i k : Nat) (h : k < 9) : (multiplesRow i).getD k 0 = (k + 1) * 10 ^ i := by
  simp [multiplesRow, h]

/-- What the ladder finds among the entries `k * m` of a row: the largest of them not above `v`, taken off `v`. -/
theorem ladder_spec (row : List Nat) (m v : Nat) :
    ∀ k, (∀ j, j < k → row.getD j 0 = (j + 1) * m) →
      (ladder row v k).1 ≤ k ∧ (ladder row v k).1 * m ≤ v ∧ (ladder row v k).2 = v - (ladder row v k).1 * m ∧
        ((ladder row v k).1 < k → v < ((ladder row v k).1 + 1) * m) := by
  intro k
  induction k with
  | zero => intro _; simp [ladder]
  | succ k ih =>
    intro h
    have hk := h k (Nat.lt_succ_self k)
    by_cases hm : row.getD k 0 ≤ v
    · simp only [ladder, hm, if_true]
      rw [hk] at hm ⊢
      exact ⟨Nat.le_refl _, hm, rfl, fun hlt => absurd hlt (Nat.lt_irrefl _)⟩
    · simp only [ladder, hm, if_false]
      obtain ⟨h1, h2, h3, h4⟩ := ih fun j hj => h j (Nat.lt_succ_of_lt hj)
      refine ⟨Nat.le_succ_of_le h1, h2, h3, fun _ => ?_⟩
      rcases Nat.lt_or_ge (ladder row v k).1 k with hlt | hge
      · exact h4 hlt
      · have heq : (ladder row v k).1 = k := Nat.le_antisymm h1 hge
        rw [heq, ← hk]; exact Nat.lt_of_not_le hm

/-- What the digit extractor finds at magnitude `i`. -/
theorem extractDigit_spec (i v : Nat) :
    (extractDigit i v).1 ≤ 9 ∧ (extractDigit i v).1 * 10 ^ i ≤ v ∧
      (extractDigit i v).2 = v - (extractDigit i v).1 * 10 ^ i ∧
      ((extractDigit i v).1 < 9 → v < ((extractDigit i v).1 + 1) * 10 ^ i) :=
  ladder_spec _ (10 ^ i) v 9 fun j hj => multiplesRow_getD i j hj

/-- EXT's answer in its domain, and its fault outside it. -/
theorem extractOp_eq (i : Nibble) (v : Nat) (s : State) :
    extractOp i v s =
      if i.toNat ≤ 9 then
        .next { s with
          func :=
            { row := multiplesRow i.toNat
              digit := (extractDigit i.toNat v).1
              remainder := (extractDigit i.toNat v).2 } }
      else .fault .magnitudeIndex := by
  unfold extractOp lookupRow
  by_cases h : i.toNat ≤ 9 <;> simp [h, extractDigit]

/-! ## ENG -/

/-- What ENG's operation decoded from a control vector does, by rule R100's priority. -/
theorem exec_decodeEng (vec : Ctrl) (init : Nat) (s : State) :
    exec (decodeEng vec init) s =
      .next (if vec.getLsbD 2 then resetEngine s
        else if vec.getLsbD 1 then drawPort { s with eng := loadRun (trunc s.cfg.W init) s.eng }
        else if vec.getLsbD 0 then drawPort { s with eng := advanceRun s.cfg s.eng }
        else drawPort s) := by
  unfold decodeEng
  split
  · rfl
  · split
    · rfl
    · split <;> rfl

/-- The cases of an ADVANCE (rules R102 to R106). -/
theorem advanceRun_cases (p : Config.Params) (e : Engine) :
    (e.phase = .idle ∧ advanceRun p e = e) ∨
    (e.phase ≠ .idle ∧ e.value ≤ 1 ∧ advanceRun p e = { e with phase := .active }) ∨
    (e.phase ≠ .idle ∧ 1 < e.value ∧ stepBudget p ≤ e.steps ∧
      advanceRun p e = { traceWrite e with value := 1, exhausted := true, phase := .active }) ∨
    (e.phase ≠ .idle ∧ 1 < e.value ∧ e.steps < stepBudget p ∧ oddValue e = true ∧ headroomClear p e = true ∧
      advanceRun p e =
        { traceWrite e with value := (3 * e.value + 1) >>> 1, steps := e.steps + 2, phase := .active }) ∨
    (e.phase ≠ .idle ∧ 1 < e.value ∧ e.steps < stepBudget p ∧ oddValue e = true ∧ headroomClear p e = false ∧
      advanceRun p e = { traceWrite e with value := 1, overflow := true, phase := .active }) ∨
    (e.phase ≠ .idle ∧ 1 < e.value ∧ e.steps < stepBudget p ∧ oddValue e = false ∧
      advanceRun p e = { traceWrite e with value := e.value >>> 1, steps := e.steps + 1, phase := .active }) := by
  have main : e.phase ≠ .idle → advanceRun p e =
      if effective e then { collatzStep p (traceWrite e) with phase := .active } else { e with phase := .active } := by
    intro h; unfold advanceRun; cases hp : e.phase <;> simp_all
  by_cases h0 : e.phase = .idle
  · exact .inl ⟨h0, by simp [advanceRun, h0]⟩
  · rw [main h0]
    by_cases h1 : 1 < e.value
    · have hb : budgetReached p (traceWrite e) = decide (stepBudget p ≤ e.steps) := rfl
      have ho : oddValue (traceWrite e) = oddValue e := rfl
      have hh : headroomClear p (traceWrite e) = headroomClear p e := rfl
      simp only [effective, h1, decide_true, if_true]
      by_cases h2 : stepBudget p ≤ e.steps
      · refine .inr (.inr (.inl ⟨h0, trivial, h2, ?_⟩))
        simp only [collatzStep, hb, h2, decide_true, if_true]
        rfl
      · have h2' := Nat.lt_of_not_le h2
        cases h3 : oddValue e
        · refine .inr (.inr (.inr (.inr (.inr ⟨h0, trivial, h2', rfl, ?_⟩))))
          simp only [collatzStep, hb, h2, ho, h3, decide_false, Bool.false_eq_true, if_false]
          rfl
        · cases h4 : headroomClear p e
          · refine .inr (.inr (.inr (.inr (.inl ⟨h0, trivial, h2', rfl, rfl, ?_⟩))))
            simp only [collatzStep, hb, h2, ho, h3, oddStep, hh, h4, decide_false, Bool.false_eq_true, if_false, if_true]
            rfl
          · refine .inr (.inr (.inr (.inl ⟨h0, trivial, h2', rfl, rfl, ?_⟩)))
            simp only [collatzStep, hb, h2, ho, h3, oddStep, hh, h4, decide_false, Bool.false_eq_true, if_false, if_true]
            rfl
    · exact .inr (.inl ⟨h0, Nat.le_of_not_lt h1, by simp [effective, h1]⟩)

/-- Parity as a remainder. -/
theorem oddValue_eq (e : Engine) : oddValue e = decide (e.value % 2 = 1) := by
  simp [oddValue, Nat.testBit_zero]

/-- The headroom check on a value of W bits is a bound (rule R105). -/
theorem headroomClear_eq (p : Config.Params) (e : Engine) (hW : 2 ≤ p.W) (hv : e.value < 2 ^ p.W) :
    headroomClear p e = decide (e.value < 2 ^ (p.W - 2)) := by
  obtain ⟨k, hk⟩ : ∃ k, p.W = k + 2 := ⟨p.W - 2, by omega⟩
  unfold headroomClear
  rw [hk] at hv ⊢
  simp only [Nat.add_sub_cancel, show k + 2 - 1 = k + 1 from rfl]
  by_cases h : e.value < 2 ^ k
  · have h1 : e.value < 2 ^ (k + 1) := by rw [Nat.pow_succ]; omega
    simp [Nat.testBit_lt_two_pow h, Nat.testBit_lt_two_pow h1, h]
  · simp only [h, decide_false, Bool.and_eq_false_iff, Bool.not_eq_false']
    by_cases h1 : e.value < 2 ^ (k + 1)
    · right
      rw [Nat.testBit_eq_decide_div_mod_eq, decide_eq_true_eq]
      have hp := Nat.two_pow_pos k
      have : e.value / 2 ^ k = 1 := by
        apply Nat.div_eq_of_lt_le <;> (rw [Nat.pow_succ] at h1; omega)
      omega
    · left
      rw [Nat.testBit_eq_decide_div_mod_eq, decide_eq_true_eq]
      have hp := Nat.two_pow_pos (k + 1)
      have : e.value / 2 ^ (k + 1) = 1 := by
        apply Nat.div_eq_of_lt_le
        · omega
        · rw [show k + 2 = (k + 1) + 1 from rfl, Nat.pow_succ] at hv; omega
      omega

/-! ## ENC -/

/-- ENC's move to the next position touches its own mode and position. -/
theorem advancePos_eq (last : Nat) (s : State) :
    ∃ m x, advancePos last s = { s with enc := { s.enc with mode := m, pos := x } } ∧
      ((s.enc.pos.toNat = last ∧ m = .ready ∧ x = s.enc.pos) ∨
        (s.enc.pos.toNat ≠ last ∧ m = s.enc.mode ∧ x = s.enc.pos + 1#4)) := by
  unfold advancePos
  by_cases h : s.enc.pos.toNat = last
  · exact ⟨.ready, s.enc.pos, by simp [h], .inl ⟨h, rfl, rfl⟩⟩
  · exact ⟨s.enc.mode, s.enc.pos + 1#4, by simp [h], .inr ⟨h, rfl, rfl⟩⟩

/-- A hex sequence has 9 bytes, or 12 when spaced (rules R135, R136). -/
theorem hexSeq_length (pl : Nat) (spaced : Bool) : (hexSeq pl spaced).length = if spaced then 12 else 9 := by
  cases spaced <;> simp [hexSeq]

end Sys2Proof.Machine
end

