-- ==== Sys2Proof/Laws/Step.lean ====
section
/-!
SUPPORT. What a step can do, said once: the parts of a tick with what each leaves alone, the cases of ENC's tick, and the
inversion of a step into its fields, and that a step draws free values afresh.
-/

namespace Sys2Proof.Machine

theorem andThen_next {o : Host.Outcome State Fault Refusal} {f : State → Host.Outcome State Fault Refusal} {t : State} :
    andThen o f = .next t ↔ ∃ s, o = .next s ∧ f s = .next t := by
  cases o <;> simp [andThen]

/-! ## ENG's share of the tick -/

/-- ENG's operation always completes and writes ENG and the draw counter only, which it advances. -/
theorem exec_engInstr (s : State) :
    ∃ e d, exec (engInstr s) s = .next { s with eng := e, draws := d } ∧ s.draws < d ∧
      ((tickInput s).rst = true ∧ e = (resetEngine s).eng ∨
        (tickInput s).rst = false ∧ (tickInput s).engCtrl.getLsbD 1 = true ∧
          e = loadRun (trunc s.cfg.W (trunc s.cfg.W (tickInput s).init)) s.eng ∨
        (tickInput s).rst = false ∧ (tickInput s).engCtrl.getLsbD 1 = false ∧
          (tickInput s).engCtrl.getLsbD 0 = true ∧ e = advanceRun s.cfg s.eng ∨
        (tickInput s).rst = false ∧ (tickInput s).engCtrl.getLsbD 1 = false ∧
          (tickInput s).engCtrl.getLsbD 0 = false ∧ e = s.eng) := by
  unfold engInstr TickInput.rst
  rw [exec_decodeEng]
  cases h2 : (tickInput s).engCtrl.getLsbD 2
  · cases h1 : (tickInput s).engCtrl.getLsbD 1
    · cases h0 : (tickInput s).engCtrl.getLsbD 0
      · exact ⟨s.eng, s.draws + 1, rfl, by simp⟩
      · exact ⟨_, s.draws + 1, rfl, by simp⟩
    · exact ⟨_, s.draws + 1, rfl, by simp⟩
  · exact ⟨(resetEngine s).eng, (resetEngine s).draws, rfl, by simp⟩

/-! ## ENC's share of the tick -/

/-- The mode that renders a command tag (rule R131). -/
def tagMode (tag : Nat) : EncMode := if tag = 4 then .verb else if tag = 5 then .dec else if tag = 6 then .hex else .hexs

theorem recTag_lt (p : Config.Params) (rec : Nat) : recTag p rec < 8 := Nat.mod_lt _ (by decide)

theorem recPayload_lt (p : Config.Params) (rec : Nat) : recPayload p rec < 2 ^ p.P := Nat.mod_lt _ (Nat.two_pow_pos _)

/-- What `decodeCmd` gives for each tag. -/
theorem decodeCmd_eq (p : Config.Params) (rec : Nat) :
    decodeCmd p rec =
      if recTag p rec = 4 then .verbatim (recPayload p rec)
      else if recTag p rec = 5 then .decimal (recPayload p rec)
      else if recTag p rec = 6 then .hex (recPayload p rec)
      else if recTag p rec = 7 then .hexspaced (recPayload p rec)
      else .cmdReservedTag (BitVec.ofNat 2 (recTag p rec)) (recPayload p rec) := by
  unfold decodeCmd
  split <;> simp_all

/-- Everything ENC's tick may change: its own registers, DEC's, the strobes, the function outputs and the draw counter. -/
def encWrites (s t : State) : State :=
  { s with enc := t.enc, dec := t.dec, encOut := t.encOut, func := t.func, draws := t.draws }

/-- ENC's tick when it completes: a reset, a hold, a dispatch, a silent position, or one byte emitted. -/
inductive EncCase (rst : Bool) (s t : State) : Prop where
  | reset (h : rst = true) (mode : t.enc.mode = .ready) (out : t.encOut = EncoderOut.idle)
      (enc : t.enc = (resetEncoder s).enc) (dec : t.dec = (resetEncoder s).dec)
  | hold (h : rst = false) (enc : t.enc = s.enc) (dec : t.dec = s.dec) (out : t.encOut = EncoderOut.idle)
      (why : s.enc.mode = .ready ∧ canDispatch s = false ∨ mustEmit s = true ∧ outqNotFull s = false)
  | dispatch (h : rst = false) (mode : s.enc.mode = .ready) (can : canDispatch s = true) (rec : Nat) (rest : List Nat)
      (head : s.cmdq = rec :: rest) (tag : 4 ≤ recTag s.cfg rec)
      (enc : t.enc = { mode := tagMode (recTag s.cfg rec), pos := 0#4, pl := recPayload s.cfg rec })
      (dec : t.dec = if recTag s.cfg rec = 5 then { idx := 9#4, rem := recPayload s.cfg rec, started := false } else s.dec)
      (out : t.encOut = { cmdPop := true, outPush := none })
  | verbSkip (h : rst = false) (mode : s.enc.mode = .verb) (zero : payloadByte s.enc.pl s.enc.pos.toNat = 0#8)
      (enc : t.enc = (advancePos 3 s).enc) (dec : t.dec = s.dec) (out : t.encOut = EncoderOut.idle)
  | verbEmit (h : rst = false) (mode : s.enc.mode = .verb) (nz : payloadByte s.enc.pl s.enc.pos.toNat ≠ 0#8)
      (room : outqNotFull s = true) (enc : t.enc = (advancePos 3 s).enc) (dec : t.dec = s.dec)
      (out : t.encOut = { cmdPop := false, outPush := some (payloadByte s.enc.pl s.enc.pos.toNat) })
  | decSkip (h : rst = false) (mode : s.enc.mode = .dec) (dom : s.dec.idx.toNat ≤ 9)
      (zero : (extractDigit s.dec.idx.toNat s.dec.rem).1 = 0) (started : s.dec.started = false) (idx : s.dec.idx ≠ 0#4)
      (enc : t.enc = s.enc)
      (dec : t.dec =
        { idx := s.dec.idx - 1#4, rem := (extractDigit s.dec.idx.toNat s.dec.rem).2, started := false })
      (out : t.encOut = EncoderOut.idle)
  | decEmit (h : rst = false) (mode : s.enc.mode = .dec) (dom : s.dec.idx.toNat ≤ 9) (must : mustEmit s = true)
      (room : outqNotFull s = true)
      (enc : t.enc = if s.dec.idx = 0#4 then { s.enc with mode := .decsp } else s.enc)
      (dec : t.dec =
        { idx := if s.dec.idx = 0#4 then 0#4 else s.dec.idx - 1#4
          rem := (extractDigit s.dec.idx.toNat s.dec.rem).2, started := true })
      (out : t.encOut =
        { cmdPop := false, outPush := some (digitChar (extractDigit s.dec.idx.toNat s.dec.rem).1) })
  | decspEmit (h : rst = false) (mode : s.enc.mode = .decsp) (room : outqNotFull s = true)
      (enc : t.enc = { s.enc with mode := .ready }) (dec : t.dec = s.dec)
      (out : t.encOut = { cmdPop := false, outPush := some spaceChar })
  | hexEmit (h : rst = false) (mode : s.enc.mode = .hex) (room : outqNotFull s = true)
      (enc : t.enc = (advancePos 8 s).enc) (dec : t.dec = s.dec)
      (out : t.encOut =
        { cmdPop := false, outPush := some ((hexSeq s.enc.pl false).getD s.enc.pos.toNat spaceChar) })
  | hexsEmit (h : rst = false) (mode : s.enc.mode = .hexs) (room : outqNotFull s = true)
      (enc : t.enc = (advancePos 11 s).enc) (dec : t.dec = s.dec)
      (out : t.encOut =
        { cmdPop := false, outPush := some ((hexSeq s.enc.pl true).getD s.enc.pos.toNat spaceChar) })

theorem advancePos_enc (last : Nat) (s : State) (o : EncoderOut) :
    (advancePos last { s with encOut := o }).enc = (advancePos last s).enc ∧
      advancePos last { s with encOut := o } = { s with encOut := o, enc := (advancePos last s).enc } := by
  unfold advancePos
  constructor <;> (dsimp only; split <;> simp)

/-- The inversion of ENC's tick. -/
theorem encTick_cases {rst : Bool} {s t : State} (h : encTick rst s = .next t) :
    t = encWrites s t ∧ EncCase rst s t := by
  unfold encTick at h
  cases rst with
  | true =>
    simp only [if_true] at h
    cases h
    exact ⟨rfl, .reset rfl rfl rfl rfl rfl⟩
  | false =>
    simp only [Bool.false_eq_true, if_false] at h
    cases hm : s.enc.mode with
    | ready =>
      simp only [encInstr, hm] at h
      cases hc : canDispatch s with
      | false =>
        simp only [hc, Bool.false_eq_true, if_false] at h
        cases h
        exact ⟨rfl, .hold rfl rfl rfl rfl (.inl ⟨hm, hc⟩)⟩
      | true =>
        have hne : s.cmdq ≠ [] := by
          intro he; simp [canDispatch, cmdqNotEmpty, he] at hc
        obtain ⟨rec, rest, hq⟩ := List.exists_cons_of_ne_nil hne
        have hp : trunc s.cfg.P (recPayload s.cfg rec) = recPayload s.cfg rec := trunc_of_lt (recPayload_lt _ _)
        simp only [hc, if_true, hq, List.head?_cons, Option.map_some, decodeCmd_eq] at h
        by_cases h4 : recTag s.cfg rec = 4
        · simp only [h4, if_true, exec, execVerbatim, hm, readyStep, hc] at h
          cases h
          exact ⟨rfl, .dispatch rfl hm hc rec rest hq (by omega) (by simp [latchCommand, hp, tagMode, h4])
            (by simp [latchCommand, h4]) rfl⟩
        by_cases h5 : recTag s.cfg rec = 5
        · simp only [h5, if_true, exec, execDecimal, hm, readyStepDec, hc] at h
          cases h
          exact ⟨rfl, .dispatch rfl hm hc rec rest hq (by omega) (by simp [latchCommand, decStart, hp, tagMode, h5])
            (by simp [latchCommand, decStart, hp, h5]) rfl⟩
        by_cases h6 : recTag s.cfg rec = 6
        · simp only [h6, if_true, exec, execHex, hm, readyStep, hc] at h
          cases h
          exact ⟨rfl, .dispatch rfl hm hc rec rest hq (by omega) (by simp [latchCommand, hp, tagMode, h6])
            (by simp [latchCommand, h6]) rfl⟩
        by_cases h7 : recTag s.cfg rec = 7
        · simp only [h7, if_true, exec, execHexspaced, hm, readyStep, hc] at h
          cases h
          exact ⟨rfl, .dispatch rfl hm hc rec rest hq (by omega) (by simp [latchCommand, hp, tagMode, h7])
            (by simp [latchCommand, h7]) rfl⟩
        · simp [h4, h5, h6, h7, exec, execCmdReservedTag] at h
    | verb =>
      simp only [encInstr, hm, exec, execVerbatim, verbStep] at h
      by_cases hz : payloadByte s.enc.pl s.enc.pos.toNat = 0#8
      · simp only [hz, if_true, encHold] at h
        rw [(advancePos_enc 3 s _).2] at h
        cases h
        exact ⟨rfl, .verbSkip rfl hm hz rfl rfl rfl⟩
      · simp only [hz, if_false] at h
        cases hr : outqNotFull s with
        | true =>
          simp only [hr, if_true, emit] at h
          rw [(advancePos_enc 3 s _).2] at h
          cases h
          exact ⟨rfl, .verbEmit rfl hm hz hr rfl rfl rfl⟩
        | false =>
          simp only [hr, Bool.false_eq_true, if_false] at h
          cases h
          exact ⟨rfl, .hold rfl rfl rfl rfl (.inr ⟨by simp [mustEmit, hm, hz], hr⟩)⟩
    | dec =>
      simp only [encInstr, hm, exec, execDecimal, decStep, extractOp_eq] at h
      by_cases hd : s.dec.idx.toNat ≤ 9
      · simp only [hd, if_true] at h
        by_cases hz : (extractDigit s.dec.idx.toNat s.dec.rem).1 = 0 ∧ s.dec.started = false ∧ s.dec.idx ≠ 0#4
        · simp only [decPosition, hz, ne_eq, not_false_eq_true, and_self, if_true] at h
          cases h
          exact ⟨rfl, .decSkip rfl hm hd hz.1 hz.2.1 hz.2.2 rfl (by simp) rfl⟩
        · have hmust : mustEmit s = true := by
            simp only [mustEmit, hm, Bool.or_eq_true, bne_iff_ne, beq_iff_eq]
            by_contra hcon
            push Not at hcon
            exact hz ⟨hcon.1.1, by simpa using hcon.1.2, hcon.2⟩
          have hfull : ∀ f : FuncOut, outqNotFull { s with func := f } = outqNotFull s := fun _ => rfl
          simp only [decPosition, hz, if_false, hfull] at h
          cases hr : outqNotFull s with
          | true =>
            simp only [hr, if_true] at h
            by_cases hi : s.dec.idx = 0#4
            · simp only [hi, if_true] at h
              cases h
              exact ⟨rfl, .decEmit rfl hm hd hmust hr (by simp [hi]) (by simp [hi]) (by simp [hi, emit])⟩
            · simp only [hi, if_false] at h
              cases h
              exact ⟨rfl, .decEmit rfl hm hd hmust hr (by simp [hi, emit]) (by simp [hi]) (by simp [emit])⟩
          | false =>
            simp only [hr, Bool.false_eq_true, if_false] at h
            cases h
            exact ⟨rfl, .hold rfl rfl rfl rfl (.inr ⟨hmust, hr⟩)⟩
      · simp [hd] at h
    | decsp =>
      simp only [encInstr, hm, exec, execDecimal, decspStep] at h
      cases hr : outqNotFull s with
      | true =>
        simp only [hr, if_true] at h
        cases h
        exact ⟨rfl, .decspEmit rfl hm hr rfl rfl rfl⟩
      | false =>
        simp only [hr, Bool.false_eq_true, if_false] at h
        cases h
        exact ⟨rfl, .hold rfl rfl rfl rfl (.inr ⟨by simp [mustEmit, hm], hr⟩)⟩
    | hex =>
      simp only [encInstr, hm, exec, execHex, hexStep] at h
      cases hr : outqNotFull s with
      | true =>
        simp only [hr, if_true, emit] at h
        rw [(advancePos_enc 8 s _).2] at h
        cases h
        exact ⟨rfl, .hexEmit rfl hm hr rfl rfl rfl⟩
      | false =>
        simp only [hr, Bool.false_eq_true, if_false] at h
        cases h
        exact ⟨rfl, .hold rfl rfl rfl rfl (.inr ⟨by simp [mustEmit, hm], hr⟩)⟩
    | hexs =>
      simp only [encInstr, hm, exec, execHexspaced, hexStep] at h
      cases hr : outqNotFull s with
      | true =>
        simp only [hr, if_true, emit] at h
        rw [(advancePos_enc 11 s _).2] at h
        cases h
        exact ⟨rfl, .hexsEmit rfl hm hr rfl rfl rfl⟩
      | false =>
        simp only [hr, Bool.false_eq_true, if_false] at h
        cases h
        exact ⟨rfl, .hold rfl rfl rfl rfl (.inr ⟨by simp [mustEmit, hm], hr⟩)⟩

/-! ## The inversion of a step -/

/-- The parts of a step that answers a next state. -/
theorem step_parts {s t : State} (h : step s = .next t) :
    s.cfg.Valid ∧ ∃ s1 s2 s3 s4 s5,
      exec (engInstr s) s = .next s1 ∧ encTick (tickInput s).rst s1 = .next s2 ∧
      exec (cmdqInstr (tickInput s) s2) s2 = .next s3 ∧ exec (outqInstr (tickInput s) s3) s3 = .next s4 ∧
      xportTick (tickInput s) s4 = .next s5 ∧ t = envTick (tickInput s) s s5 := by
  unfold step at h
  split at h
  · rename_i hv
    refine ⟨hv, ?_⟩
    unfold tick at h
    obtain ⟨s1, h1, h⟩ := andThen_next.mp h
    obtain ⟨s2, h2, h⟩ := andThen_next.mp h
    obtain ⟨s3, h3, h⟩ := andThen_next.mp h
    obtain ⟨s4, h4, h⟩ := andThen_next.mp h
    obtain ⟨s5, h5, h⟩ := andThen_next.mp h
    exact ⟨s1, s2, s3, s4, s5, h1, h2, h3, h4, h5, by cases h; rfl⟩
  · simp at h

/-- The bytes OUTQ's pop port gives in a tick. -/
def poppedByte (s : State) : List Byte :=
  if xportPops (tickInput s).xport s && !(tickInput s).rst then s.outq.take 1 else []

/-- XPORT's share of the tick: the byte that OUTQ's pop gave joins those popped. -/
theorem xportTick_outqTick {inp : TickInput} {r pu po : Bool} {d : Nat} {s t : State}
    (h : xportTick inp (outqTick r pu po d s) = .next t) :
    t = { outqTick r pu po d s with
      env := { s.env with popped := s.env.popped ++ (if po && !r then s.outq.take 1 else []) } } := by
  unfold xportTick at h
  cases hp : (po && !r) with
  | false =>
    have ht : (outqTick r pu po d s).outTaken = .nothing := by simp [outqTick, takenBy, hp]
    simp only [ht] at h
    cases h
    simp [outqTick]
  | true =>
    cases hq : s.outq with
    | nil =>
      have ht : ∃ w, (outqTick r pu po d s).outTaken = .unspecified w := by simp [outqTick, takenBy, hp, hq]
      obtain ⟨w, ht⟩ := ht
      simp only [ht] at h
      cases hu : xportUses inp.xport <;> simp only [hu, Bool.false_eq_true, if_true, if_false] at h <;> cases h
      simp [outqTick]
    | cons b rest =>
      have ht : (outqTick r pu po d s).outTaken = .entry b.toNat := by simp [outqTick, takenBy, hp, hq]
      simp only [ht] at h
      cases h
      simp [outqTick, takenBy, hp, hq]

/-- The fields of a step's next state, each from the state at the start of the tick. -/
theorem step_fields {s t : State} (h : step s = .next t) :
    s.cfg.Valid ∧ t.cfg = s.cfg ∧
      (∃ d, exec (engInstr s) s = .next { s with eng := t.eng, draws := d } ∧
        ∃ u, encTick (tickInput s).rst { s with eng := t.eng, draws := d } = .next u ∧
          t.enc = u.enc ∧ t.dec = u.dec ∧ t.encOut = u.encOut ∧ t.func = u.func) ∧
      t.cmdq = fifoNext s.cfg.cmdDepth (tickInput s).rst (tickInput s).push t.encOut.cmdPop
        (dinEntry s.cfg .cmdq (tickInput s).din) s.cmdq ∧
      t.outq = fifoNext s.cfg.outDepth (tickInput s).rst t.encOut.outPush.isSome
        (xportPops (tickInput s).xport s) (t.encOut.outPush.getD 0#8) s.outq ∧
      t.env = (envTick (tickInput s) s { s with env := { s.env with popped := s.env.popped ++ poppedByte s } }).env := by
  obtain ⟨hv, s1, s2, s3, s4, s5, h1, h2, h3, h4, h5, ht⟩ := step_parts h
  obtain ⟨e, d, he, _⟩ := exec_engInstr s
  rw [he] at h1
  cases h1
  obtain ⟨hw, _⟩ := encTick_cases h2
  obtain ⟨d3, e3, hd3⟩ := exec_decodeFifo .cmdq (tickInput s).rst (tickInput s).push s2.encOut.cmdPop (tickInput s).din s2
  rw [cmdqInstr, e3] at h3
  cases h3
  obtain ⟨d4, e4, hd4⟩ := exec_decodeFifo .outq (tickInput s).rst
    (fifoTick .cmdq (tickInput s).rst ((tickInput s).push && !(tickInput s).rst)
      (s2.encOut.cmdPop && !(tickInput s).rst) d3 s2).encOut.outPush.isSome
    (xportPops (tickInput s).xport (fifoTick .cmdq (tickInput s).rst ((tickInput s).push && !(tickInput s).rst)
      (s2.encOut.cmdPop && !(tickInput s).rst) d3 s2))
    (((fifoTick .cmdq (tickInput s).rst ((tickInput s).push && !(tickInput s).rst)
      (s2.encOut.cmdPop && !(tickInput s).rst) d3 s2).encOut.outPush.map BitVec.toNat).getD 0)
    (fifoTick .cmdq (tickInput s).rst ((tickInput s).push && !(tickInput s).rst)
      (s2.encOut.cmdPop && !(tickInput s).rst) d3 s2)
  rw [outqInstr, e4] at h4
  cases h4
  simp only [fifoTick, cmdqTick_encOut] at hd4
  have c2 : s2.cfg = s.cfg := by rw [hw]; rfl
  have q2 : s2.cmdq = s.cmdq := by rw [hw]; rfl
  have o2 : s2.outq = s.outq := by rw [hw]; rfl
  have v2 : s2.env = s.env := by rw [hw]; rfl
  have pops : ∀ x : State, x.outq = s.outq → xportPops (tickInput s).xport x = xportPops (tickInput s).xport s := by
    intro x hx; unfold xportPops outqNotEmpty; rw [hx]
  have s5eq : ∃ g, s5 = { (outqTick (tickInput s).rst (s2.encOut.outPush.isSome && !(tickInput s).rst)
      (xportPops (tickInput s).xport s && !(tickInput s).rst) d4
      (cmdqTick (tickInput s).rst ((tickInput s).push && !(tickInput s).rst)
      (s2.encOut.cmdPop && !(tickInput s).rst) d3 s2)) with env := g } ∧
      g = { s.env with popped := s.env.popped ++ poppedByte s } := by
    simp only [fifoTick, cmdqTick_encOut] at h5
    rw [pops _ (by rw [cmdqTick_outq, o2])] at h5
    have := xportTick_outqTick h5
    refine ⟨_, this, ?_⟩
    simp only [cmdqTick_env, v2, cmdqTick_outq, o2, poppedByte]
    cases (xportPops (tickInput s).xport s) <;> cases (tickInput s).rst <;> rfl
  obtain ⟨g, hs5, hg⟩ := s5eq
  have fx : ∀ {α : Type} (dep : Nat) (r pu po : Bool) (x y : α) (l : List α), (pu = true ∧ r = false → x = y) →
      fifoNext dep r (pu && !r) (po && !r) x l = fifoNext dep r pu po y l := by
    intro α dep r pu po x y l hxy
    cases r
    · cases pu
      · simp [fifoNext]
      · simp [hxy ⟨rfl, rfl⟩]
    · simp
  have teng : t.eng = e := by rw [ht, hs5, hw]; rfl
  have tout : t.encOut = s2.encOut := by rw [ht, hs5]; rfl
  refine ⟨hv, by rw [ht, hs5]; exact c2, ⟨d, by rw [teng]; exact he, s2, by rw [teng]; exact h2, ?_, ?_, tout, ?_⟩,
    ?_, ?_, ?_⟩
  · rw [ht, hs5]; rfl
  · rw [ht, hs5]; rfl
  · rw [ht, hs5]; rfl
  · rw [tout, ht, hs5]
    simp only [envTick_cmdq, outqTick_cmdq, cmdqTick_cmdq, q2, c2]
    exact fx _ _ _ _ _ _ _ fun hh => by rw [hd3 hh]
  · rw [tout, ht, hs5]
    simp only [envTick_outq, outqTick_outq, cmdqTick_outq, o2, cmdqTick_cfg, c2]
    refine fx _ _ _ _ _ _ _ fun hh => ?_
    rw [hd4 hh]
    cases hb : s2.encOut.outPush with
    | none => simp [hb] at hh
    | some b =>
      have hlt : b.toNat < 2 ^ 8 := b.isLt
      simp [dinEntry, entryWidth, trunc_of_lt hlt]
  · rw [ht, hs5, hg]
    simp only [envTick, outqTick_cfg, cmdqTick_cfg, c2]

/-! ## Free values are drawn afresh -/

@[simp] theorem advancePos_draws (last : Nat) (s : State) : (advancePos last s).draws = s.draws := by
  unfold advancePos; split <;> rfl
@[simp] theorem readyStep_draws (m : EncMode) (pl : Nat) (s : State) : (readyStep m pl s).draws = s.draws := by
  unfold readyStep; split <;> rfl
@[simp] theorem readyStepDec_draws (pl : Nat) (s : State) : (readyStepDec pl s).draws = s.draws := by
  unfold readyStepDec; split <;> rfl
@[simp] theorem verbStep_draws (s : State) : (verbStep s).draws = s.draws := by
  unfold verbStep; repeat' split
  all_goals simp
@[simp] theorem hexStep_draws (spaced : Bool) (last : Nat) (s : State) : (hexStep spaced last s).draws = s.draws := by
  unfold hexStep; split <;> simp
@[simp] theorem decPosition_draws (s : State) : (decPosition s).draws = s.draws := by
  unfold decPosition; repeat' split
  all_goals rfl
@[simp] theorem decspStep_draws (s : State) : (decspStep s).draws = s.draws := by
  unfold decspStep; split <;> rfl

/-- No operation turns the draw counter back. -/
theorem exec_draws_le {i : Instr} {s t : State} (h : exec i s = .next t) : s.draws ≤ t.draws := by
  cases i with
  | verbatim pl => simp only [exec, execVerbatim] at h; split at h <;> cases h <;> simp
  | decimal pl =>
    simp only [exec, execDecimal, decStep, extractOp_eq] at h
    split at h
    · cases h; simp
    · split at h <;> (rename_i hu; split at hu <;> cases hu) <;> cases h
      simp
    · cases h; simp
    all_goals cases h; simp
  | hex pl => simp only [exec, execHex] at h; split at h <;> cases h <;> simp
  | hexspaced pl => simp only [exec, execHexspaced] at h; split at h <;> cases h <;> simp
  | cmdReservedTag tag pl => cases h
  | engReset => cases h; simp
  | engLoad init => cases h; simp
  | engAdvance => cases h; simp
  | engHold => cases h; simp
  | fifoReset q => cases q <;> cases h <;> exact Nat.le_add_right _ _
  | fifoPush q din => cases q <;> cases h <;> exact Nat.le_add_right _ _
  | fifoPop q => cases q <;> cases h <;> exact Nat.le_add_right _ _
  | fifoPushpop q din => cases q <;> cases h <;> exact Nat.le_add_right _ _
  | fifoIdle q => cases q <;> cases h <;> exact Nat.le_add_right _ _
  | multiples idx =>
    simp only [exec, execMultiples, lookupRow] at h
    split at h <;> cases h
    exact Nat.le_refl _
  | extract idx v =>
    simp only [exec, execExtract, extractOp_eq] at h
    split at h <;> cases h
    exact Nat.le_refl _

theorem encTick_draws_le {rst : Bool} {s t : State} (h : encTick rst s = .next t) : s.draws ≤ t.draws := by
  unfold encTick at h
  repeat' split at h
  · cases h; simp
  · cases h; simp
  · exact exec_draws_le h

theorem xportTick_draws {inp : TickInput} {s t : State} (h : xportTick inp s = .next t) : t.draws = s.draws := by
  unfold xportTick at h
  repeat' split at h
  all_goals cases h
  all_goals rfl

/-- Every step advances the draw counter, so that no two ticks of a run read one free value on the trace port (entry 7). -/
theorem step_draws_lt {s t : State} (h : step s = .next t) : s.draws < t.draws := by
  obtain ⟨_, s1, s2, s3, s4, s5, h1, h2, h3, h4, h5, rfl⟩ := step_parts h
  obtain ⟨e, d, he, hd, _⟩ := exec_engInstr s
  rw [he] at h1
  cases h1
  calc s.draws < d := hd
    _ ≤ s2.draws := encTick_draws_le h2
    _ ≤ s3.draws := exec_draws_le h3
    _ ≤ s4.draws := exec_draws_le h4
    _ = s5.draws := (xportTick_draws h5).symm
    _ = _ := rfl

end Sys2Proof.Machine
end

