-- ==== Sys2Proof/Laws/PerInstr.lean ====
section
/-!
SUPPORT. Lemmas made per operation: the family `EncodesOnPort`, one lemma a constructor.
-/

namespace Sys2Proof.Machine

/-- `packRecord` puts each part in its own field of the `P + 5` bits (rule R70). -/
theorem packRecord_fields (p : Config.Params) {tag rsv pl : Nat} (ht : tag < 8) (hr : rsv < 4) (hp : pl < 2 ^ p.P) :
    packRecord p tag rsv pl < 2 ^ (p.P + 5) ∧ recTag p (packRecord p tag rsv pl) = tag ∧
      recRsv p (packRecord p tag rsv pl) = rsv ∧ recPayload p (packRecord p tag rsv pl) = pl := by
  have e5 : 2 ^ (p.P + 5) = 32 * 2 ^ p.P := by rw [Nat.pow_add]; ring
  have e2 : 2 ^ (p.P + 2) = 4 * 2 ^ p.P := by rw [Nat.pow_add]; ring
  generalize hm : 2 ^ p.P = m at *
  have htop : (tag * (4 * m) + rsv * m + pl) / (4 * m) = tag := by apply Nat.div_eq_of_lt_le <;> nlinarith
  have hmid : (tag * (4 * m) + rsv * m + pl) / m = tag * 4 + rsv := by apply Nat.div_eq_of_lt_le <;> nlinarith
  refine ⟨?_, ?_, ?_, ?_⟩
  · rw [packRecord, e5, e2, hm]; nlinarith
  · rw [recTag, bitField, packRecord, Nat.shiftRight_eq_div_pow, e2, hm, htop]; omega
  · rw [recRsv, bitField, packRecord, Nat.shiftRight_eq_div_pow, e2, hm, hmid]; omega
  · rw [recPayload, bitField, packRecord, e2, hm, Nat.shiftRight_zero,
      show tag * (4 * m) + rsv * m + pl = pl + m * (tag * 4 + rsv) by ring, Nat.add_mul_mod_self_left]
    exact Nat.mod_eq_of_lt hp

end Sys2Proof.Machine

/-- The coded form of a well-formed operation fits its port in every build: a record its `P + 5` bits with `rsv` 0, `init_i` W
bits, `din` the entries of its instance, an EXT value P bits (rules R70, R73, R76 to R78). -/
def Sys2Proof.Laws.EncodesOnPort.Statement (i : Sys2Proof.Instr) : Prop :=
  ∀ p : Sys2Proof.Config.Params, Sys2Proof.WellFormed p i = true →
    match Sys2Proof.encode p i with
    | .cmd rec => rec < 2 ^ (p.P + 5) ∧ Sys2Proof.recRsv p rec = 0
    | .engCtrl _ init => init < 2 ^ p.W
    | .fifoCtrl q _ din => din < 2 ^ Sys2Proof.entryWidth p q
    | .mag _ => True
    | .ext _ v => v < 2 ^ p.P

namespace Sys2Proof.Laws

open Sys2Proof.Machine

theorem record_onPort (p : Config.Params) {tag pl : Nat} (ht : tag < 8) (hp : decide (pl < 2 ^ p.P) = true) :
    packRecord p tag 0 pl < 2 ^ (p.P + 5) ∧ recRsv p (packRecord p tag 0 pl) = 0 :=
  have h := packRecord_fields p ht (by omega : 0 < 4) (of_decide_eq_true hp)
  ⟨h.1, h.2.2.1⟩

theorem EncodesOnPort.verbatim (pl : Nat) : EncodesOnPort.Statement (.verbatim pl) :=
  fun p h => record_onPort p (by omega) h

theorem EncodesOnPort.decimal (pl : Nat) : EncodesOnPort.Statement (.decimal pl) :=
  fun p h => record_onPort p (by omega) h

theorem EncodesOnPort.hex (pl : Nat) : EncodesOnPort.Statement (.hex pl) :=
  fun p h => record_onPort p (by omega) h

theorem EncodesOnPort.hexspaced (pl : Nat) : EncodesOnPort.Statement (.hexspaced pl) :=
  fun p h => record_onPort p (by omega) h

theorem EncodesOnPort.cmdReservedTag (tag : BitVec 2) (pl : Nat) : EncodesOnPort.Statement (.cmdReservedTag tag pl) :=
  fun p h => record_onPort p (by omega) h

theorem EncodesOnPort.engReset : EncodesOnPort.Statement .engReset := fun p _ => Nat.two_pow_pos p.W

theorem EncodesOnPort.engLoad (init : Nat) : EncodesOnPort.Statement (.engLoad init) :=
  fun p h => show init < 2 ^ p.W from of_decide_eq_true h

theorem EncodesOnPort.engAdvance : EncodesOnPort.Statement .engAdvance := fun p _ => Nat.two_pow_pos p.W

theorem EncodesOnPort.engHold : EncodesOnPort.Statement .engHold := fun p _ => Nat.two_pow_pos p.W

theorem EncodesOnPort.fifoReset (q : QueueId) : EncodesOnPort.Statement (.fifoReset q) := fun _ _ => Nat.two_pow_pos _

theorem EncodesOnPort.fifoPush (q : QueueId) (din : Nat) : EncodesOnPort.Statement (.fifoPush q din) :=
  fun p h => show din < 2 ^ entryWidth p q from of_decide_eq_true h

theorem EncodesOnPort.fifoPop (q : QueueId) : EncodesOnPort.Statement (.fifoPop q) := fun _ _ => Nat.two_pow_pos _

theorem EncodesOnPort.fifoPushpop (q : QueueId) (din : Nat) : EncodesOnPort.Statement (.fifoPushpop q din) :=
  fun p h => show din < 2 ^ entryWidth p q from of_decide_eq_true h

theorem EncodesOnPort.fifoIdle (q : QueueId) : EncodesOnPort.Statement (.fifoIdle q) := fun _ _ => Nat.two_pow_pos _

theorem EncodesOnPort.multiples (i : Nibble) : EncodesOnPort.Statement (.multiples i) := fun _ _ => trivial

theorem EncodesOnPort.extract (i : Nibble) (v : Nat) : EncodesOnPort.Statement (.extract i v) :=
  fun p h => show v < 2 ^ p.P from of_decide_eq_true h

end Sys2Proof.Laws
end

