-- ==== Sys2Proof/Tests/Slice0.lean ====
section
/-!
SUPPORT. The model's own tests. Expected values are the spec's: 95_test_vectors.md sections 2.1 to 2.6 (V1 to V26 are section
2.4), and the encodings of 30_encoding.md. The last part holds a witness for the hypotheses of every obligation that has some.
-/

namespace Sys2Proof.Tests

open Sys2Proof Sys2Proof.Machine

/-! ## Helpers -/

/-- The next state, if the outcome is one. -/
def nextOf (o : Host.Outcome State Fault Refusal) : Option State :=
  match o with
  | .next s => some s
  | .fault _ => none
  | .refused _ => none

/-- The fault, if the outcome is one. -/
def faultOf (o : Host.Outcome State Fault Refusal) : Option Fault :=
  match o with
  | .next _ => none
  | .fault f => some f
  | .refused _ => none

/-- The state after the step, `s` itself where there is none. -/
def after (s : State) : State := (nextOf (step s)).getD s

/-- An accepted coded form. -/
def decoded (c : Code) : Option Instr :=
  match decode Config.reference c with
  | .ok i => some i
  | .error _ => none

/-- Why a coded form is rejected. -/
def rejected (c : Code) : Option DecodeReject :=
  match decode Config.reference c with
  | .ok _ => none
  | .error e => some e

/-- After reset, with the given registers in ENG. -/
def engState (phase : Phase) (value steps : Nat) (overflow exhausted : Bool) : State :=
  { State.reset with
    eng :=
      { value := value, steps := steps, overflow := overflow, exhausted := exhausted, phase := phase, trace := []
        runTrace := [] } }

/-- After reset, with the given registers in ENC, and DEC at position `idx` of `rem`. -/
def encState (mode : EncMode) (pos : Nibble) (pl : Nat) (idx : Nibble) (rem : Nat) (started : Bool) : State :=
  { State.reset with
    enc := { mode := mode, pos := pos, pl := pl }
    dec := { idx := idx, rem := rem, started := started } }

/-- With the given queues. -/
def withQueues (cmdq : List Nat) (outq : List Byte) (s : State) : State := { s with cmdq := cmdq, outq := outq }

/-- With FIFOs of two entries, as in section 2.6. -/
def depthTwo (s : State) : State := { s with cfg := { s.cfg with cmdDepth := 2, outDepth := 2 } }

/-- With these inputs in the next tick. -/
def withInput (inp : TickInput) (s : State) : State := { s with env := { s.env with script := [inp] } }

/-- With the reference driver on, in a mode. -/
def driving (mode : DriverMode) (s : State) : State :=
  { s with env := { s.env with drvOn := true, drv := { s.env.drv with mode := mode, trial := 27 } } }

def ctrlInput (vec : Ctrl) (init : Nat) : TickInput := { TickInput.idle with engCtrl := vec, init := init }

/-! ## WellFormed: an ill-formed operation for each check -/

theorem test_wellFormed_verbatim : WellFormed Config.reference (.verbatim (2 ^ 34)) = false := by decide
theorem test_wellFormed_decimal : WellFormed Config.reference (.decimal (2 ^ 34)) = false := by decide
theorem test_wellFormed_hex : WellFormed Config.reference (.hex (2 ^ 34)) = false := by decide
theorem test_wellFormed_hexspaced : WellFormed Config.reference (.hexspaced (2 ^ 34)) = false := by decide
theorem test_wellFormed_reservedTag : WellFormed Config.reference (.cmdReservedTag 1#2 (2 ^ 34)) = false := by decide
theorem test_wellFormed_load : WellFormed Config.reference (.engLoad (2 ^ 34)) = false := by decide
theorem test_wellFormed_push_cmdq : WellFormed Config.reference (.fifoPush .cmdq (2 ^ 39)) = false := by decide
theorem test_wellFormed_push_outq : WellFormed Config.reference (.fifoPush .outq 256) = false := by decide
theorem test_wellFormed_pushpop_cmdq : WellFormed Config.reference (.fifoPushpop .cmdq (2 ^ 39)) = false := by decide
theorem test_wellFormed_pushpop_outq : WellFormed Config.reference (.fifoPushpop .outq 256) = false := by decide
theorem test_wellFormed_extract : WellFormed Config.reference (.extract 2#4 (2 ^ 34)) = false := by decide
theorem test_wellFormed_largest : WellFormed Config.reference (.decimal (2 ^ 34 - 1)) = true := by decide

theorem test_reject_record : rejected (.cmd (2 ^ 39)) = some .recordTooWide := by decide
theorem test_reject_init : rejected (.engCtrl 0b010#3 (2 ^ 34)) = some .initTooWide := by decide
theorem test_reject_entry : rejected (.fifoCtrl .outq 0b010#3 256) = some .entryTooWide := by decide
theorem test_reject_value : rejected (.ext 0#4 (2 ^ 34)) = some .valueTooWide := by decide

/-! ## Decoding: a word of the spec for every constructor -/

theorem test_decode_verbatim : decoded (.cmd 0x4041424344) = some (.verbatim 0x41424344) := by decide
theorem test_decode_decimal : decoded (.cmd 0x52540BE3FF) = some (.decimal 9999999999) := by decide
theorem test_decode_hex : decoded (.cmd 0x6000C0FFEE) = some (.hex 0x00C0FFEE) := by decide
theorem test_decode_hexspaced : decoded (.cmd 0x70FFFFFFFF) = some (.hexspaced 0xFFFFFFFF) := by decide
/-- Bits 35 and 34 are `rsv`, ignored: `DEC 27` (rule R73). -/
theorem test_decode_rsv : decoded (.cmd 0x5C0000001B) = some (.decimal 27) := by decide
theorem test_decode_reservedTag0 : decoded (.cmd 0x0000000041) = some (.cmdReservedTag 0#2 0x41) := by decide
theorem test_decode_reservedTag1 : decoded (.cmd 0x1000000041) = some (.cmdReservedTag 1#2 0x41) := by decide
theorem test_decode_engReset : decoded (.engCtrl 0b111#3 5) = some .engReset := by decide
theorem test_decode_engLoad : decoded (.engCtrl 0b011#3 27) = some (.engLoad 27) := by decide
theorem test_decode_engAdvance : decoded (.engCtrl 0b001#3 0) = some .engAdvance := by decide
theorem test_decode_engHold : decoded (.engCtrl 0b000#3 0) = some .engHold := by decide
theorem test_decode_fifoReset : decoded (.fifoCtrl .cmdq 0b111#3 0) = some (.fifoReset .cmdq) := by decide
theorem test_decode_fifoPush : decoded (.fifoCtrl .cmdq 0b010#3 0x500000001B) = some (.fifoPush .cmdq 0x500000001B) := by
  decide
theorem test_decode_fifoPop : decoded (.fifoCtrl .outq 0b001#3 0) = some (.fifoPop .outq) := by decide
theorem test_decode_fifoPushpop : decoded (.fifoCtrl .outq 0b011#3 0x33) = some (.fifoPushpop .outq 0x33) := by decide
theorem test_decode_fifoIdle : decoded (.fifoCtrl .outq 0b000#3 0) = some (.fifoIdle .outq) := by decide
theorem test_decode_multiples : decoded (.mag 9#4) = some (.multiples 9#4) := by decide
theorem test_decode_extract : decoded (.ext 9#4 9999999999) = some (.extract 9#4 9999999999) := by decide

theorem test_encode_trailer : assemble Config.reference pseudoTrailer = 0x4000070A0D := by decide
theorem test_encode_text : assemble Config.reference (pseudoText [0x58#8]) = 0x4000000058 := by decide

theorem test_tableWord_command : decodeTableWord 40 0x60DEADBEEF = some (.hex 0xDEADBEEF) := by decide
theorem test_tableWord_control : decodeTableWord 8 0b001 = some .engAdvance := by decide

/-! ## ENG: one tick each -/

/-- V1. -/
theorem test_load : (nextOf (exec (.engLoad 27) (engState .active 9 5 true false))).map State.eng =
    some (engState .loaded 27 0 false false).eng := by decide

/-- V8: the largest odd value that passes the headroom check. -/
theorem test_advance_odd :
    (nextOf (exec .engAdvance (engState .active 4294967295 40 false false))).map
      (fun t => (t.eng.value, t.eng.steps, t.eng.overflow, t.eng.trace)) =
      some (6442450943, 42, false, [(40, 4294967295)]) := by decide

/-- V16: exhaustion wins over overflow. -/
theorem test_advance_exhaust :
    (nextOf (exec .engAdvance (engState .active 8589934593 1022 false false))).map
      (fun t => (t.eng.value, t.eng.steps, t.eng.overflow, t.eng.exhausted)) = some (1, 1022, false, true) := by decide

/-- V20. -/
theorem test_hold : (nextOf (exec .engHold (engState .active 41 2 false false))).map State.eng =
    some (engState .active 41 2 false false).eng := by decide

/-- V19: reset wins over load and advance. -/
theorem test_reset : (after (withInput (ctrlInput 0b111#3 5) (engState .active 41 2 false false))).eng.phase = .idle := by
  decide

/-! ## MAG and EXT -/

/-- Section 2.1, row 9. -/
theorem test_multiples :
    (nextOf (exec (.multiples 9#4) State.reset)).map (fun t => t.func.row.getLast?) = some (some 9000000000) := by decide

/-- Section 2.2: the tie with m9, and a value above the magnitude. -/
theorem test_extract_tie :
    (nextOf (exec (.extract 3#4 9000) State.reset)).map (fun t => (t.func.digit, t.func.remainder)) = some (9, 0) := by decide

theorem test_extract_above :
    (nextOf (exec (.extract 1#4 100) State.reset)).map (fun t => (t.func.digit, t.func.remainder)) = some (9, 10) := by
  decide

/-! ## ENC and DEC: one tick each -/

/-- Section 2.5, `VERB 0x00410042`: byte 1 is zero and is skipped with OUTQ full. -/
theorem test_verbatim_skip :
    (nextOf (exec (.verbatim 0x00410042) (withQueues [] [1, 2, 3, 4] (encState .verb 1#4 0x00410042 0#4 0 false)))).map
      (fun t => (t.enc.pos, t.encOut.outPush)) = some (2#4, none) := by decide

/-- Section 2.5, `VERB 0x41424344`: byte 3 is `A`, the last. -/
theorem test_verbatim_emit :
    (nextOf (exec (.verbatim 0x41424344) (encState .verb 3#4 0x41424344 0#4 0 false))).map
      (fun t => (t.enc.mode, t.encOut.outPush)) = some (.ready, some 0x41#8) := by decide

/-- Section 2.3, position 2 of 105. -/
theorem test_decimal_digit :
    (nextOf (exec (.decimal 105) (encState .dec 0#4 105 2#4 105 false))).map (fun t => (t.dec, t.encOut.outPush)) =
      some ({ idx := 1#4, rem := 5, started := true }, some 0x31#8) := by decide

/-- Section 2.3, position 9 of 105: suppressed. -/
theorem test_decimal_suppress :
    (nextOf (exec (.decimal 105) (encState .dec 0#4 105 9#4 105 false))).map (fun t => (t.dec, t.encOut.outPush)) =
      some ({ idx := 8#4, rem := 105, started := false }, none) := by decide

/-- Section 2.5, `HEX 0xDEADBEEF`: first `d`. -/
theorem test_hex_first :
    (nextOf (exec (.hex 0xDEADBEEF) (encState .hex 0#4 0xDEADBEEF 0#4 0 false))).map
      (fun t => (t.enc.pos, t.encOut.outPush)) = some (1#4, some 0x64#8) := by decide

/-- Section 2.5, `HEXS 0x0000ABCD`: byte 7 is `b`, byte 8 a space. -/
theorem test_hexspaced_digit :
    (nextOf (exec (.hexspaced 0xABCD) (encState .hexs 7#4 0xABCD 0#4 0 false))).map (fun t => t.encOut.outPush) =
      some (some 0x62#8) := by decide

theorem test_hexspaced_space :
    (nextOf (exec (.hexspaced 0xABCD) (encState .hexs 8#4 0xABCD 0#4 0 false))).map (fun t => t.encOut.outPush) =
      some (some 0x20#8) := by decide

/-- Section 2.5, reserved tags. -/
theorem test_reservedTag : faultOf (step (withQueues [0x3000000041] [] State.reset)) = some .reservedTag := by decide

/-- Section 2.3. -/
theorem test_decBytes : decBytes 105 = [0x31#8, 0x30#8, 0x35#8] := by decide

/-- Section 2.5, `HEXS 0x01020304`. -/
theorem test_outBytes : outBytes Config.reference 0x7001020304 =
    [0x30, 0x31, 0x20, 0x30, 0x32, 0x20, 0x30, 0x33, 0x20, 0x30, 0x34, 0x20] := by decide

/-! ## FIFOs: section 2.6, depth 2 -/

/-- Tick 3: a push on a full queue is rejected. -/
theorem test_fifo_push_full :
    (nextOf (exec (.fifoPush .outq 0x33) (depthTwo (withQueues [] [0x31, 0x32] State.reset)))).map State.outq =
      some [0x31, 0x32] := by decide

/-- Tick 4: on a full queue only the pop succeeds. -/
theorem test_fifo_pushpop_full :
    (nextOf (exec (.fifoPushpop .outq 0x33) (depthTwo (withQueues [] [0x31, 0x32] State.reset)))).map
      (fun t => (t.outq, t.outTaken)) = some ([0x32], .entry 0x31) := by decide

/-- Tick 7: both succeed. -/
theorem test_fifo_pushpop :
    (nextOf (exec (.fifoPushpop .outq 0x34) (depthTwo (withQueues [] [0x33] State.reset)))).map State.outq =
      some [0x34] := by decide

/-- Tick 8. -/
theorem test_fifo_pop :
    (nextOf (exec (.fifoPop .outq) (depthTwo (withQueues [] [0x34] State.reset)))).map (fun t => (t.outq, t.outTaken)) =
      some ([], .entry 0x34) := by decide

theorem test_fifo_idle :
    (nextOf (exec (.fifoIdle .outq) (depthTwo (withQueues [] [0x33] State.reset)))).map State.outq = some [0x33] := by decide

theorem test_fifo_reset :
    (nextOf (exec (.fifoReset .cmdq) (withQueues [0x500000001B] [] State.reset))).map State.cmdq = some [] := by decide

/-! ## The step -/

/-- A command word placed where the step fetches it is dispatched. -/
theorem test_fetch_command : (after (State.reset.withFetchWord 40 0x500000001B)).enc =
    { mode := .dec, pos := 0#4, pl := 27 } := by decide

/-- A control word placed there is ENG's operation of the tick (V3 from ADVANCE). -/
theorem test_fetch_control :
    (after ((engState .loaded 6 0 false false).withFetchWord 8 0b001)).eng.value = 3 := by decide

/-- DEC's call of MAG and EXT. -/
theorem test_fetch_function : (after (State.reset.withFetchWord 0 9)).func.row = multiplesRow 9 := by decide

/-- A build outside rule R5 is refused. -/
theorem test_refused_parameters : nextOf (step { State.reset with cfg := { Config.reference with P := 31 } }) = none := by
  decide

/-! ## Witnesses of the obligations' hypotheses, at boundary values -/

/-- The invariant of a state with an empty trace, from conditions that evaluate. -/
theorem inv_of_empty_trace (s : State) (ht : s.eng.trace = []) (hr : s.eng.runTrace = []) (hp : s.cfg.Valid)
    (he : s.eng.value < 2 ^ s.cfg.W ∧ s.eng.steps < 2 ^ s.cfg.C ∧ (s.eng.overflow = false ∨ s.eng.exhausted = false) ∧
      (s.eng.phase = .loaded → s.eng.steps = 0 ∧ s.eng.overflow = false ∧ s.eng.exhausted = false) ∧
      (s.eng.overflow = true ∨ s.eng.exhausted = true → s.eng.phase = .active ∧ s.eng.value = 1))
    (hc : s.enc.pl < 2 ^ s.cfg.P ∧ s.dec.rem < 2 ^ s.cfg.P ∧ (s.enc.mode = .verb → s.enc.pos.toNat ≤ 3) ∧
      (s.enc.mode = .hex → s.enc.pos.toNat ≤ 8) ∧ (s.enc.mode = .hexs → s.enc.pos.toNat ≤ 11) ∧
      (s.enc.mode = .dec → s.dec.idx.toNat ≤ 9))
    (hq : s.cmdq.length ≤ s.cfg.cmdDepth ∧ (∀ r ∈ s.cmdq, r < 2 ^ (s.cfg.P + 5)) ∧ s.outq.length ≤ s.cfg.outDepth)
    (hd : s.env.drv.trial < 2 ^ s.cfg.W ∧ s.env.drv.bestLength < 2 ^ s.cfg.C ∧ s.env.drv.bestTrial < 2 ^ s.cfg.W ∧
      s.env.drv.recordCount < 2 ^ s.cfg.P ∧ s.env.drv.pending.length ≤ 4 ∧
      ∀ r ∈ s.env.drv.pending, r < 2 ^ (s.cfg.P + 5)) : Inv s where
  params := hp
  eng :=
    { value_fits := he.1
      steps_fits := he.2.1
      flags_exclusive := fun _ h => by rcases he.2.2.1 with x | x <;> simp [x] at h
      loaded_clean := he.2.2.2.1
      flagged_ended := fun _ => he.2.2.2.2
      trace_wf := by rw [ht]; rfl
      run_wf := by rw [hr]; rfl
      trace_fits := fun i w h => by rw [ht] at h; simp at h
      run_stored := fun i w h => by rw [hr] at h; simp at h
      run_below := fun _ i w h => by rw [hr] at h; simp at h }
  enc := ⟨hc.1, hc.2.1, hc.2.2.1, hc.2.2.2.1, hc.2.2.2.2.1, hc.2.2.2.2.2⟩
  cmdq_depth := hq.1
  cmdq_fits := hq.2.1
  outq_depth := hq.2.2
  drv := ⟨hd.1, hd.2.1, hd.2.2.1, hd.2.2.2.1, hd.2.2.2.2.1, hd.2.2.2.2.2⟩

/-- The smallest build of rule R5. -/
def smallest : Config.Params := { W := 2, C := 1, P := 32, cmdDepth := 1, outDepth := 1 }

/-- A run of 27 after its first step, with its trace (P1, tick 3). -/
def tracedState : State :=
  { engState .active 41 2 false false with
    eng :=
      { value := 41, steps := 2, overflow := false, exhausted := false, phase := .active, trace := [(0, 27)]
        runTrace := [(0, 27)] } }

theorem tracedState_inv : Inv tracedState where
  params := by decide
  eng :=
    { value_fits := by decide
      steps_fits := by decide
      flags_exclusive := by decide
      loaded_clean := by decide
      flagged_ended := by decide
      trace_wf := by decide
      run_wf := by decide
      trace_fits := fun i w h => by
        simp only [tracedState, Memory.read] at h ⊢
        split at h
        · cases h; subst_vars; decide
        · simp at h
      run_stored := fun i w h => h
      run_below := fun _ i w h => by
        simp only [tracedState, Memory.read] at h ⊢
        split at h
        · omega
        · simp at h }
  enc := ⟨by decide, by decide, by decide, by decide, by decide, by decide⟩
  cmdq_depth := by decide
  cmdq_fits := by decide
  outq_depth := by decide
  drv := ⟨by decide, by decide, by decide, by decide, by decide, by decide⟩

/-- ENC rendering `DEC 27`, a record of each proper tag behind it, a byte in OUTQ. -/
def busyState : State :=
  withQueues [0x4000070A0D, 0x60DEADBEEF, 0x7001020304] [0x32#8] (encState .dec 0#4 27 0#4 7 true)

theorem busyState_inv : Inv busyState :=
  inv_of_empty_trace busyState rfl rfl (by decide) (by decide) (by decide) (by decide) (by decide)

theorem busyState_safe : SafeInv busyState := ⟨busyState_inv, by decide, by decide⟩

theorem witness_DecodeEncodeRoundTrip :
    WellFormed Config.reference (.hexspaced (2 ^ 34 - 1)) = true ∧ WellFormed Config.reference (.engLoad (2 ^ 34 - 1)) = true ∧
      WellFormed Config.reference (.fifoPush .cmdq (2 ^ 39 - 1)) = true ∧
      WellFormed Config.reference (.fifoPushpop .outq 255) = true ∧
      WellFormed Config.reference (.extract 15#4 (2 ^ 34 - 1)) = true := by decide

theorem witness_RecordTagSelectsCommand :
    7 < 8 ∧ 3 < 4 ∧ 2 ^ 34 - 1 < 2 ^ Config.reference.P ∧ 0 < 8 ∧ 0 < 4 ∧ 0 < 2 ^ Config.reference.P := by decide

theorem witness_ReservedBitsIgnored :
    7 < 8 ∧ 0 < 4 ∧ 3 < 4 ∧ 2 ^ 34 - 1 < 2 ^ Config.reference.P ∧
      WellFormed Config.reference (.decimal 27) = true ∧ encode Config.reference (.decimal 27) = .cmd 0x500000001B := by
  decide

theorem witness_LoadStartsRun : 2 ^ 34 - 1 < 2 ^ (engState .active 9 5 true false).cfg.W := by decide

theorem witness_IneffectiveAdvance :
    (engState .idle 27 0 false false).eng.phase = .idle ∧
      ((engState .loaded 1 0 false false).eng.phase ≠ .idle ∧ (engState .loaded 1 0 false false).eng.value ≤ 1) := by decide

theorem witness_EvenStepHalves : ∃ s : State, s.eng.phase ≠ .idle ∧ 1 < s.eng.value ∧
    s.eng.steps < 2 ^ s.cfg.C - 2 ∧ s.eng.value % 2 = 0 := ⟨engState .active 2 1021 false false, by decide⟩

theorem witness_OddStepWithinHeadroom : ∃ s : State, 2 ≤ s.cfg.W ∧ s.eng.phase ≠ .idle ∧ 1 < s.eng.value ∧
    s.eng.steps < 2 ^ s.cfg.C - 2 ∧ s.eng.value % 2 = 1 ∧ s.eng.value < 2 ^ (s.cfg.W - 2) :=
  ⟨engState .active 4294967295 1021 false false, by decide⟩

theorem witness_OddStepOverflows : ∃ s : State, 2 ≤ s.cfg.W ∧ s.eng.phase ≠ .idle ∧ 1 < s.eng.value ∧
    s.eng.steps < 2 ^ s.cfg.C - 2 ∧ s.eng.value % 2 = 1 ∧ 2 ^ (s.cfg.W - 2) ≤ s.eng.value ∧
    s.eng.value < 2 ^ s.cfg.W := ⟨engState .active 4294967297 1021 false false, by decide⟩

theorem witness_BudgetExhaustsFirst : ∃ s : State, s.eng.phase ≠ .idle ∧ 1 < s.eng.value ∧
    2 ^ s.cfg.C - 2 ≤ s.eng.steps := ⟨engState .active 8589934593 1022 false false, by decide⟩

theorem witness_StepCounterNeverWraps :
    ∃ s t : State, s.eng.steps < 2 ^ s.cfg.C ∧ exec .engAdvance s = .next t ∧ t.eng.steps = 2 ^ s.cfg.C - 1 :=
  ⟨engState .active 7 1021 false false, _, by decide, rfl, by decide⟩

theorem witness_RunEndsWithinBudget : ∃ s : State, s.cfg.Valid ∧ 1 ≤ 2 ^ 34 - 1 ∧ 2 ^ 34 - 1 < 2 ^ s.cfg.W ∧
    justLoaded (2 ^ 34 - 1) s.eng = true := ⟨engState .loaded (2 ^ 34 - 1) 0 false false, by decide⟩

theorem witness_RunFollowsShortcutTrajectory : ∃ s : State, s.cfg.Valid ∧ 1 ≤ 27 ∧ 27 < 2 ^ s.cfg.W ∧
    justLoaded 27 s.eng = true ∧ ∀ m, m < 6 → goesOn s.cfg (shortcut 27 m) = true :=
  ⟨engState .loaded 27 0 false false, by decide⟩

/-- Normal completion: trial 2. -/
theorem witness_RunOutcome_normal : ∃ s : State, s.cfg.Valid ∧ 1 ≤ 2 ∧ 2 < 2 ^ s.cfg.W ∧ justLoaded 2 s.eng = true ∧
    (∀ m, m < 1 → goesOn s.cfg (shortcut 2 m) = true) ∧ goesOn s.cfg (shortcut 2 1) = false ∧ (shortcut 2 1).1 = 1 :=
  ⟨engState .loaded 2 0 false false, by decide⟩

/-- Exhaustion: V23, C = 1. -/
theorem witness_RunOutcome_exhausted : ∃ s : State, s.cfg.Valid ∧ 1 ≤ 6 ∧ 6 < 2 ^ s.cfg.W ∧ justLoaded 6 s.eng = true ∧
    (∀ m, m < 0 → goesOn s.cfg (shortcut 6 m) = true) ∧ goesOn s.cfg (shortcut 6 0) = false ∧
    2 ^ s.cfg.C - 2 ≤ (shortcut 6 0).2 :=
  ⟨{ engState .loaded 6 0 false false with cfg := { Config.reference with C := 1 } }, by decide⟩

/-- Overflow: V24, W = 2. -/
theorem witness_RunOutcome_overflow : ∃ s : State, s.cfg.Valid ∧ 1 ≤ 3 ∧ 3 < 2 ^ s.cfg.W ∧ justLoaded 3 s.eng = true ∧
    (∀ m, m < 0 → goesOn s.cfg (shortcut 3 m) = true) ∧ goesOn s.cfg (shortcut 3 0) = false ∧
    ¬2 ^ s.cfg.C - 2 ≤ (shortcut 3 0).2 :=
  ⟨{ engState .loaded 3 0 false false with cfg := { Config.reference with W := 2 } }, by decide⟩

theorem witness_RunFromZeroHangs : ∃ s : State, s.eng.phase ≠ .idle ∧ s.eng.value = 0 :=
  ⟨engState .loaded 0 0 false false, by decide⟩

theorem witness_CompletionPersists : ∃ s t : State, step s = .next t ∧ doneO s = true ∧ (tickInput s).rst = false ∧
    (tickInput s).engCtrl.getLsbD 1 = false ∧ (tickInput s).engCtrl.getLsbD 0 = true :=
  ⟨withInput (ctrlInput 0b001#3 0) (engState .active 1 111 false false), _, rfl, by decide⟩

theorem witness_TracePortShowsRunWords : ∃ s t : State, Inv s ∧ step s = .next t ∧ engInstr s = .engAdvance ∧
    s.eng.phase ≠ .idle ∧ 1 < s.eng.value ∧ s.eng.runTrace.read 0 = some 27 :=
  ⟨withInput (ctrlInput 0b001#3 0) tracedState, _,
    { params := tracedState_inv.params, eng := tracedState_inv.eng, enc := tracedState_inv.enc
      cmdq_depth := tracedState_inv.cmdq_depth, cmdq_fits := tracedState_inv.cmdq_fits
      outq_depth := tracedState_inv.outq_depth, drv := tracedState_inv.drv }, rfl, by decide⟩

/-- LOAD; a reset; a stale index below the count; and a tick with ENG on hold. -/
theorem witness_StaleTraceWordsDrawnAfresh :
    (∃ t : State, exec (.engLoad 8) tracedState = .next t) ∧ (∃ t : State, exec .engReset tracedState = .next t) ∧
    tracedState.eng.runTrace.read 1 = none ∧ 1 < tracedState.eng.steps ∧
    (∃ t : State, exec .engAdvance tracedState = .next t) ∧ (∃ t : State, exec .engHold tracedState = .next t) ∧
    (∃ t : State, step tracedState = .next t ∧ engInstr tracedState = .engHold) :=
  ⟨⟨_, rfl⟩, ⟨_, rfl⟩, by decide, by decide, ⟨_, rfl⟩, ⟨_, rfl⟩, ⟨_, rfl, by decide⟩⟩

theorem witness_MultiplesRowExact : (9#4).toNat ≤ 9 ∧ (0#4).toNat ≤ 9 := by decide

/-- A digit that is found at the tie, the largest one, and none. -/
theorem witness_ExtractScansDescending :
    ((9#4).toNat ≤ 9 ∧ 1 ≤ 9 ∧ 9 ≤ 9 ∧ 9 * 10 ^ (9#4).toNat ≤ 9000000000 ∧
      ∀ j, 9 < j → j ≤ 9 → 9000000000 < j * 10 ^ (9#4).toNat) ∧
    ((2#4).toNat ≤ 9 ∧ 5 * 10 ^ (2#4).toNat ≤ 500 ∧ ∀ j, 5 < j → j ≤ 9 → 500 < j * 10 ^ (2#4).toNat) ∧
    ∀ k, 1 ≤ k → k ≤ 9 → 7 < k * 10 ^ (1#4).toNat :=
  ⟨⟨by decide, by decide, by decide, by decide, fun j h1 h2 => by omega⟩,
    ⟨by decide, by decide, fun j h1 h2 => by simp; omega⟩, fun k h1 h2 => by simp; omega⟩

theorem witness_ExtractClosedForm : (9#4).toNat ≤ 9 ∧ 9999999999 < 10 ^ ((9#4).toNat + 1) := by decide

theorem witness_IndexOutsideDomainFaults : 9 < (10#4).toNat ∧ 9 < (15#4).toNat := by decide

/-- A record and the last free byte of OUTQ; no record; OUTQ full. -/
theorem witness_CommandsDispatch :
    (∃ s : State, s.enc.mode = .ready ∧ 2 ^ 34 - 1 < 2 ^ s.cfg.P ∧ s.cmdq ≠ [] ∧ s.outq.length < s.cfg.outDepth) ∧
    (∃ s : State, s.enc.mode = .ready ∧ 0 < 2 ^ s.cfg.P ∧ s.cmdq = []) ∧
    (∃ s : State, s.enc.mode = .ready ∧ 0 < 2 ^ s.cfg.P ∧ s.cfg.outDepth ≤ s.outq.length) :=
  ⟨⟨withQueues [0x53FFFFFFFF] [1, 2, 3] State.reset, by decide⟩, ⟨State.reset, by decide⟩,
    ⟨withQueues [0x53FFFFFFFF] [1, 2, 3, 4] State.reset, by decide⟩⟩

/-- The last position, a zero byte with OUTQ full; the first, a byte with room; a byte with OUTQ full. -/
theorem witness_VerbatimPosition :
    (∃ s : State, s.enc.mode = .verb ∧ s.enc.pos.toNat = 3 ∧ s.enc.pl / 256 ^ s.enc.pos.toNat % 256 = 0 ∧
      s.cfg.outDepth ≤ s.outq.length) ∧
    (∃ s : State, s.enc.mode = .verb ∧ s.enc.pos.toNat = 0 ∧ s.enc.pl / 256 ^ s.enc.pos.toNat % 256 ≠ 0 ∧
      s.outq.length < s.cfg.outDepth) ∧
    (∃ s : State, s.enc.mode = .verb ∧ s.enc.pos.toNat ≤ 3 ∧ s.enc.pl / 256 ^ s.enc.pos.toNat % 256 ≠ 0 ∧
      s.cfg.outDepth ≤ s.outq.length) :=
  ⟨⟨withQueues [] [1, 2, 3, 4] (encState .verb 3#4 0x00070A0D 0#4 0 false), by decide⟩,
    ⟨encState .verb 0#4 0x00070A0D 0#4 0 false, by decide⟩,
    ⟨withQueues [] [1, 2, 3, 4] (encState .verb 0#4 0x00070A0D 0#4 0 false), by decide⟩⟩

/-- A leading zero; a digit with room; the units with OUTQ full. -/
theorem witness_DecimalPosition :
    (∃ s : State, s.enc.mode = .dec ∧ s.dec.idx.toNat = 9 ∧ 0 = min 9 (s.dec.rem / 10 ^ s.dec.idx.toNat) ∧
      s.dec.started = false) ∧
    (∃ s : State, s.enc.mode = .dec ∧ s.dec.idx.toNat = 9 ∧ 9 = min 9 (s.dec.rem / 10 ^ s.dec.idx.toNat) ∧
      s.outq.length < s.cfg.outDepth) ∧
    (∃ s : State, s.enc.mode = .dec ∧ s.dec.idx.toNat = 0 ∧ 0 = min 9 (s.dec.rem / 10 ^ s.dec.idx.toNat) ∧
      s.cfg.outDepth ≤ s.outq.length) :=
  ⟨⟨encState .dec 0#4 105 9#4 105 false, by decide⟩, ⟨encState .dec 0#4 0 9#4 (2 ^ 34 - 1) false, by decide⟩,
    ⟨withQueues [] [1, 2, 3, 4] (encState .dec 0#4 0 0#4 0 false), by decide⟩⟩

theorem witness_DecimalTrailingSpace :
    (encState .decsp 0#4 27 0#4 0 true).enc.mode = .decsp := by decide

theorem witness_HexPosition :
    (∃ s : State, s.enc.mode = .hex ∧ s.enc.pos.toNat = 0 ∧ 0xD = s.enc.pl / 16 ^ (7 - 0) % 16 ∧
      s.outq.length < s.cfg.outDepth) ∧
    (∃ s : State, s.enc.mode = .hex ∧ s.enc.pos.toNat = 8 ∧ s.cfg.outDepth ≤ s.outq.length) :=
  ⟨⟨encState .hex 0#4 0xDEADBEEF 0#4 0 false, by decide⟩,
    ⟨withQueues [] [1, 2, 3, 4] (encState .hex 8#4 0xDEADBEEF 0#4 0 false), by decide⟩⟩

theorem witness_HexspacedPosition :
    (∃ s : State, s.enc.mode = .hexs ∧ s.enc.pos.toNat = 10 ∧ 0xF = s.enc.pl / 16 ^ (7 - (2 * (10 / 3) + 10 % 3)) % 16) ∧
    (∃ s : State, s.enc.mode = .hexs ∧ s.enc.pos.toNat = 11 ∧ s.cfg.outDepth ≤ s.outq.length) :=
  ⟨⟨encState .hexs 10#4 0xDEADBEEF 0#4 0 false, by decide⟩,
    ⟨withQueues [] [1, 2, 3, 4] (encState .hexs 11#4 0xDEADBEEF 0#4 0 false), by decide⟩⟩

theorem witness_ReservedTagFaults : ∃ s : State, s.cfg.Valid ∧ (tickInput s).rst = false ∧ s.enc.mode = .ready ∧
    s.cmdq = 0x3000000041 :: [] ∧ recTag s.cfg 0x3000000041 < 4 ∧ s.outq.length < s.cfg.outDepth :=
  ⟨withQueues [0x3000000041] [1, 2, 3] State.reset, by decide⟩

theorem witness_FullOutputStalls : ∃ s t : State, step s = .next t ∧ (tickInput s).rst = false ∧
    s.cfg.outDepth ≤ s.outq.length ∧ mustEmit s = true :=
  ⟨withQueues [] [1, 2, 3, 4] (encState .dec 0#4 27 1#4 27 false), _, rfl, by decide⟩

theorem witness_DecimalNumeral : 9999999999 ≤ 9999999999 ∧ (decBytes 0).head? = some 0x30#8 := by decide

theorem witness_DecimalSaturates : 9999999999 ≤ 9999999999 ∧ 9999999999 ≤ 2 ^ 34 - 1 := by decide

theorem witness_ProtocolRoundTrip : Config.reference.Valid ∧ 3 < 4 ∧ 9999999999 < 2 ^ Config.reference.P ∧
    9999999999 ≤ 9999999999 ∧ 2 ^ 34 - 1 < 2 ^ Config.reference.P := by decide

theorem witness_EmittedByteCodes :
    (∃ s t : State, step s = .next t ∧ t.encOut.outPush = some 0x64#8 ∧ s.enc.mode = .hex) ∧
    (∃ s t : State, step s = .next t ∧ t.encOut.outPush = some 0x0D#8 ∧ s.enc.mode = .verb) :=
  ⟨⟨encState .hex 0#4 0xDEADBEEF 0#4 0 false, _, rfl, by decide⟩,
    ⟨encState .verb 0#4 0x00070A0D 0#4 0 false, _, rfl, by decide⟩⟩

/-- In a rendering, and at a dispatch. -/
theorem witness_ReferenceSchedule :
    (∃ s t : State, Inv s ∧ step s = .next t ∧ (tickInput s).rst = false ∧ s.outq.length < s.cfg.outDepth ∧
      s.enc.mode ≠ .ready) ∧
    (∃ s t : State, Inv s ∧ step s = .next t ∧ (tickInput s).rst = false ∧ s.outq.length < s.cfg.outDepth ∧
      s.enc.mode = .ready ∧ s.cmdq = 0x7001020304 :: []) :=
  ⟨⟨busyState, _, busyState_inv, rfl, by decide⟩,
    ⟨withQueues [0x7001020304] [1, 2, 3] State.reset, _,
      inv_of_empty_trace _ rfl rfl (by decide) (by decide) (by decide) (by decide) (by decide), rfl, by decide⟩⟩

theorem witness_FifoPushRule : 2 ^ 39 - 1 < 2 ^ (State.reset.cfg.P + 5) ∧ 255 < 256 := by decide

theorem witness_FifoPopRule : busyState.cmdq = 0x4000070A0D :: [0x60DEADBEEF, 0x7001020304] ∧
    busyState.outq = 0x32#8 :: [] ∧ State.reset.cmdq = [] ∧ State.reset.outq = [] := by decide

theorem witness_FifoPushpopRule : busyState.cfg.Valid ∧ 2 ^ 39 - 1 < 2 ^ (busyState.cfg.P + 5) ∧ 255 < 256 ∧
    busyState.cmdq = 0x4000070A0D :: [0x60DEADBEEF, 0x7001020304] ∧ busyState.outq = 0x32#8 :: [] ∧
    State.reset.cmdq = [] ∧ State.reset.outq = [] := by decide

theorem witness_FifoOrderLaw : [1, 2].length ≤ 2 := by decide

/-- A full ring whose read pointer is at its last cell. -/
theorem witness_RingRefinesFifo : 1 ≤ 2 ∧ RingBuffer.Wf 2 { mem := [0x31, 0x32], rd := 1, wr := 1, cnt := 2 } :=
  ⟨by decide, by decide, by decide, by decide, by decide⟩

/-- Both queues empty with a push and a blind pop; CMDQ full with a push. -/
theorem witness_NoSameTickBypass :
    (∃ s t : State, step s = .next t ∧ (tickInput s).rst = false ∧ s.outq = [] ∧ s.cmdq = [] ∧
      (tickInput s).push = true ∧ xportPops (tickInput s).xport s = true) ∧
    (∃ s t : State, step s = .next t ∧ (tickInput s).rst = false ∧ s.cfg.cmdDepth ≤ s.cmdq.length ∧
      (tickInput s).push = true ∧ t.encOut.cmdPop = true) :=
  ⟨⟨withInput { TickInput.idle with push := true, din := 5, xport := .popDiscard } State.reset, _, rfl, by decide⟩,
    ⟨withInput { TickInput.idle with push := true, din := 5 }
      (withQueues [0x4000070A0D, 0x60DEADBEEF, 0x7001020304, 0x500000001B] [] State.reset), _, rfl, by decide⟩⟩

/-- A reset tick; a hold; a command; a record at CMDQ's head; a command that faults. -/
theorem witness_StepRunsDecodedOperations :
    (∃ s t : State, step s = .next t ∧ (tickInput s).rst = true) ∧
    (∃ s t : State, step s = .next t ∧ (tickInput s).rst = false ∧ encInstr s = none) ∧
    (∃ s t : State, step s = .next t ∧ (tickInput s).rst = false ∧ encInstr s = some (.decimal 27)) ∧
    (∃ s : State, s.enc.mode = .ready ∧ s.cmdq = 0x500000001B :: [] ∧ s.outq.length < s.cfg.outDepth ∧
      decode s.cfg (.cmd 0x500000001B) = .ok (.decimal 27)) ∧
    (∃ s : State, s.cfg.Valid ∧ (tickInput s).rst = false ∧ encInstr s = some (.cmdReservedTag 3#2 0x41) ∧
      exec (.cmdReservedTag 3#2 0x41) s = .fault .reservedTag) :=
  ⟨⟨withInput (ctrlInput 0b100#3 0) busyState, _, rfl, by decide⟩, ⟨State.reset, _, rfl, by decide⟩,
    ⟨busyState, _, rfl, by decide⟩, ⟨withQueues [0x500000001B] [] State.reset, by decide, by decide, by decide, rfl⟩,
    ⟨withQueues [0x3000000041] [] State.reset, by decide, by decide, by decide, rfl⟩⟩

theorem witness_StepKeepsInvariant : ∃ s t : State, Inv s ∧ step s = .next t ∧ s.enc.mode = .dec ∧ s.cmdq ≠ [] :=
  ⟨busyState, _, busyState_inv, rfl, by decide⟩

theorem witness_ResetMeetsInvariants : Config.reference.Valid ∧ smallest.Valid := by decide

/-- With a push of DRV, a pop of XPORT and an advance. -/
theorem witness_ContractExcludesFaults : ∃ s : State, SafeInv s ∧ Contract s ∧ (tickInput s).push = true ∧
    xportPops (tickInput s).xport s = true :=
  ⟨withInput { TickInput.idle with engCtrl := 0b001#3, push := true, din := 0x500000001B, xport := .take } busyState,
    ⟨inv_of_empty_trace _ rfl rfl (by decide) (by decide) (by decide) (by decide) (by decide), by decide, by decide⟩,
    ⟨by decide, by decide, by decide⟩, by decide⟩

theorem witness_ResetTickResetsEveryBlock : ∃ s : State, s.cfg.Valid ∧ (tickInput s).rst = true ∧ s.cmdq ≠ [] ∧
    s.outq ≠ [] := ⟨withInput (ctrlInput 0b111#3 5) busyState, by decide⟩

/-- A tick that emits, and a quiescent state after a byte. -/
theorem witness_ByteStreamConserved :
    (∃ s t : State, Inv s ∧ ByteStream s ∧ step s = .next t ∧ t.encOut.outPush = some 0x37#8) ∧
    (∃ s : State, ByteStream s ∧ quiescent s = true ∧ s.env.popped = [0x58#8]) :=
  ⟨⟨{ encState .dec 0#4 27 0#4 7 true with
        outq := [0x32#8], env := { State.reset.env with pushed := [0x500000001B] } }, _,
      inv_of_empty_trace _ rfl rfl (by decide) (by decide) (by decide) (by decide) (by decide), by unfold ByteStream; decide,
      rfl, by decide⟩,
    ⟨{ State.reset with env := { State.reset.env with popped := [0x58#8], pushed := [0x4000000058] } },
      by unfold ByteStream; decide, by decide⟩⟩

theorem witness_OperationsWriteOwnBlock : ∃ t : State, exec (.decimal 27) busyState = .next t ∧ t.enc.mode = .decsp :=
  ⟨_, rfl, by decide⟩

theorem witness_FullOutputHoldsCommands : ∃ s t : State, step s = .next t ∧ (tickInput s).rst = false ∧
    s.cfg.outDepth ≤ s.outq.length ∧ s.enc.mode = .ready ∧ s.cmdq ≠ [] :=
  ⟨withQueues [0x500000001B] [1, 2, 3, 4] State.reset, _, rfl, by decide⟩

/-- D_IDLE with the start byte, with another, with none; D_LOAD at the last trial; D_RUN. -/
theorem witness_DriverLoadsAndRuns :
    (∃ s t : State, step s = .next t ∧ s.env.drvOn = true ∧ (tickInput s).rst = false ∧ s.env.drv.mode = .dIdle ∧
      s.env.inq = 65#8 :: [65#8]) ∧
    (∃ s t : State, step s = .next t ∧ s.env.drvOn = true ∧ (tickInput s).rst = false ∧ s.env.drv.mode = .dIdle ∧
      s.env.inq = 0x7A#8 :: []) ∧
    (∃ s t : State, step s = .next t ∧ s.env.drvOn = true ∧ (tickInput s).rst = false ∧ s.env.drv.mode = .dIdle ∧
      s.env.inq = []) ∧
    (∃ s t : State, step s = .next t ∧ s.env.drvOn = true ∧ (tickInput s).rst = false ∧ s.env.drv.mode = .dLoad ∧
      s.env.drv.trial = 2 ^ s.cfg.W - 1) ∧
    (∃ s t : State, step s = .next t ∧ s.env.drvOn = true ∧ (tickInput s).rst = false ∧ s.env.drv.mode = .dRun ∧
      doneO s = false) :=
  ⟨⟨{ State.reset with env := { State.reset.env with drvOn := true, inq := [65#8, 65#8] } }, _, rfl, by decide⟩,
    ⟨{ State.reset with env := { State.reset.env with drvOn := true, inq := [0x7A#8] } }, _, rfl, by decide⟩,
    ⟨driving .dIdle State.reset, _, rfl, by decide⟩,
    ⟨{ State.reset with
        env :=
          { State.reset.env with
            drvOn := true, drv := { Driver.reset with mode := .dLoad, trial := 2 ^ 34 - 1 } } }, _, rfl, by decide⟩,
    ⟨driving .dRun (engState .active 41 2 false false), _, rfl, by decide⟩⟩

/-- Overflow, exhaustion, a longer trajectory, and one no longer. -/
theorem witness_DriverReportsByOutcome :
    (∃ s t : State, step s = .next t ∧ s.env.drvOn = true ∧ (tickInput s).rst = false ∧ s.env.drv.mode = .dRun ∧
      doneO s = true ∧ s.eng.overflow = true) ∧
    (∃ s t : State, step s = .next t ∧ s.env.drvOn = true ∧ (tickInput s).rst = false ∧ s.env.drv.mode = .dRun ∧
      doneO s = true ∧ s.eng.overflow = false ∧ s.eng.exhausted = true) ∧
    (∃ s t : State, step s = .next t ∧ s.env.drvOn = true ∧ (tickInput s).rst = false ∧ s.env.drv.mode = .dRun ∧
      doneO s = true ∧ s.eng.overflow = false ∧ s.eng.exhausted = false ∧ s.env.drv.bestLength < s.eng.steps) ∧
    (∃ s t : State, step s = .next t ∧ s.env.drvOn = true ∧ (tickInput s).rst = false ∧ s.env.drv.mode = .dRun ∧
      doneO s = true ∧ s.eng.overflow = false ∧ s.eng.exhausted = false ∧ ¬s.env.drv.bestLength < s.eng.steps) :=
  ⟨⟨driving .dRun (engState .active 1 66 true false), _, rfl, by decide⟩,
    ⟨driving .dRun (engState .active 1 1023 false true), _, rfl, by decide⟩,
    ⟨driving .dRun (engState .active 1 111 false false), _, rfl, by decide⟩,
    ⟨driving .dRun (engState .active 1 0 false false), _, rfl, by decide⟩⟩

/-- The reference driver about to push the last record of a report. -/
def reporting (cmdq : List Nat) : State :=
  { State.reset with
    cmdq := cmdq
    env :=
      { State.reset.env with
        drvOn := true, drv := { Driver.reset with mode := .dReport, trial := 27, pending := [0x4000070A0D] } } }

theorem reporting_inv_room : Inv (reporting []) :=
  inv_of_empty_trace _ rfl rfl (by decide) (by decide) (by decide) (by decide) (by decide)

theorem reporting_inv_full : Inv (reporting (List.replicate 4 0x4000000058)) :=
  inv_of_empty_trace _ rfl rfl (by decide) (by decide) (by decide) (by decide) (by decide)

/-- The last record with room; a record with CMDQ full; and a safe state with the driver on. -/
theorem witness_DriverEnqueuesReport :
    (∃ s t : State, Inv s ∧ step s = .next t ∧ s.env.drvOn = true ∧ (tickInput s).rst = false ∧
      s.env.drv.mode = .dReport ∧ s.env.drv.pending = 0x4000070A0D :: [] ∧ s.cmdq.length < s.cfg.cmdDepth) ∧
    (∃ s t : State, Inv s ∧ step s = .next t ∧ s.env.drvOn = true ∧ (tickInput s).rst = false ∧
      s.env.drv.mode = .dReport ∧ s.env.drv.pending = 0x4000070A0D :: [] ∧ s.cfg.cmdDepth ≤ s.cmdq.length) ∧
    (∃ s : State, SafeInv s ∧ s.env.drvOn = true ∧ s.env.drv.mode = .dReport ∧ s.env.drv.pending ≠ []) :=
  ⟨⟨reporting [], _, reporting_inv_room, rfl, by decide⟩,
    ⟨reporting (List.replicate 4 0x4000000058), _, reporting_inv_full, rfl, by decide⟩,
    ⟨reporting [], ⟨reporting_inv_room, by decide, by decide⟩, by decide⟩⟩

end Sys2Proof.Tests
end

section
/-! ## Encodings: a record's tag selects its command -/

open Sys2Proof Sys2Proof.Machine

namespace Sys2Proof.Machine

/-- `decode` accepts a record that fits its `P + 5` bits (rule R70). -/
theorem decode_cmd_of_lt {p : Config.Params} {rec : Nat} (h : rec < 2 ^ (p.P + 5)) :
    decode p (.cmd rec) = .ok (decodeCmd p rec) := if_pos h

/-- Decoding reads the tag and the payload that `packRecord` put in, and nothing of `rsv` (rules R71, R73). -/
theorem decodeCmd_packRecord (p : Config.Params) {tag rsv pl : Nat} (ht : tag < 8) (hr : rsv < 4) (hp : pl < 2 ^ p.P) :
    decodeCmd p (packRecord p tag rsv pl) =
      if tag = 4 then .verbatim pl
      else if tag = 5 then .decimal pl
      else if tag = 6 then .hex pl
      else if tag = 7 then .hexspaced pl
      else .cmdReservedTag (BitVec.ofNat 2 tag) pl := by
  obtain ⟨-, htag, -, hpayload⟩ := packRecord_fields p ht hr hp
  rw [decodeCmd_eq, htag, hpayload]

end Sys2Proof.Machine

/-- Settles O3: the packed record fits its width, so `decode` accepts it, and its fields read back as they were packed. -/
theorem recordTagSelectsCommand : Obligations.RecordTagSelectsCommand := by
  intro p tag rsv pl ht hr hp
  obtain ⟨hfits, -⟩ := packRecord_fields p ht hr hp
  refine ⟨hfits, ?_⟩
  rw [decode_cmd_of_lt hfits, decodeCmd_packRecord p ht hr hp]

end

section
/-! ## MAG and EXT: the row and the descending scan -/

open Sys2Proof Sys2Proof.Machine

namespace Sys2Proof.Machine

/-- MULTIPLES in its domain shows the row of its index (rule R90). -/
theorem exec_multiples_of_le {i : Nibble} (hi : i.toNat ≤ 9) (s : State) :
    exec (.multiples i) s = .next { s with func := { s.func with row := multiplesRow i.toNat } } := if_pos hi

/-- EXTRACT in its domain shows the row, the digit and the remainder of its value (rule R92). -/
theorem exec_extract_of_le {i : Nibble} (hi : i.toNat ≤ 9) (v : Nat) (s : State) :
    exec (.extract i v) s =
      .next { s with
        func :=
          { row := multiplesRow i.toNat
            digit := (extractDigit i.toNat v).1
            remainder := (extractDigit i.toNat v).2 } } :=
  (extractOp_eq i v s).trans (if_pos hi)

/-- At an index up to 9 no entry of the row exceeds `9 * 10^9`, so each fits 34 bits (rule R90). -/
theorem lt_of_mem_multiplesRow {i m : Nat} (hi : i ≤ 9) (hm : m ∈ multiplesRow i) : m < 2 ^ 34 := by
  obtain ⟨k, hk, rfl⟩ := List.mem_map.mp hm
  have hk9 : k + 1 ≤ 9 := List.mem_range.mp hk
  calc (k + 1) * 10 ^ i ≤ 9 * 10 ^ 9 := Nat.mul_le_mul hk9 (Nat.pow_le_pow_right (by decide) hi)
    _ < 2 ^ 34 := by decide

/-- The extracted digit is the only `k` up to 9 whose multiple the value reaches while it stays below every larger one.
At `k = 0` this is the scan in which no entry matches. -/
theorem extractDigit_eq_of_largest {i v k : Nat} (hk : k ≤ 9) (hle : k * 10 ^ i ≤ v)
    (hlargest : ∀ j, k < j → j ≤ 9 → v < j * 10 ^ i) : extractDigit i v = (k, v - k * 10 ^ i) := by
  obtain ⟨hd9, hdle, hrem, hnext⟩ := extractDigit_spec i v
  have hdk : (extractDigit i v).1 ≤ k := by
    by_contra hlt
    exact absurd hdle (Nat.not_le.mpr (hlargest _ (Nat.lt_of_not_le hlt) hd9))
  have hkd : k ≤ (extractDigit i v).1 := by
    by_contra hlt
    have hdk' : (extractDigit i v).1 + 1 ≤ k := Nat.lt_of_not_le hlt
    have hv : v < k * 10 ^ i :=
      (hnext (Nat.lt_of_lt_of_le hdk' hk)).trans_le (Nat.mul_le_mul_right _ hdk')
    exact absurd hle (Nat.not_le.mpr hv)
  have hdigit : (extractDigit i v).1 = k := Nat.le_antisymm hdk hkd
  exact Prod.ext hdigit (hdigit ▸ hrem)

end Sys2Proof.Machine

/-- Settles O22: the scan's digit is the largest one that fits, and where none from 1 to 9 fits, that digit is 0. -/
theorem extractScansDescending : Obligations.ExtractScansDescending := by
  intro s i v hi
  obtain ⟨hdigit, -, hrem, -⟩ := extractDigit_spec i.toNat v
  refine ⟨_, exec_extract_of_le hi v s, rfl, hdigit, hrem ▸ Nat.sub_le _ _, ?largest, ?none⟩
  case largest =>
    intro k _ hk9 hle hlargest
    simp [extractDigit_eq_of_largest hk9 hle hlargest]
  case none =>
    intro hnone
    have hzero := extractDigit_eq_of_largest (k := 0) (Nat.zero_le 9) (by simp) hnone
    simp [hzero]

/-- Settles O21: the row is the list of the nine products by definition, and each is at most `9 * 10^9`. -/
theorem multiplesRowExact : Obligations.MultiplesRowExact := by
  intro s i hi
  exact ⟨_, exec_multiples_of_le hi s, rfl, rfl, fun _ hm => lt_of_mem_multiplesRow hi hm⟩

end

section
/-! ## ENC: what it does while OUTQ is full -/

open Sys2Proof Sys2Proof.Machine

namespace Sys2Proof.Machine

/-- OUTQ shows `not_full` exactly while its occupancy is below its depth (rule R33). -/
theorem outqNotFull_iff {s : State} : outqNotFull s = true ↔ s.outq.length < s.cfg.outDepth := decide_eq_true_iff

theorem outqNotFull_eq_false_iff {s : State} : outqNotFull s = false ↔ s.cfg.outDepth ≤ s.outq.length :=
  decide_eq_false_iff_not.trans Nat.not_lt

/-- The bytes still to come are a function of ENC's and DEC's registers (rule R138). -/
theorem pendingBytes_congr {s t : State} (henc : t.enc = s.enc) (hdec : t.dec = s.dec) :
    pendingBytes t = pendingBytes s := by
  unfold pendingBytes
  rw [henc, hdec]

/-- In READY there is no byte to emit. -/
theorem mode_ne_ready_of_mustEmit {s : State} (h : mustEmit s = true) : s.enc.mode ≠ .ready := by
  intro hready
  simp [mustEmit, hready] at h

/-- A zero payload byte is passed over in silence (rule R132). -/
theorem mustEmit_eq_false_of_verb_zero {s : State} (hmode : s.enc.mode = .verb)
    (hzero : payloadByte s.enc.pl s.enc.pos.toNat = 0#8) : mustEmit s = false := by
  simp [mustEmit, hmode, hzero]

/-- A leading zero digit above the last position is passed over in silence (rule R121). -/
theorem mustEmit_eq_false_of_dec_leadingZero {s : State} (hmode : s.enc.mode = .dec)
    (hzero : (extractDigit s.dec.idx.toNat s.dec.rem).1 = 0) (hstarted : s.dec.started = false)
    (hidx : s.dec.idx ≠ 0#4) : mustEmit s = false := by
  simp [mustEmit, hmode, hzero, hstarted, hidx]

/-- Of ENC's ticks without `rst`, the silent ones have nothing to emit and the emitting ones need room: with a byte to emit
and none, the tick is a hold (rule R138). -/
theorem EncCase.holds_of_full {s t : State} (h : EncCase false s t) (hmust : mustEmit s = true)
    (hfull : outqNotFull s = false) : t.enc = s.enc ∧ t.dec = s.dec ∧ t.encOut = EncoderOut.idle := by
  have noRoom : outqNotFull s ≠ true := by simp [hfull]
  have notSilent : mustEmit s ≠ false := by simp [hmust]
  cases h with
  | reset hrst => exact absurd hrst Bool.false_ne_true
  | hold _ enc dec out => exact ⟨enc, dec, out⟩
  | dispatch _ mode => exact absurd mode (mode_ne_ready_of_mustEmit hmust)
  | verbSkip _ mode zero => exact absurd (mustEmit_eq_false_of_verb_zero mode zero) notSilent
  | decSkip _ mode _ zero started idx =>
    exact absurd (mustEmit_eq_false_of_dec_leadingZero mode zero started idx) notSilent
  | verbEmit _ _ _ room => exact absurd room noRoom
  | decEmit _ _ _ _ room => exact absurd room noRoom
  | decspEmit _ _ room => exact absurd room noRoom
  | hexEmit _ _ room => exact absurd room noRoom
  | hexsEmit _ _ room => exact absurd room noRoom

/-- DECIMAL's tick in mode DECSP is the step of its trailing space (rule R134). -/
theorem exec_decimal_of_decsp {s : State} (hmode : s.enc.mode = .decsp) (pl : Nat) :
    exec (.decimal pl) s = .next (decspStep s) := by
  simp only [exec, execDecimal, hmode]

end Sys2Proof.Machine

/-- Settles O32: ENC's tick runs on the registers and OUTQ of the start of the tick, where it can only hold, and the bytes
still to come are read off the registers that the hold keeps. -/
theorem fullOutputStalls : Obligations.FullOutputStalls := by
  intro s t hstep hrst hfull hmust
  obtain ⟨-, -, ⟨d, -, u, henc, tenc, tdec, tout, -⟩, -⟩ := step_fields hstep
  rw [hrst] at henc
  obtain ⟨-, hcase⟩ := encTick_cases henc
  obtain ⟨uenc, udec, uout⟩ := hcase.holds_of_full hmust (outqNotFull_eq_false_iff.mpr hfull)
  have tsenc : t.enc = s.enc := tenc.trans uenc
  have tsdec : t.dec = s.dec := tdec.trans udec
  exact ⟨tsenc, tsdec, tout.trans uout, pendingBytes_congr tsenc tsdec⟩

/-- Settles O28: with room the step emits the space and leaves DECSP, and without room it holds. -/
theorem decimalTrailingSpace : Obligations.DecimalTrailingSpace := by
  intro s pl hmode
  rw [exec_decimal_of_decsp hmode]
  by_cases hroom : s.outq.length < s.cfg.outDepth
  · rw [decspStep, if_pos (outqNotFull_iff.mpr hroom), if_pos hroom]
    rfl
  · rw [decspStep, if_neg (outqNotFull_iff.not.mpr hroom), if_neg hroom]
    rfl

end

section
/-! ## FIFO_CTRL: a push without a pop -/

open Sys2Proof Sys2Proof.Machine

namespace Sys2Proof.Machine

/-- A push alone is judged against the depth: accepted at the tail, or rejected without change (rules R151, R154). -/
theorem fifoNext_push {α : Type} (depth : Nat) (din : α) (l : List α) :
    fifoNext depth false true false din l = if l.length < depth then l ++ [din] else l := by
  simp [fifoNext]

/-- A push port takes an entry of its instance's width as it stands. -/
theorem dinEntry_of_lt {p : Config.Params} {q : QueueId} {din : Nat} (h : din < 2 ^ entryWidth p q) :
    dinEntry p q din = din := trunc_of_lt h

/-- A push alone takes nothing from CMDQ and draws no free value. -/
theorem cmdqTick_push (din : Nat) (s : State) :
    cmdqTick false true false din s = { s with
      cmdq := fifoNext s.cfg.cmdDepth false true false (dinEntry s.cfg .cmdq din) s.cmdq, cmdTaken := .nothing } := rfl

/-- A push alone takes nothing from OUTQ and draws no free value. -/
theorem outqTick_push (din : Nat) (s : State) :
    outqTick false true false din s = { s with
      outq := fifoNext s.cfg.outDepth false true false (BitVec.ofNat 8 (dinEntry s.cfg .outq din)) s.outq
      outTaken := .nothing } := rfl

/-- FIFO_PUSH is the FIFO's tick with the push bit alone (rule R150). -/
theorem exec_fifoPush (q : QueueId) (din : Nat) (s : State) :
    exec (.fifoPush q din) s = .next (fifoTick q false true false din s) := rfl

end Sys2Proof.Machine

/-- Settles O38: on either instance the push is the FIFO's tick with the push bit alone, which stores `din` untruncated
because it fits the instance's width, and takes nothing. -/
theorem fifoPushRule : Obligations.FifoPushRule := by
  intro s din
  refine ⟨fun hcmdq => ?cmdq, fun houtq => ?outq⟩
  case cmdq =>
    have hdin : dinEntry s.cfg .cmdq din = din := dinEntry_of_lt hcmdq
    rw [exec_fifoPush, fifoTick, cmdqTick_push, fifoNext_push, hdin]
  case outq =>
    have hdin : dinEntry s.cfg .outq din = din := dinEntry_of_lt houtq
    rw [exec_fifoPush, fifoTick, outqTick_push, fifoNext_push, hdin]

end

section
/-! ## The reference driver: what it drives in a report, and DRV's duties toward CMDQ -/

open Sys2Proof Sys2Proof.Machine

namespace Sys2Proof.Machine

/-! ### The control vector that the driver drives -/

theorem ctrlVec_bit_zero (rst hi lo : Bool) : (ctrlVec rst hi lo).getLsbD 0 = lo := by
  cases rst <;> cases hi <;> cases lo <;> rfl

theorem ctrlVec_bit_one (rst hi lo : Bool) : (ctrlVec rst hi lo).getLsbD 1 = hi := by
  cases rst <;> cases hi <;> cases lo <;> rfl

/-! ### The step seen from ENG, CMDQ, and the environment's histories -/

/-- CMDQ shows `not_full` exactly while its occupancy is below its depth (rule R33). -/
theorem cmdqNotFull_iff {s : State} : cmdqNotFull s = true ↔ s.cmdq.length < s.cfg.cmdDepth := decide_eq_true_iff

/-- A control vector without an operation bit leaves ENG as it is (rule R109). -/
theorem step_eng_of_hold {s t : State} (h : step s = .next t) (hrst : (tickInput s).rst = false)
    (hload : (tickInput s).engCtrl.getLsbD 1 = false) (hadvance : (tickInput s).engCtrl.getLsbD 0 = false) :
    t.eng = s.eng := by
  obtain ⟨-, -, ⟨d, hexec, -⟩, -⟩ := step_fields h
  obtain ⟨e, d', hexec', -, hcases⟩ := exec_engInstr s
  have hte : t.eng = e := congrArg State.eng (Host.Outcome.next.inj (hexec.symm.trans hexec'))
  rcases hcases with ⟨hreset, -⟩ | ⟨-, hload', -⟩ | ⟨-, -, hadvance', -⟩ | ⟨-, -, -, hold⟩
  · exact absurd (hrst.symm.trans hreset) Bool.false_ne_true
  · exact absurd (hload.symm.trans hload') Bool.false_ne_true
  · exact absurd (hadvance.symm.trans hadvance') Bool.false_ne_true
  · exact hte.trans hold

/-- Without `rst` a FIFO's pop takes the head, if there is one, and its push is stored at the tail, if there was room at the
start of the tick (rule R150). -/
theorem fifoNext_of_no_rst {α : Type} (depth : Nat) (push pop : Bool) (din : α) (l : List α) :
    fifoNext depth false push pop din l =
      (if pop then l.drop 1 else l) ++ (if push && decide (l.length < depth) then [din] else []) := by
  have hkept : (if (pop && decide (0 < l.length)) = true then l.drop 1 else l) = if pop then l.drop 1 else l := by
    cases l <;> cases pop <;> rfl
  simp only [fifoNext, Bool.false_eq_true, if_false, hkept]
  split <;> simp

/-- In a tick without `rst` the reference driver, when it is on, takes its own step (rule R175). -/
theorem step_drv_of_drvOn {s t : State} (h : step s = .next t) (hrst : (tickInput s).rst = false)
    (hon : s.env.drvOn = true) : t.env.drv = driverNext s := by
  obtain ⟨-, -, -, -, -, henv⟩ := step_fields h
  rw [henv]
  simp [envTick, hrst, hon]

/-- In a tick without `rst` the history of accepted records grows by the record that CMDQ accepts (rule R223). -/
theorem step_pushed_of_no_rst {s t : State} (h : step s = .next t) (hrst : (tickInput s).rst = false) :
    t.env.pushed =
      if pushAccepted (tickInput s) s then s.env.pushed ++ [dinEntry s.cfg .cmdq (tickInput s).din]
      else s.env.pushed := by
  obtain ⟨-, -, -, -, -, henv⟩ := step_fields h
  rw [henv]
  simp [envTick, hrst]

/-! ### The driver in D_REPORT -/

/-- With pending records the driver holds ENG and offers the first of them while CMDQ has room (rule R179). -/
theorem tickInput_of_report {s : State} {rec : Nat} {rest : List Nat} (hon : s.env.drvOn = true)
    (hmode : s.env.drv.mode = .dReport) (hpending : s.env.drv.pending = rec :: rest) :
    tickInput s = { scriptInput s with
      engCtrl := ctrlVec (scriptInput s).rst false false, push := cmdqNotFull s, din := rec } := by
  simp [tickInput, driverInput, hon, hmode, hpending]

/-- With room in CMDQ the first pending record leaves the list, and after the last one the next trial is loaded; without
room the driver waits (rule R179). -/
theorem driverNext_of_report {s : State} {rec : Nat} {rest : List Nat} (hmode : s.env.drv.mode = .dReport)
    (hpending : s.env.drv.pending = rec :: rest) :
    driverNext s =
      if cmdqNotFull s then
        { s.env.drv with pending := rest, mode := if rest = [] then .dLoad else .dReport }
      else s.env.drv := by
  simp [driverNext, hmode, hpending]

/-- The reference driver pushes only in D_REPORT, and there its first pending record while CMDQ has room (rules R176 to
R179). -/
theorem driver_push_cases {s : State} (hon : s.env.drvOn = true) :
    (tickInput s).push = false ∨
      (tickInput s).push = cmdqNotFull s ∧ (tickInput s).din ∈ s.env.drv.pending := by
  cases hmode : s.env.drv.mode with
  | dIdle => exact .inl (by simp [tickInput, driverInput, hon, hmode])
  | dLoad => exact .inl (by simp [tickInput, driverInput, hon, hmode])
  | dRun => exact .inl (by simp [tickInput, driverInput, hon, hmode])
  | dReport =>
    cases hpending : s.env.drv.pending with
    | nil => exact .inl (by simp [tickInput, driverInput, hon, hmode, hpending])
    | cons rec rest => exact .inr (by simp [tickInput_of_report hon hmode hpending])

/-- A record of the driver's list, pushed while CMDQ has room, keeps DRV's duties toward CMDQ (rule R171). -/
theorem SafeInv.cmdqDuty_of_drvOn {s : State} (hsafe : SafeInv s) (hon : s.env.drvOn = true) : cmdqDuty s = true := by
  rcases driver_push_cases hon with hquiet | ⟨hpush, hmem⟩
  · simp [cmdqDuty, hquiet]
  · have hproper : properRecord s.cfg (tickInput s).din = true := hsafe.pending_proper _ hmem
    simp [cmdqDuty, hpush, hproper]

/-- The driver's step in D_REPORT with a record pending (rule R179). -/
theorem step_of_report {s t : State} {rec : Nat} {rest : List Nat} (hinv : Inv s) (hstep : step s = .next t)
    (hon : s.env.drvOn = true) (hrst : (tickInput s).rst = false) (hmode : s.env.drv.mode = .dReport)
    (hpending : s.env.drv.pending = rec :: rest) :
    t.eng = s.eng ∧
    (if s.cmdq.length < s.cfg.cmdDepth then
      t.cmdq = (if t.encOut.cmdPop then s.cmdq.drop 1 else s.cmdq) ++ [rec] ∧ t.env.pushed = s.env.pushed ++ [rec] ∧
        t.env.drv = { s.env.drv with pending := rest, mode := if rest = [] then .dLoad else .dReport }
    else t.env.drv = s.env.drv ∧ t.env.pushed = s.env.pushed) := by
  have hinput := tickInput_of_report hon hmode hpending
  have hpush : (tickInput s).push = cmdqNotFull s := by rw [hinput]
  have hdin : (tickInput s).din = rec := by rw [hinput]
  have hfits : rec < 2 ^ entryWidth s.cfg .cmdq := hinv.drv.pending_fits rec (by simp [hpending])
  have hentry : dinEntry s.cfg .cmdq (tickInput s).din = rec := by rw [hdin, dinEntry_of_lt hfits]
  have hdrv := (step_drv_of_drvOn hstep hrst hon).trans (driverNext_of_report hmode hpending)
  have hpushed := step_pushed_of_no_rst hstep hrst
  obtain ⟨-, -, -, hcmdq, -⟩ := step_fields hstep
  rw [hrst, fifoNext_of_no_rst, hentry] at hcmdq
  refine ⟨step_eng_of_hold hstep hrst (by rw [hinput, ctrlVec_bit_one]) (by rw [hinput, ctrlVec_bit_zero]), ?_⟩
  by_cases hroom : s.cmdq.length < s.cfg.cmdDepth
  · have hnotFull : cmdqNotFull s = true := cmdqNotFull_iff.mpr hroom
    rw [if_pos hroom]
    refine ⟨?cmdq, ?pushed, ?drv⟩
    case cmdq => simpa [hpush, hnotFull, hroom] using hcmdq
    case pushed => simpa [pushAccepted, hrst, hpush, hnotFull, hentry] using hpushed
    case drv => simpa [hnotFull] using hdrv
  · have hfull : cmdqNotFull s = false := Bool.eq_false_iff.mpr (cmdqNotFull_iff.not.mpr hroom)
    rw [if_neg hroom]
    refine ⟨?drv, ?pushed⟩
    case drv => simpa [hfull] using hdrv
    case pushed => simpa [pushAccepted, hfull] using hpushed

end Sys2Proof.Machine

/-- Settles O55: the driver offers its first pending record exactly while CMDQ has room, so the record is appended in the tick
in which it leaves the list; and the only record it ever offers is one of that list, which the contract's invariant keeps
proper. -/
theorem driverEnqueuesReport : Obligations.DriverEnqueuesReport :=
  ⟨fun _ _ _ _ => step_of_report, fun _ => SafeInv.cmdqDuty_of_drvOn⟩

end

section
/-! ## ENG: the two errors that end a run -/

open Sys2Proof Sys2Proof.Machine

namespace Sys2Proof.Machine

/-- ADVANCE is ENG's `advanceRun` and one draw of the trace port. -/
theorem exec_engAdvance (s : State) :
    exec .engAdvance s = .next (drawPort { s with eng := advanceRun s.cfg s.eng }) := rfl

/-- A state whose trace is that of `s` after rule R107's write reads the value of `s` at its count, and as `s` elsewhere. -/
theorem traceRead_of_traceWrite {s t : State} (hcfg : t.cfg = s.cfg)
    (htrace : t.eng.trace = (traceWrite s.eng).trace) (a : Nat) :
    traceRead t a = if a = s.eng.steps then s.eng.value else traceRead s a := by
  have hread : t.eng.trace.read a = if a = s.eng.steps then some s.eng.value else s.eng.trace.read a := by
    rw [htrace]
    exact Memory.read_write _ _ _ _
  unfold traceRead
  rw [hread, hcfg]
  by_cases hcount : a = s.eng.steps
  · simp only [if_pos hcount]
  · simp only [if_neg hcount]

/-- With the budget reached an effective ADVANCE exhausts the run, before it looks at the parity (rules R103, R104). -/
theorem advanceRun_of_budgetReached {p : Config.Params} {e : Engine} (hphase : e.phase ≠ .idle) (heff : 1 < e.value)
    (hbudget : stepBudget p ≤ e.steps) :
    advanceRun p e = { traceWrite e with value := 1, exhausted := true, phase := .active } := by
  rcases advanceRun_cases p e with
    ⟨hidle, -⟩ | ⟨-, hle, -⟩ | ⟨-, -, -, heq⟩ | ⟨-, -, hbelow, -⟩ | ⟨-, -, hbelow, -⟩ | ⟨-, -, hbelow, -⟩
  · exact absurd hidle hphase
  · exact absurd hle (Nat.not_le.mpr heff)
  · exact heq
  all_goals exact absurd hbelow (Nat.not_lt.mpr hbudget)

/-- Within the budget an effective ADVANCE at an odd value without headroom overflows (rule R105). -/
theorem advanceRun_of_noHeadroom {p : Config.Params} {e : Engine} (hphase : e.phase ≠ .idle) (heff : 1 < e.value)
    (hbudget : e.steps < stepBudget p) (hodd : oddValue e = true) (hroom : headroomClear p e = false) :
    advanceRun p e = { traceWrite e with value := 1, overflow := true, phase := .active } := by
  rcases advanceRun_cases p e with
    ⟨hidle, -⟩ | ⟨-, hle, -⟩ | ⟨-, -, hreached, -⟩ | ⟨-, -, -, -, hclear, -⟩ | ⟨-, -, -, -, -, heq⟩ | ⟨-, -, -, heven, -⟩
  · exact absurd hidle hphase
  · exact absurd hle (Nat.not_le.mpr heff)
  · exact absurd hreached (Nat.not_le.mpr hbudget)
  · exact absurd (hroom.symm.trans hclear) Bool.false_ne_true
  · exact heq
  · exact absurd (heven.symm.trans hodd) Bool.false_ne_true

/-- What every forced termination of a run records, whichever flag it sets: the value is 1, the count stays, the run is
done, and the trace holds the failing value at the count (rules R190, R191). -/
theorem exec_engAdvance_of_forcedEnd {s : State} {overflow exhausted : Bool}
    (hforced : advanceRun s.cfg s.eng =
      { traceWrite s.eng with value := 1, overflow := overflow, exhausted := exhausted, phase := .active }) :
    ∃ t, exec .engAdvance s = .next t ∧ t = { s with eng := t.eng, draws := t.draws } ∧
      t.eng.value = 1 ∧ t.eng.steps = s.eng.steps ∧ t.eng.overflow = overflow ∧ t.eng.exhausted = exhausted ∧
      t.eng.phase = .active ∧ doneO t = true ∧
      ∀ a, traceRead t a = if a = s.eng.steps then s.eng.value else traceRead s a := by
  refine ⟨_, exec_engAdvance s, rfl, ?_⟩
  rw [hforced]
  exact ⟨rfl, rfl, rfl, rfl, rfl, rfl, traceRead_of_traceWrite rfl rfl⟩

end Sys2Proof.Machine

/-- Settles O10: on a value of W bits the failed bound is a failed headroom check, and the overflow it leads to is a forced
termination that leaves `exhausted` alone. -/
theorem oddStepOverflows : Obligations.OddStepOverflows := by
  intro s hW hphase heff hbudget hodd hlarge hfits
  have hoddValue : oddValue s.eng = true := by simp [oddValue_eq, hodd]
  have hroom : headroomClear s.cfg s.eng = false := by
    simpa [headroomClear_eq s.cfg s.eng hW hfits] using hlarge
  exact exec_engAdvance_of_forcedEnd (advanceRun_of_noHeadroom hphase heff hbudget hoddValue hroom)

/-- Settles O11: the exhaustion is a forced termination that leaves `overflow` alone, and a count of C bits at the budget or
above it is one of the two largest. -/
theorem budgetExhaustsFirst : Obligations.BudgetExhaustsFirst := by
  intro s hphase heff hbudget
  obtain ⟨t, hexec, hframe, hvalue, hsteps, hoverflow, hexhausted, hactive, hdone, htrace⟩ :=
    exec_engAdvance_of_forcedEnd (advanceRun_of_budgetReached hphase heff hbudget)
  exact ⟨t, hexec, hframe, hvalue, hsteps, hexhausted, hoverflow, hactive, hdone, by omega, htrace⟩

end

section
/-! ## Encodings: the round trip, the reserved bits and the control vectors -/

open Sys2Proof Sys2Proof.Machine

namespace Sys2Proof.Machine

/-- A record with a well-formed payload, `rsv` 0, decodes to its tag's command (rules R70, R71). -/
theorem decode_packRecord_zero (p : Config.Params) {tag pl : Nat} (ht : tag < 8) (hp : decide (pl < 2 ^ p.P) = true) :
    decode p (.cmd (packRecord p tag 0 pl)) =
      .ok (if tag = 4 then .verbatim pl
        else if tag = 5 then .decimal pl
        else if tag = 6 then .hex pl
        else if tag = 7 then .hexspaced pl
        else .cmdReservedTag (BitVec.ofNat 2 tag) pl) :=
  (recordTagSelectsCommand p tag 0 pl ht (by decide) (of_decide_eq_true hp)).2

/-- ENG's control vector with an operand that fits is decoded by its bits (rule R76). -/
theorem decode_engCtrl {p : Config.Params} {vec : Ctrl} {init : Nat} {i : Instr} (hdecode : decodeEng vec init = i)
    (h : WellFormed p i = true) : decode p (.engCtrl vec init) = .ok i := by
  subst hdecode
  exact if_pos h

/-- A FIFO's control vector with an entry that fits is decoded by its bits (rule R77). -/
theorem decode_fifoCtrl {p : Config.Params} {q : QueueId} {vec : Ctrl} {din : Nat} {i : Instr}
    (hdecode : decodeFifo q vec din = i) (h : WellFormed p i = true) : decode p (.fifoCtrl q vec din) = .ok i := by
  subst hdecode
  exact if_pos h

/-- A tag of 2 bits is none of the four commands' and decodes to the reserved row with its own value (rule R74). -/
theorem decode_packRecord_reserved (p : Config.Params) (tag : BitVec 2) {pl : Nat} (hp : decide (pl < 2 ^ p.P) = true) :
    decode p (.cmd (packRecord p tag.toNat 0 pl)) = .ok (.cmdReservedTag tag pl) := by
  have hlt : tag.toNat < 4 := tag.isLt
  rw [decode_packRecord_zero p (by omega) hp, if_neg (by omega), if_neg (by omega), if_neg (by omega),
    if_neg (by omega), BitVec.ofNat_toNat, BitVec.setWidth_eq]

/-- The bytes of a record are read off its tag and its payload (rule R140). -/
theorem outBytes_congr {p : Config.Params} {r r' : Nat} (htag : recTag p r = recTag p r')
    (hpl : recPayload p r = recPayload p r') : outBytes p r = outBytes p r' := by
  unfold outBytes
  rw [htag, hpl]

/-- The coded form of every well-formed operation fits its port, with `rsv` 0 in a record (rules R70, R73). -/
theorem encodesOnPort (i : Instr) : Laws.EncodesOnPort.Statement i := by
  cases i with
  | verbatim pl => exact Laws.EncodesOnPort.verbatim pl
  | decimal pl => exact Laws.EncodesOnPort.decimal pl
  | hex pl => exact Laws.EncodesOnPort.hex pl
  | hexspaced pl => exact Laws.EncodesOnPort.hexspaced pl
  | cmdReservedTag tag pl => exact Laws.EncodesOnPort.cmdReservedTag tag pl
  | engReset => exact Laws.EncodesOnPort.engReset
  | engLoad init => exact Laws.EncodesOnPort.engLoad init
  | engAdvance => exact Laws.EncodesOnPort.engAdvance
  | engHold => exact Laws.EncodesOnPort.engHold
  | fifoReset q => exact Laws.EncodesOnPort.fifoReset q
  | fifoPush q din => exact Laws.EncodesOnPort.fifoPush q din
  | fifoPop q => exact Laws.EncodesOnPort.fifoPop q
  | fifoPushpop q din => exact Laws.EncodesOnPort.fifoPushpop q din
  | fifoIdle q => exact Laws.EncodesOnPort.fifoIdle q
  | multiples i => exact Laws.EncodesOnPort.multiples i
  | extract i v => exact Laws.EncodesOnPort.extract i v

theorem ctrlVec_bit_two (rst hi lo : Bool) : (ctrlVec rst hi lo).getLsbD 2 = rst := by
  cases rst <;> cases hi <;> cases lo <;> rfl

/-- ENG's vector decodes by the priority of its three bits (rules R76, R100). -/
theorem decodeEng_ctrlVec (rst load adv : Bool) (init : Nat) :
    decodeEng (ctrlVec rst load adv) init =
      if rst then .engReset else if load then .engLoad init else if adv then .engAdvance else .engHold := by
  rw [decodeEng, ctrlVec_bit_two, ctrlVec_bit_one, ctrlVec_bit_zero]

/-- A FIFO's vector decodes to the requests of its three bits (rules R77, R150). -/
theorem decodeFifo_ctrlVec (q : QueueId) (rst push pop : Bool) (din : Nat) :
    decodeFifo q (ctrlVec rst push pop) din =
      if rst then .fifoReset q
      else if push then (if pop then .fifoPushpop q din else .fifoPush q din)
      else if pop then .fifoPop q else .fifoIdle q := by
  rw [decodeFifo, ctrlVec_bit_two, ctrlVec_bit_one, ctrlVec_bit_zero]
  cases push <;> simp

end Sys2Proof.Machine

/-- Settles O1: each format's decoder reads back the fields that the encoder wrote, records through `packRecord`'s fields and
control vectors through their bits, and the operand's width passes the decoder's check. -/
theorem decodeEncodeRoundTrip : Obligations.DecodeEncodeRoundTrip := by
  intro p i hwf
  cases i with
  | verbatim pl => exact decode_packRecord_zero p (tag := 4) (by decide) hwf
  | decimal pl => exact decode_packRecord_zero p (tag := 5) (by decide) hwf
  | hex pl => exact decode_packRecord_zero p (tag := 6) (by decide) hwf
  | hexspaced pl => exact decode_packRecord_zero p (tag := 7) (by decide) hwf
  | cmdReservedTag tag pl => exact decode_packRecord_reserved p tag hwf
  | engReset => exact decode_engCtrl rfl hwf
  | engLoad init => exact decode_engCtrl rfl hwf
  | engAdvance => exact decode_engCtrl rfl hwf
  | engHold => exact decode_engCtrl rfl hwf
  | fifoReset q => exact decode_fifoCtrl rfl hwf
  | fifoPush q din => exact decode_fifoCtrl rfl hwf
  | fifoPop q => exact decode_fifoCtrl rfl hwf
  | fifoPushpop q din => exact decode_fifoCtrl rfl hwf
  | fifoIdle q => exact decode_fifoCtrl rfl hwf
  | multiples i => rfl
  | extract i v => exact if_pos (of_decide_eq_true hwf)

/-- Settles O4: decoding and rendering read the tag and the payload alone, which `rsv` does not touch, and the encoder's
record has `rsv` 0. -/
theorem reservedBitsIgnored : Obligations.ReservedBitsIgnored := by
  refine ⟨fun p tag rsv rsv' pl ht hr hr' hp => ?_, fun p i rec hwf henc => ?_⟩
  · obtain ⟨-, htag, hrsv, hpl⟩ := packRecord_fields p ht hr hp
    obtain ⟨-, htag', -, hpl'⟩ := packRecord_fields p ht hr' hp
    refine ⟨hrsv, ?_, outBytes_congr (htag.trans htag'.symm) (hpl.trans hpl'.symm)⟩
    rw [decodeCmd_packRecord p ht hr hp, decodeCmd_packRecord p ht hr' hp]
  · have hport := encodesOnPort i p hwf
    rw [henc] at hport
    exact hport.2

/-- Settles O5: both tables are the priority of the vector's bits. -/
theorem controlVectorsDecode : Obligations.ControlVectorsDecode :=
  ⟨decodeEng_ctrlVec, decodeFifo_ctrlVec⟩

/-- Settles O2: the decoder evaluates each of the eight words to its operation. -/
theorem specWordsDecode : Obligations.SpecWordsDecode :=
  ⟨rfl, rfl, rfl, rfl, rfl, rfl, rfl, rfl⟩

end

section
/-! ## The step seen from each block, and when it completes -/

open Sys2Proof Sys2Proof.Machine

namespace Sys2Proof.Machine

/-! ### Each command by ENC's mode -/

theorem exec_verbatim_of_ready {s : State} (h : s.enc.mode = .ready) (pl : Nat) :
    exec (.verbatim pl) s = .next (readyStep .verb pl s) := by simp only [exec, execVerbatim, h]

theorem exec_verbatim_of_verb {s : State} (h : s.enc.mode = .verb) (pl : Nat) :
    exec (.verbatim pl) s = .next (verbStep s) := by simp only [exec, execVerbatim, h]

theorem exec_decimal_of_ready {s : State} (h : s.enc.mode = .ready) (pl : Nat) :
    exec (.decimal pl) s = .next (readyStepDec pl s) := by simp only [exec, execDecimal, h]

theorem exec_hex_of_ready {s : State} (h : s.enc.mode = .ready) (pl : Nat) :
    exec (.hex pl) s = .next (readyStep .hex pl s) := by simp only [exec, execHex, h]

theorem exec_hex_of_hex {s : State} (h : s.enc.mode = .hex) (pl : Nat) :
    exec (.hex pl) s = .next (hexStep false 8 s) := by simp only [exec, execHex, h]

theorem exec_hexspaced_of_ready {s : State} (h : s.enc.mode = .ready) (pl : Nat) :
    exec (.hexspaced pl) s = .next (readyStep .hexs pl s) := by simp only [exec, execHexspaced, h]

theorem exec_hexspaced_of_hexs {s : State} (h : s.enc.mode = .hexs) (pl : Nat) :
    exec (.hexspaced pl) s = .next (hexStep true 11 s) := by simp only [exec, execHexspaced, h]

/-- What EXT shows DEC at its position (rule R121). -/
def extracted (s : State) : FuncOut :=
  { row := multiplesRow s.dec.idx.toNat
    digit := (extractDigit s.dec.idx.toNat s.dec.rem).1
    remainder := (extractDigit s.dec.idx.toNat s.dec.rem).2 }

/-- DEC's step asks EXT first, which faults outside its domain (rules R95, R121). -/
theorem decStep_eq (s : State) :
    decStep s =
      if s.dec.idx.toNat ≤ 9 then .next (decPosition { s with func := extracted s }) else .fault .magnitudeIndex := by
  rw [decStep, extractOp_eq]
  by_cases hidx : s.dec.idx.toNat ≤ 9
  · rw [if_pos hidx, if_pos hidx]
    rfl
  · rw [if_neg hidx, if_neg hidx]

/-- At an index in EXT's domain DECIMAL's tick in mode DEC is DEC's step on the extracted digit (rule R121). -/
theorem exec_decimal_of_dec {s : State} (h : s.enc.mode = .dec) (hidx : s.dec.idx.toNat ≤ 9) (pl : Nat) :
    exec (.decimal pl) s = .next (decPosition { s with func := extracted s }) := by
  simp only [exec, execDecimal, h, decStep_eq, if_pos hidx]

/-! ### ENC's next position -/

/-- A position up to the last one is followed by READY after the last, and else by the next position. -/
theorem advancePos_enc_cases {last : Nat} {s : State} (hlast : last < 15) (hpos : s.enc.pos.toNat ≤ last) :
    s.enc.pos.toNat = last ∧ (advancePos last s).enc = { s.enc with mode := .ready } ∨
      s.enc.pos.toNat < last ∧ (s.enc.pos + 1#4).toNat = s.enc.pos.toNat + 1 ∧
        (advancePos last s).enc = { s.enc with pos := s.enc.pos + 1#4 } := by
  unfold advancePos
  by_cases h : s.enc.pos.toNat = last
  · exact .inl ⟨h, by rw [if_pos h]⟩
  · refine .inr ⟨Nat.lt_of_le_of_ne hpos h, ?_, by rw [if_neg h]⟩
    rw [BitVec.toNat_add]
    exact Nat.mod_eq_of_lt (show s.enc.pos.toNat + 1 < 16 by omega)

theorem nibble_toNat_ne_zero {x : Nibble} (h : x ≠ 0#4) : x.toNat ≠ 0 := fun h0 => h (BitVec.eq_of_toNat_eq h0)

/-- A nibble that is not 0 counts down without a wrap. -/
theorem nibble_sub_one_toNat {x : Nibble} (h : x ≠ 0#4) : (x - 1#4).toNat = x.toNat - 1 := by
  have hpos := nibble_toNat_ne_zero h
  have hlt : x.toNat < 16 := x.isLt
  rw [BitVec.toNat_sub]
  simp only [BitVec.toNat_ofNat]
  omega

/-! ### The registers after a step -/

/-- No step changes the parameters (rule R6). -/
theorem step_cfg {s t : State} (h : step s = .next t) : t.cfg = s.cfg := by
  obtain ⟨-, hcfg, -⟩ := step_fields h
  exact hcfg

/-- ENG's registers after a step, by the priority of its control bits (rule R100). -/
theorem step_eng_cases {s t : State} (h : step s = .next t) :
    (tickInput s).rst = true ∧ t.eng = (resetEngine s).eng ∨
      (tickInput s).rst = false ∧ (tickInput s).engCtrl.getLsbD 1 = true ∧
        t.eng = loadRun (trunc s.cfg.W (tickInput s).init) s.eng ∨
      (tickInput s).rst = false ∧ (tickInput s).engCtrl.getLsbD 1 = false ∧
        (tickInput s).engCtrl.getLsbD 0 = true ∧ t.eng = advanceRun s.cfg s.eng ∨
      (tickInput s).rst = false ∧ (tickInput s).engCtrl.getLsbD 1 = false ∧
        (tickInput s).engCtrl.getLsbD 0 = false ∧ t.eng = s.eng := by
  obtain ⟨-, -, ⟨d, hexec, -⟩, -⟩ := step_fields h
  obtain ⟨e, d', hexec', -, hcases⟩ := exec_engInstr s
  have hte : t.eng = e := congrArg State.eng (Host.Outcome.next.inj (hexec.symm.trans hexec'))
  rwa [← hte, trunc_of_lt (trunc_lt s.cfg.W (tickInput s).init)] at hcases

/-- ENC's next position is read off ENC's registers alone. -/
theorem advancePos_enc_congr (last : Nat) {s s' : State} (h : s'.enc = s.enc) :
    (advancePos last s').enc = (advancePos last s).enc := by
  unfold advancePos
  rw [h]
  split <;> rfl

/-- ENC's tick without `rst` looks at no register of ENG and at no draw. -/
theorem EncCase.of_agree {s u t : State} {e : Engine} {d : Nat} (h : EncCase false { s with eng := e, draws := d } u)
    (tenc : t.enc = u.enc) (tdec : t.dec = u.dec) (tout : t.encOut = u.encOut) : EncCase false s t := by
  cases h with
  | reset hrst => exact absurd hrst Bool.false_ne_true
  | hold _ enc dec out why => exact .hold rfl (tenc.trans enc) (tdec.trans dec) (tout.trans out) why
  | dispatch _ mode can rec rest head tag enc dec out =>
    exact .dispatch rfl mode can rec rest head tag (tenc.trans enc) (tdec.trans dec) (tout.trans out)
  | verbSkip _ mode zero enc dec out =>
    exact .verbSkip rfl mode zero (tenc.trans (enc.trans (advancePos_enc_congr 3 rfl))) (tdec.trans dec) (tout.trans out)
  | verbEmit _ mode nz room enc dec out =>
    exact .verbEmit rfl mode nz room (tenc.trans (enc.trans (advancePos_enc_congr 3 rfl))) (tdec.trans dec)
      (tout.trans out)
  | decSkip _ mode dom zero started idx enc dec out =>
    exact .decSkip rfl mode dom zero started idx (tenc.trans enc) (tdec.trans dec) (tout.trans out)
  | decEmit _ mode dom must room enc dec out =>
    exact .decEmit rfl mode dom must room (tenc.trans enc) (tdec.trans dec) (tout.trans out)
  | decspEmit _ mode room enc dec out =>
    exact .decspEmit rfl mode room (tenc.trans enc) (tdec.trans dec) (tout.trans out)
  | hexEmit _ mode room enc dec out =>
    exact .hexEmit rfl mode room (tenc.trans (enc.trans (advancePos_enc_congr 8 rfl))) (tdec.trans dec) (tout.trans out)
  | hexsEmit _ mode room enc dec out =>
    exact .hexsEmit rfl mode room (tenc.trans (enc.trans (advancePos_enc_congr 11 rfl))) (tdec.trans dec)
      (tout.trans out)

/-- In a step without `rst` ENC's tick is one on the state at the start of it. -/
theorem step_encCase {s t : State} (h : step s = .next t) (hrst : (tickInput s).rst = false) : EncCase false s t := by
  obtain ⟨-, -, ⟨d, -, u, henc, tenc, tdec, tout, -⟩, -⟩ := step_fields h
  rw [hrst] at henc
  exact (encTick_cases henc).2.of_agree tenc tdec tout

/-- In a step with `rst` ENC goes to READY without a strobe, its other registers within their widths (rule R142). -/
theorem step_enc_of_rst {s t : State} (h : step s = .next t) (hrst : (tickInput s).rst = true) :
    t.enc.mode = .ready ∧ t.encOut = EncoderOut.idle ∧ t.enc.pl < 2 ^ s.cfg.P ∧ t.dec.rem < 2 ^ s.cfg.P := by
  obtain ⟨-, -, ⟨d, -, u, henc, tenc, tdec, tout, -⟩, -⟩ := step_fields h
  rw [hrst] at henc
  cases henc
  rw [tenc, tdec, tout]
  exact ⟨rfl, rfl, trunc_lt _ _, trunc_lt _ _⟩

/-- CMDQ after a step is its FIFO tick on DRV's push and ENC's pop (rules R150, R159). -/
theorem step_cmdq {s t : State} (h : step s = .next t) :
    t.cmdq = fifoNext s.cfg.cmdDepth (tickInput s).rst (tickInput s).push t.encOut.cmdPop
      (dinEntry s.cfg .cmdq (tickInput s).din) s.cmdq := by
  obtain ⟨-, -, -, hcmdq, -⟩ := step_fields h
  exact hcmdq

/-- OUTQ after a step is its FIFO tick on ENC's push and XPORT's pop (rules R150, R159). -/
theorem step_outq {s t : State} (h : step s = .next t) :
    t.outq = fifoNext s.cfg.outDepth (tickInput s).rst t.encOut.outPush.isSome
      (xportPops (tickInput s).xport s) (t.encOut.outPush.getD 0#8) s.outq := by
  obtain ⟨-, -, -, -, houtq, -⟩ := step_fields h
  exact houtq

/-- What XPORT has popped since the last reset grows by the byte that OUTQ gives it (rule R223). -/
theorem step_popped {s t : State} (h : step s = .next t) :
    t.env.popped = if (tickInput s).rst then [] else s.env.popped ++ poppedByte s := by
  obtain ⟨-, -, -, -, -, henv⟩ := step_fields h
  rw [henv]
  rfl

/-- The reference driver after a step (rule R175). -/
theorem step_drv {s t : State} (h : step s = .next t) :
    t.env.drv = if (tickInput s).rst then Driver.reset else if s.env.drvOn then driverNext s else s.env.drv := by
  obtain ⟨-, -, -, -, -, henv⟩ := step_fields h
  rw [henv]
  rfl

/-! ### When a step completes -/

/-- ENC's tick completes at a position in DEC's range and with no reserved tag at CMDQ's head (rules R95, R139). -/
theorem encTick_completes (rst : Bool) {s : State} (hidx : s.enc.mode = .dec → s.dec.idx.toNat ≤ 9)
    (htag : s.enc.mode = .ready → ∀ rec ∈ s.cmdq.head?, 4 ≤ recTag s.cfg rec) :
    ∃ u, encTick rst s = .next u := by
  unfold encTick
  cases rst with
  | true => exact ⟨_, rfl⟩
  | false =>
    simp only [Bool.false_eq_true, if_false]
    cases hmode : s.enc.mode with
    | ready =>
      simp only [encInstr, hmode]
      cases hcan : canDispatch s with
      | false => exact ⟨_, rfl⟩
      | true =>
        cases hhead : s.cmdq.head? with
        | none => exact ⟨_, rfl⟩
        | some rec =>
          have hcommand : 4 ≤ recTag s.cfg rec := htag hmode rec hhead
          have hlt : recTag s.cfg rec < 8 := recTag_lt _ _
          simp only [if_true, Option.map_some, decodeCmd_eq]
          by_cases h4 : recTag s.cfg rec = 4
          · exact ⟨_, by rw [if_pos h4, exec_verbatim_of_ready hmode]⟩
          by_cases h5 : recTag s.cfg rec = 5
          · exact ⟨_, by rw [if_neg h4, if_pos h5, exec_decimal_of_ready hmode]⟩
          by_cases h6 : recTag s.cfg rec = 6
          · exact ⟨_, by rw [if_neg h4, if_neg h5, if_pos h6, exec_hex_of_ready hmode]⟩
          · have h7 : recTag s.cfg rec = 7 := by omega
            exact ⟨_, by rw [if_neg h4, if_neg h5, if_neg h6, if_pos h7, exec_hexspaced_of_ready hmode]⟩
    | verb => simpa only [encInstr, hmode] using ⟨_, exec_verbatim_of_verb hmode _⟩
    | dec => simpa only [encInstr, hmode] using ⟨_, exec_decimal_of_dec hmode (hidx hmode) _⟩
    | decsp => simpa only [encInstr, hmode] using ⟨_, exec_decimal_of_decsp hmode _⟩
    | hex => simpa only [encInstr, hmode] using ⟨_, exec_hex_of_hex hmode _⟩
    | hexs => simpa only [encInstr, hmode] using ⟨_, exec_hexspaced_of_hexs hmode _⟩

/-- XPORT's share of the tick completes unless it pops an empty OUTQ (rule R155). -/
theorem xportTick_completes {inp : TickInput} {r pu po : Bool} {d : Nat} {s : State}
    (hpop : (po && !r) = true → s.outq ≠ []) : ∃ t, xportTick inp (outqTick r pu po d s) = .next t := by
  unfold xportTick
  cases hp : (po && !r) with
  | false =>
    have htaken : (outqTick r pu po d s).outTaken = .nothing := by simp [outqTick, takenBy, hp]
    exact ⟨_, by rw [htaken]⟩
  | true =>
    obtain ⟨b, rest, hq⟩ := List.exists_cons_of_ne_nil (hpop hp)
    have htaken : (outqTick r pu po d s).outTaken = .entry b.toNat := by simp [outqTick, takenBy, hp, hq]
    exact ⟨_, by rw [htaken]⟩

/-- A step of a valid build completes if ENC's tick does and XPORT pops no empty OUTQ. -/
theorem step_completes {s : State} (hvalid : s.cfg.Valid)
    (henc : ∀ e d, ∃ u, encTick (tickInput s).rst { s with eng := e, draws := d } = .next u)
    (hpop : (tickInput s).rst = false → xportPops (tickInput s).xport s = true → s.outq ≠ []) :
    ∃ t, step s = .next t := by
  obtain ⟨e, d, heng, -⟩ := exec_engInstr s
  obtain ⟨u, hu⟩ := henc e d
  obtain ⟨hwrites, -⟩ := encTick_cases hu
  obtain ⟨d3, hcmdq, -⟩ := exec_decodeFifo .cmdq (tickInput s).rst (tickInput s).push u.encOut.cmdPop (tickInput s).din u
  generalize hw : fifoTick .cmdq (tickInput s).rst ((tickInput s).push && !(tickInput s).rst)
    (u.encOut.cmdPop && !(tickInput s).rst) d3 u = w at hcmdq
  have hwq : w.outq = s.outq := by rw [← hw, hwrites]; rfl
  obtain ⟨d4, houtq, -⟩ := exec_decodeFifo .outq (tickInput s).rst w.encOut.outPush.isSome
    (xportPops (tickInput s).xport w) ((w.encOut.outPush.map BitVec.toNat).getD 0) w
  have hpops : xportPops (tickInput s).xport w = xportPops (tickInput s).xport s := by
    unfold xportPops outqNotEmpty; rw [hwq]
  obtain ⟨x, hx⟩ := xportTick_completes (inp := tickInput s) (r := (tickInput s).rst)
    (pu := w.encOut.outPush.isSome && !(tickInput s).rst)
    (po := xportPops (tickInput s).xport w && !(tickInput s).rst) (d := d4) (s := w) (by
      intro hp
      simp only [Bool.and_eq_true, Bool.not_eq_true'] at hp
      rw [hwq]
      exact hpop hp.2 (hpops ▸ hp.1.1))
  refine ⟨envTick (tickInput s) s x, ?_⟩
  rw [step, if_pos hvalid]
  exact andThen_next.mpr ⟨_, heng, andThen_next.mpr ⟨u, hu, andThen_next.mpr ⟨w, hcmdq,
    andThen_next.mpr ⟨_, houtq, andThen_next.mpr ⟨x, hx, rfl⟩⟩⟩⟩⟩

end Sys2Proof.Machine

end

section
/-! ## The invariant of the machine -/

open Sys2Proof Sys2Proof.Machine

namespace Sys2Proof.Machine

/-! ### ENG -/

/-- A run with an effective ADVANCE ahead has no flag set: a flag ends the run at value 1 (rule R111). -/
theorem EngineInv.flags_clear {p : Config.Params} {e : Engine} (h : EngineInv p e) (hphase : e.phase ≠ .idle)
    (heff : 1 < e.value) : e.overflow = false ∧ e.exhausted = false := by
  have hnone : ¬(e.overflow = true ∨ e.exhausted = true) := fun hflag =>
    absurd (h.flagged_ended hphase hflag).2 (Nat.ne_of_gt heff)
  simpa [not_or] using hnone

/-- ENG_RESET keeps the trace, and the free values have the registers' widths (rule R210). -/
theorem EngineInv.after_reset {s : State} (h : EngineInv s.cfg s.eng) : EngineInv s.cfg (resetEngine s).eng where
  value_fits := trunc_lt _ _
  steps_fits := trunc_lt _ _
  flags_exclusive hphase := absurd rfl hphase
  loaded_clean hphase := Phase.noConfusion hphase
  flagged_ended hphase := absurd rfl hphase
  trace_wf := h.trace_wf
  run_wf := rfl
  trace_fits := h.trace_fits
  run_stored _ _ hread := nomatch hread
  run_below _ _ _ hread := nomatch hread

/-- LOAD starts a run that has written no word (rule R101). -/
theorem EngineInv.after_load {p : Config.Params} {e : Engine} (h : EngineInv p e) {init : Nat} (hinit : init < 2 ^ p.W) :
    EngineInv p (loadRun init e) where
  value_fits := hinit
  steps_fits := Nat.two_pow_pos _
  flags_exclusive _ hflags := Bool.false_ne_true hflags.1
  loaded_clean _ := ⟨rfl, rfl, rfl⟩
  flagged_ended _ hflags := hflags.elim (absurd · Bool.false_ne_true) (absurd · Bool.false_ne_true)
  trace_wf := h.trace_wf
  run_wf := rfl
  trace_fits := h.trace_fits
  run_stored _ _ hread := nomatch hread
  run_below _ _ _ hread := nomatch hread

/-- An ADVANCE at value 0 or 1 makes the run ACTIVE and nothing else (rule R102). -/
theorem EngineInv.activate {p : Config.Params} {e : Engine} (h : EngineInv p e) (hphase : e.phase ≠ .idle) :
    EngineInv p { e with phase := .active } where
  value_fits := h.value_fits
  steps_fits := h.steps_fits
  flags_exclusive _ := h.flags_exclusive hphase
  loaded_clean hloaded := Phase.noConfusion hloaded
  flagged_ended _ hflags := ⟨rfl, (h.flagged_ended hphase hflags).2⟩
  trace_wf := h.trace_wf
  run_wf := h.run_wf
  trace_fits := h.trace_fits
  run_stored := h.run_stored
  run_below := h.run_below

/-- What an effective ADVANCE must see to, once its trace write is made (rules R107, R108, R111): the registers fit, a flag
is alone and comes with value 1, and a run that goes on counts beyond the word just written. -/
theorem EngineInv.of_traceWrite {p : Config.Params} {e e' : Engine} (h : EngineInv p e) (heff : 1 < e.value)
    (htrace : e'.trace = (traceWrite e).trace) (hrun : e'.runTrace = (traceWrite e).runTrace)
    (hphase : e'.phase = .active) (hvalue : e'.value < 2 ^ p.W) (hsteps : e'.steps < 2 ^ p.C)
    (hexclusive : ¬(e'.overflow = true ∧ e'.exhausted = true))
    (hended : e'.overflow = true ∨ e'.exhausted = true → e'.value = 1)
    (hcount : 1 < e'.value → e.steps < e'.steps) : EngineInv p e' where
  value_fits := hvalue
  steps_fits := hsteps
  flags_exclusive _ := hexclusive
  loaded_clean hloaded := absurd (hloaded.symm.trans hphase) Phase.noConfusion
  flagged_ended _ hflags := ⟨hphase, hended hflags⟩
  trace_wf := htrace ▸ Memory.wf_write _ _ _ h.trace_wf
  run_wf := hrun ▸ Memory.wf_write _ _ _ h.run_wf
  trace_fits i w hread := by
    rw [htrace, traceWrite, Memory.read_write] at hread
    split at hread
    · cases hread
      subst i
      exact ⟨h.steps_fits, heff, h.value_fits⟩
    · exact h.trace_fits i w hread
  run_stored i w hread := by
    rw [hrun, traceWrite, Memory.read_write] at hread
    rw [htrace, traceWrite, Memory.read_write]
    split at hread
    · rwa [if_pos (by assumption)]
    · rw [if_neg (by assumption)]
      exact h.run_stored i w hread
  run_below hgoes i w hread := by
    rw [hrun, traceWrite, Memory.read_write] at hread
    split at hread
    · subst i
      exact hcount hgoes
    · exact (h.run_below heff i w hread).trans (hcount hgoes)

/-- An odd value with its two top bits clear steps to a value of W - 1 bits (rule R105). -/
theorem oddStep_value_lt {W v : Nat} (hW : 2 ≤ W) (hv : v < 2 ^ (W - 2)) : (3 * v + 1) >>> 1 < 2 ^ (W - 1) := by
  obtain ⟨k, rfl⟩ : ∃ k, W = k + 2 := ⟨W - 2, by omega⟩
  rw [Nat.shiftRight_one]
  simp only [Nat.add_sub_cancel, show k + 2 - 1 = k + 1 from rfl, Nat.pow_succ] at hv ⊢
  omega

theorem two_pow_pred_le (W : Nat) : 2 ^ (W - 1) ≤ 2 ^ W := Nat.pow_le_pow_right (by decide) (Nat.sub_le W 1)

/-- ADVANCE keeps ENG's invariant: one case for each branch of rules R102 to R106. -/
theorem EngineInv.after_advance {p : Config.Params} {e : Engine} (h : EngineInv p e) (hp : p.Valid) :
    EngineInv p (advanceRun p e) := by
  obtain ⟨hW, -⟩ := hp
  have one_fits : 1 < 2 ^ p.W := Nat.one_lt_two_pow (by omega)
  rcases advanceRun_cases p e with
    ⟨-, heq⟩ | ⟨hphase, -, heq⟩ | ⟨hphase, heff, -, heq⟩ | ⟨hphase, heff, hbudget, -, hroom, heq⟩ |
      ⟨hphase, heff, -, -, -, heq⟩ | ⟨hphase, heff, hbudget, -, heq⟩
  all_goals rw [heq]
  case inl => exact h
  case inr.inl => exact h.activate hphase
  all_goals obtain ⟨hoverflow, hexhausted⟩ := h.flags_clear hphase heff
  case inr.inr.inl =>
    exact h.of_traceWrite heff rfl rfl rfl one_fits h.steps_fits (by simp [traceWrite, hoverflow]) (fun _ => rfl)
      (fun hlt => absurd hlt (Nat.lt_irrefl 1))
  case inr.inr.inr.inl =>
    have hsmall : e.value < 2 ^ (p.W - 2) := by simpa [headroomClear_eq p e hW h.value_fits] using hroom
    refine h.of_traceWrite heff rfl rfl rfl ((oddStep_value_lt hW hsmall).trans_le (two_pow_pred_le _)) ?_
      (by simp [traceWrite, hoverflow]) (by simp [traceWrite, hoverflow, hexhausted]) (fun _ => by simp)
    simp only [stepBudget] at hbudget ⊢
    omega
  case inr.inr.inr.inr.inl =>
    exact h.of_traceWrite heff rfl rfl rfl one_fits h.steps_fits (by simp [traceWrite, hexhausted]) (fun _ => rfl)
      (fun hlt => absurd hlt (Nat.lt_irrefl 1))
  case inr.inr.inr.inr.inr =>
    refine h.of_traceWrite heff rfl rfl rfl ?_ ?_ (by simp [traceWrite, hoverflow])
      (by simp [traceWrite, hoverflow, hexhausted]) (fun _ => by simp)
    · exact (Nat.shiftRight_le e.value 1).trans_lt h.value_fits
    · simp only [stepBudget] at hbudget ⊢
      omega

/-- ENG's share of a step keeps its invariant. -/
theorem EngineInv.after_step {s t : State} (hinv : Inv s) (h : step s = .next t) : EngineInv s.cfg t.eng := by
  rcases step_eng_cases h with ⟨-, heng⟩ | ⟨-, -, heng⟩ | ⟨-, -, -, heng⟩ | ⟨-, -, -, heng⟩
  all_goals rw [heng]
  · exact hinv.eng.after_reset
  · exact hinv.eng.after_load (trunc_lt _ _)
  · exact hinv.eng.after_advance hinv.params
  · exact hinv.eng

/-! ### ENC and DEC -/

/-- In READY no position has to be in range. -/
theorem EncoderInv.of_ready {p : Config.Params} {e : Encoder} {d : Renderer} (hmode : e.mode = .ready)
    (hpl : e.pl < 2 ^ p.P) (hrem : d.rem < 2 ^ p.P) : EncoderInv p e d where
  pl_fits := hpl
  rem_fits := hrem
  verb_pos h := absurd (hmode.symm.trans h) EncMode.noConfusion
  hex_pos h := absurd (hmode.symm.trans h) EncMode.noConfusion
  hexs_pos h := absurd (hmode.symm.trans h) EncMode.noConfusion
  dec_idx h := absurd (hmode.symm.trans h) EncMode.noConfusion

/-- The last position of a mode that counts positions (rules R28, R132, R135, R136). -/
def lastPos : EncMode → Nat
  | .verb => 3
  | .hex => 8
  | .hexs => 11
  | .ready | .dec | .decsp => 0

/-- ENC's next position keeps its range: up to the last one, after which ENC is READY. -/
theorem EncoderInv.after_advancePos {s : State} (h : EncoderInv s.cfg s.enc s.dec)
    (hpos : s.enc.pos.toNat ≤ lastPos s.enc.mode) (hdec : s.enc.mode ≠ .dec) :
    EncoderInv s.cfg (advancePos (lastPos s.enc.mode) s).enc s.dec := by
  have hlast : lastPos s.enc.mode < 15 := by cases s.enc.mode <;> decide
  rcases advancePos_enc_cases hlast hpos with ⟨-, henc⟩ | ⟨hlt, hnext, henc⟩
  all_goals rw [henc]
  · exact .of_ready rfl h.pl_fits h.rem_fits
  · have hrange : ∀ m, s.enc.mode = m → (s.enc.pos + 1#4).toNat ≤ lastPos m := fun m hm => hm ▸ hnext ▸ hlt
    exact
      { pl_fits := h.pl_fits
        rem_fits := h.rem_fits
        verb_pos := hrange .verb
        hex_pos := hrange .hex
        hexs_pos := hrange .hexs
        dec_idx := fun hmode => absurd hmode hdec }

theorem tagMode_eq_dec {tag : Nat} : tagMode tag = .dec ↔ tag = 5 := by
  unfold tagMode
  repeat' split
  all_goals simp [*]

/-- EXT's remainder does not exceed the value. -/
theorem extractDigit_rem_le (i v : Nat) : (extractDigit i v).2 ≤ v := by
  obtain ⟨-, -, hrem, -⟩ := extractDigit_spec i v
  exact hrem ▸ Nat.sub_le _ _

/-- ENC's tick without `rst` keeps its invariant: one case for each of its ticks. -/
theorem EncoderInv.after_encCase {s t : State} (h : EncoderInv s.cfg s.enc s.dec) (hcase : EncCase false s t) :
    EncoderInv s.cfg t.enc t.dec := by
  have hrem : (extractDigit s.dec.idx.toNat s.dec.rem).2 < 2 ^ s.cfg.P :=
    (extractDigit_rem_le _ _).trans_lt h.rem_fits
  cases hcase with
  | reset hrst => exact absurd hrst Bool.false_ne_true
  | hold _ enc dec => rwa [enc, dec]
  | dispatch _ _ _ rec _ _ _ enc dec =>
    rw [enc, dec]
    have hpl : recPayload s.cfg rec < 2 ^ s.cfg.P := recPayload_lt _ _
    exact
      { pl_fits := hpl
        rem_fits := by split; exacts [hpl, h.rem_fits]
        verb_pos := fun _ => Nat.zero_le _
        hex_pos := fun _ => Nat.zero_le _
        hexs_pos := fun _ => Nat.zero_le _
        dec_idx := fun hmode => by rw [if_pos (tagMode_eq_dec.mp hmode)]; exact Nat.le_refl 9 }
  | verbSkip _ mode _ enc dec =>
    rw [enc, dec]
    have hnext := h.after_advancePos (by rw [mode]; exact h.verb_pos mode) (by simp [mode])
    rwa [mode] at hnext
  | verbEmit _ mode _ _ enc dec =>
    rw [enc, dec]
    have hnext := h.after_advancePos (by rw [mode]; exact h.verb_pos mode) (by simp [mode])
    rwa [mode] at hnext
  | decSkip _ mode dom _ _ idx enc dec =>
    rw [enc, dec]
    have hidx := nibble_sub_one_toNat idx
    exact
      { pl_fits := h.pl_fits
        rem_fits := hrem
        verb_pos := h.verb_pos
        hex_pos := h.hex_pos
        hexs_pos := h.hexs_pos
        dec_idx := fun _ => show (s.dec.idx - 1#4).toNat ≤ 9 by omega }
  | decEmit _ mode dom _ _ enc dec =>
    rw [enc, dec]
    by_cases hzero : s.dec.idx = 0#4
    · rw [if_pos hzero]
      exact
        { pl_fits := h.pl_fits
          rem_fits := hrem
          verb_pos := fun hmode => EncMode.noConfusion hmode
          hex_pos := fun hmode => EncMode.noConfusion hmode
          hexs_pos := fun hmode => EncMode.noConfusion hmode
          dec_idx := fun hmode => EncMode.noConfusion hmode }
    · rw [if_neg hzero]
      have hidx := nibble_sub_one_toNat hzero
      exact
        { pl_fits := h.pl_fits
          rem_fits := hrem
          verb_pos := h.verb_pos
          hex_pos := h.hex_pos
          hexs_pos := h.hexs_pos
          dec_idx := fun _ => by simp only [if_neg hzero]; omega }
  | decspEmit _ _ _ enc dec =>
    rw [enc, dec]
    exact .of_ready rfl h.pl_fits h.rem_fits
  | hexEmit _ mode _ enc dec =>
    rw [enc, dec]
    have hnext := h.after_advancePos (by rw [mode]; exact h.hex_pos mode) (by simp [mode])
    rwa [mode] at hnext
  | hexsEmit _ mode _ enc dec =>
    rw [enc, dec]
    have hnext := h.after_advancePos (by rw [mode]; exact h.hexs_pos mode) (by simp [mode])
    rwa [mode] at hnext

/-- ENC's share of a step keeps its invariant. -/
theorem EncoderInv.after_step {s t : State} (hinv : Inv s) (h : step s = .next t) : EncoderInv s.cfg t.enc t.dec := by
  cases hrst : (tickInput s).rst with
  | false => exact hinv.enc.after_encCase (step_encCase h hrst)
  | true =>
    obtain ⟨hmode, -, hpl, hrem⟩ := step_enc_of_rst h hrst
    exact .of_ready hmode hpl hrem

/-! ### The reference driver -/

/-- The records that the driver may push: VERBATIM and DECIMAL with a payload that fits (rules R84, R171). -/
theorem properRecord_packRecord (p : Config.Params) {tag pl : Nat} (hcommand : 4 ≤ tag) (ht : tag < 8)
    (hp : pl < 2 ^ p.P) : properRecord p (packRecord p tag 0 pl) = true := by
  obtain ⟨hfits, htag, hrsv, -⟩ := packRecord_fields p ht (by decide : 0 < 4) hp
  simp [properRecord, hfits, htag, hrsv, hcommand]

theorem properRecord_fits {p : Config.Params} {r : Nat} (h : properRecord p r = true) : r < 2 ^ (p.P + 5) := by
  simp only [properRecord, Bool.and_eq_true, decide_eq_true_eq] at h
  obtain ⟨⟨hfits, -⟩, -⟩ := h
  exact hfits

theorem properRecord_tag {p : Config.Params} {r : Nat} (h : properRecord p r = true) : 4 ≤ recTag p r := by
  simp only [properRecord, Bool.and_eq_true, decide_eq_true_eq] at h
  obtain ⟨⟨-, htag⟩, -⟩ := h
  exact htag

/-- An X or N line: its letter, the count, the trial and the trailer (rule R84). -/
theorem reportRecords_errRep (p : Config.Params) (ch : Byte) (len trial : Nat) :
    reportRecords p (pseudoErrRep ch len trial) =
      [packRecord p 4 0 ch.toNat, packRecord p 5 0 len, packRecord p 5 0 trial, packRecord p 4 0 0x00070A0D] := rfl

/-- A record line: the index, the count, the trial and the trailer (rule R84). -/
theorem reportRecords_report (p : Config.Params) (a b c : Nat) :
    reportRecords p (pseudoReport a b c) =
      [packRecord p 5 0 a, packRecord p 5 0 b, packRecord p 5 0 c, packRecord p 4 0 0x00070A0D] := rfl

/-- Every report has at most four records, each proper when the count and the trial fit a payload (rules R171, R178). -/
theorem runReport_spec {s : State} (hP : 32 ≤ s.cfg.P) (hsteps : s.eng.steps < 2 ^ s.cfg.P)
    (htrial : s.env.drv.trial < 2 ^ s.cfg.P) :
    (runReport s).length ≤ 4 ∧ ∀ r ∈ runReport s, properRecord s.cfg r = true := by
  have hword : 2 ^ 32 ≤ 2 ^ s.cfg.P := Nat.pow_le_pow_right (by decide) hP
  have verbatim : ∀ pl, pl < 2 ^ 32 → properRecord s.cfg (packRecord s.cfg 4 0 pl) = true := fun pl hpl =>
    properRecord_packRecord s.cfg (by decide) (by decide) (hpl.trans_le hword)
  have decimal : ∀ pl, pl < 2 ^ s.cfg.P → properRecord s.cfg (packRecord s.cfg 5 0 pl) = true := fun pl hpl =>
    properRecord_packRecord s.cfg (by decide) (by decide) hpl
  have hindex : trunc s.cfg.P (s.env.drv.recordCount + 1) < 2 ^ s.cfg.P := trunc_lt _ _
  simp only [runReport]
  repeat' split
  case' isTrue => rw [reportRecords_errRep]
  case' isFalse.isTrue => rw [reportRecords_errRep]
  case' isFalse.isFalse.isTrue => rw [reportRecords_report]
  all_goals simp [verbatim, decimal, hsteps, htrial, hindex]

/-- The driver after reset holds zeros and no record (rule R175). -/
theorem DriverInv.reset (p : Config.Params) : DriverInv p Driver.reset where
  trial_fits := Nat.two_pow_pos _
  bestLength_fits := Nat.two_pow_pos _
  bestTrial_fits := Nat.two_pow_pos _
  recordCount_fits := Nat.two_pow_pos _
  pending_short := Nat.zero_le _
  pending_fits _ hr := nomatch hr

/-- The driver's bookkeeping after a run leaves the trial, and its records fit as the run's registers do. -/
theorem DriverInv.after_run {s : State} (hdrv : DriverInv s.cfg s.env.drv) (hsteps : s.eng.steps < 2 ^ s.cfg.C) :
    DriverInv s.cfg (runRecord s) := by
  simp only [runRecord]
  repeat' split
  · exact hdrv
  · exact { hdrv with
      bestLength_fits := hsteps
      bestTrial_fits := hdrv.trial_fits
      recordCount_fits := trunc_lt _ _ }
  · exact hdrv

/-- The driver's step keeps its invariant. -/
theorem DriverInv.after_driverNext {s : State} (hinv : Inv s) : DriverInv s.cfg (driverNext s) := by
  obtain ⟨hvalid, heng, -, -, -, -, hdrv⟩ := hinv
  obtain ⟨-, -, hP, hWP, hCP, -⟩ := hvalid
  cases hmode : s.env.drv.mode with
  | dIdle =>
    simp only [driverNext, hmode]
    split
    · exact { hdrv with }
    · exact hdrv
  | dLoad =>
    simp only [driverNext, hmode]
    exact { hdrv with trial_fits := trunc_lt _ _ }
  | dRun =>
    simp only [driverNext, hmode]
    split
    · obtain ⟨hshort, hproper⟩ := runReport_spec hP
        (heng.steps_fits.trans_le (Nat.pow_le_pow_right (by decide) hCP))
        (hdrv.trial_fits.trans_le (Nat.pow_le_pow_right (by decide) hWP))
      exact { hdrv.after_run heng.steps_fits with
        pending_short := hshort
        pending_fits := fun r hr => properRecord_fits (hproper r hr) }
    · exact hdrv
  | dReport =>
    simp only [driverNext, hmode]
    split
    · exact { hdrv with
        pending_short := (List.drop_sublist 1 _).length_le.trans hdrv.pending_short
        pending_fits := fun r hr => hdrv.pending_fits r (List.mem_of_mem_drop hr) }
    · exact hdrv

/-! ### The whole state -/

/-- Every step keeps the invariant: each block's part by its own share of the tick. -/
theorem Inv.after_step {s t : State} (hinv : Inv s) (h : step s = .next t) : Inv t := by
  have hcfg := step_cfg h
  refine ⟨hcfg ▸ hinv.params, hcfg ▸ EngineInv.after_step hinv h, hcfg ▸ EncoderInv.after_step hinv h, ?_, ?_, ?_, ?_⟩
  · rw [hcfg, step_cmdq h]
    exact fifoNext_length_le _ _ _ _ _ _ hinv.cmdq_depth
  · intro r hr
    rw [step_cmdq h] at hr
    rw [hcfg]
    rcases mem_fifoNext hr with hold | ⟨-, -, -, hnew⟩
    · exact hinv.cmdq_fits r hold
    · exact hnew ▸ trunc_lt _ _
  · rw [hcfg, step_outq h]
    exact fifoNext_length_le _ _ _ _ _ _ hinv.outq_depth
  · rw [hcfg, step_drv h]
    split
    · exact .reset s.cfg
    · split
      · exact .after_driverNext hinv
      · exact hinv.drv

/-- ENG, ENC and DEC as `State.resetOf` gives them, with both queues empty, meet the invariant (rule R41). -/
theorem Inv.resetOf {p : Config.Params} (hp : p.Valid) : Inv (State.resetOf p) where
  params := hp
  eng :=
    { value_fits := Nat.two_pow_pos _
      steps_fits := Nat.two_pow_pos _
      flags_exclusive := fun h => absurd rfl h
      loaded_clean := fun h => nomatch h
      flagged_ended := fun h => absurd rfl h
      trace_wf := rfl
      run_wf := rfl
      trace_fits := fun _ _ h => nomatch h
      run_stored := fun _ _ h => nomatch h
      run_below := fun _ _ _ h => nomatch h }
  enc := .of_ready rfl (Nat.two_pow_pos _) (Nat.two_pow_pos _)
  cmdq_depth := Nat.zero_le _
  cmdq_fits := fun _ h => nomatch h
  outq_depth := Nat.zero_le _
  drv := .reset p

/-! ### Runs under the contract -/

/-- Under the contract's invariant the driver's next pending records are proper: those of a new report, or some of the
pending ones (rules R171, R178, R179). -/
theorem SafeInv.driverNext_pending {s : State} (h : SafeInv s) :
    ∀ r ∈ (driverNext s).pending, properRecord s.cfg r = true := by
  have hkeep := h.pending_proper
  obtain ⟨⟨hvalid, heng, -, -, -, -, hdrv⟩, -, -⟩ := h
  obtain ⟨-, -, hP, hWP, hCP, -⟩ := hvalid
  cases hmode : s.env.drv.mode with
  | dIdle =>
    simp only [driverNext, hmode]
    split <;> exact hkeep
  | dLoad =>
    simp only [driverNext, hmode]
    exact hkeep
  | dRun =>
    simp only [driverNext, hmode]
    split
    · obtain ⟨-, hproper⟩ := runReport_spec hP
        (heng.steps_fits.trans_le (Nat.pow_le_pow_right (by decide) hCP))
        (hdrv.trial_fits.trans_le (Nat.pow_le_pow_right (by decide) hWP))
      exact hproper
    · exact hkeep
  | dReport =>
    simp only [driverNext, hmode]
    split
    · exact fun r hr => hkeep r (List.mem_of_mem_drop hr)
    · exact hkeep

/-- DRV's duty toward CMDQ makes every pushed record a proper one. -/
theorem properRecord_of_cmdqDuty {s : State} (h : cmdqDuty s = true) (hpush : (tickInput s).push = true) :
    properRecord s.cfg (dinEntry s.cfg .cmdq (tickInput s).din) = true := by
  have hproper : properRecord s.cfg (tickInput s).din = true := by
    simp only [cmdqDuty, hpush, Bool.not_true, Bool.false_or, Bool.and_eq_true] at h
    exact h.2
  rwa [dinEntry_of_lt (properRecord_fits hproper)]

/-- Under DRV's duty toward CMDQ a step keeps the contract's invariant. -/
theorem SafeInv.after_step {s t : State} (hsafe : SafeInv s) (hduty : cmdqDuty s = true) (h : step s = .next t) :
    SafeInv t := by
  have hcfg := step_cfg h
  refine ⟨hsafe.inv.after_step h, ?_, ?_⟩
  · intro r hr
    rw [step_cmdq h] at hr
    rw [hcfg]
    rcases mem_fifoNext hr with hold | ⟨-, hpush, -, hnew⟩
    · exact hsafe.cmdq_proper r hold
    · exact hnew ▸ properRecord_of_cmdqDuty hduty hpush
  · rw [hcfg, step_drv h]
    split
    · exact fun _ hr => nomatch hr
    · split
      · exact hsafe.driverNext_pending
      · exact hsafe.pending_proper

/-- Under the contract no block faults: DEC's index is in EXT's domain, no reserved tag waits, and XPORT pops no empty
OUTQ (rules R95, R139, R155). -/
theorem SafeInv.step_completes {s : State} (hsafe : SafeInv s) (hxport : xportDuty s = true) :
    ∃ t, step s = .next t := by
  refine Machine.step_completes hsafe.inv.params (fun e d => encTick_completes _ hsafe.inv.enc.dec_idx fun _ r hr => ?tag)
    fun _ hpops => ?pop
  case tag => exact properRecord_tag (hsafe.cmdq_proper r (List.mem_of_mem_head? hr))
  case pop =>
    have hnotEmpty : outqNotEmpty s = true := by simpa [xportDuty, hpops] using hxport
    rw [outqNotEmpty, decide_eq_true_eq] at hnotEmpty
    exact List.ne_nil_of_length_pos hnotEmpty

/-! ### A tick with reset -/

theorem traceRead_congr {s t : State} (hcfg : t.cfg = s.cfg) (htrace : t.eng.trace = s.eng.trace) (a : Nat) :
    traceRead t a = traceRead s a := by
  unfold traceRead
  rw [hcfg, htrace]

end Sys2Proof.Machine

/-- Settles O46: each block's part of the invariant is kept by that block's share of the tick. -/
theorem stepKeepsInvariant : Obligations.StepKeepsInvariant := fun _ _ => Inv.after_step

/-- Settles O48: the contract's invariant rules out ENC's two faults and XPORT's duty the third, and DRV's duty keeps every
record in CMDQ proper. -/
theorem contractExcludesFaults : Obligations.ContractExcludesFaults := by
  intro s hsafe hcontract
  obtain ⟨hcmdq, hxport, -⟩ := hcontract
  obtain ⟨t, hstep⟩ := hsafe.step_completes hxport
  exact ⟨t, hstep, hsafe.after_step hcmdq hstep⟩

/-- Settles O47: after reset no word is traced, no entry is queued, and nothing has been popped or accepted. -/
theorem resetMeetsInvariants : Obligations.ResetMeetsInvariants := fun _ hp =>
  ⟨⟨Inv.resetOf hp, (fun _ h => nomatch h), (fun _ h => nomatch h)⟩, rfl⟩

/-- Settles O49: with `rst` no block can fault, and each is left in its reset state, the trace apart. -/
theorem resetTickResetsEveryBlock : Obligations.ResetTickResetsEveryBlock := by
  intro s hvalid hrst
  obtain ⟨t, hstep⟩ := step_completes hvalid (fun e d => ⟨_, by rw [hrst]; rfl⟩)
    (fun hno => absurd (hrst.symm.trans hno) (by decide))
  have heng : t.eng = (resetEngine s).eng := by
    rcases step_eng_cases hstep with ⟨-, heng⟩ | ⟨hno, -⟩ | ⟨hno, -⟩ | ⟨hno, -⟩
    · exact heng
    all_goals exact absurd (hrst.symm.trans hno) (by decide)
  obtain ⟨hmode, hout, -, -⟩ := step_enc_of_rst hstep hrst
  have hcmdq : t.cmdq = [] := by rw [step_cmdq hstep, hrst, fifoNext_reset]
  have houtq : t.outq = [] := by rw [step_outq hstep, hrst, fifoNext_reset]
  have hphase : t.eng.phase = .idle := by rw [heng, resetEngine_phase]
  have hcfg := step_cfg hstep
  obtain ⟨-, -, -, -, -, hcmdDepth, houtDepth⟩ := hvalid
  refine ⟨t, hstep, hphase, hmode, hcmdq, houtq, hout, ?trace, ?_, ?_, ?_, ?_, ?_, ?_⟩
  case trace => exact traceRead_congr hcfg (by rw [heng, resetEngine_trace])
  · simp [doneO, hphase]
  · simp [encReadyO, hmode]
  · simp [cmdqNotEmpty, hcmdq]
  · rw [cmdqNotFull_iff, hcmdq, hcfg]; exact hcmdDepth
  · simp [outqNotEmpty, houtq]
  · rw [outqNotFull_iff, houtq, hcfg]; exact houtDepth

end

section
/-! ## The byte stream, the reference schedule and the queues between the blocks -/

open Sys2Proof Sys2Proof.Machine

namespace Sys2Proof.Machine

/-! ### The bytes that ENC still owes, by mode (rule R138) -/

theorem pendingBytes_of_ready {s : State} (h : s.enc.mode = .ready) : pendingBytes s = [] := by
  simp only [pendingBytes, h]

theorem pendingBytes_of_verb {s : State} (h : s.enc.mode = .verb) :
    pendingBytes s = (([0, 1, 2, 3].drop s.enc.pos.toNat).map (payloadByte s.enc.pl)).filter fun b => b != 0#8 := by
  simp only [pendingBytes, h]

theorem pendingBytes_of_dec {s : State} (h : s.enc.mode = .dec) :
    pendingBytes s = decBytesFrom s.dec.idx.toNat s.dec.rem s.dec.started ++ [spaceChar] := by
  simp only [pendingBytes, h]

theorem pendingBytes_of_decsp {s : State} (h : s.enc.mode = .decsp) : pendingBytes s = [spaceChar] := by
  simp only [pendingBytes, h]

theorem pendingBytes_of_hex {s : State} (h : s.enc.mode = .hex) :
    pendingBytes s = (hexSeq s.enc.pl false).drop s.enc.pos.toNat := by
  simp only [pendingBytes, h]

theorem pendingBytes_of_hexs {s : State} (h : s.enc.mode = .hexs) :
    pendingBytes s = (hexSeq s.enc.pl true).drop s.enc.pos.toNat := by
  simp only [pendingBytes, h]

/-! ### What one tick of ENC takes off them -/

/-- VERB's bytes are the byte of its position, if it is not 0, and then those of the next position (rule R132). -/
theorem pendingBytes_verb_advance {s t : State} (hmode : s.enc.mode = .verb) (hpos : s.enc.pos.toNat ≤ 3)
    (henc : t.enc = (advancePos 3 s).enc) :
    pendingBytes s = ([payloadByte s.enc.pl s.enc.pos.toNat].filter fun b => b != 0#8) ++ pendingBytes t := by
  have hlength : s.enc.pos.toNat < [0, 1, 2, 3].length := Nat.lt_succ_of_le hpos
  have hget : [0, 1, 2, 3][s.enc.pos.toNat] = s.enc.pos.toNat := List.getElem_range (n := 4) hlength
  rw [pendingBytes_of_verb hmode, List.drop_eq_getElem_cons hlength, hget, List.map_cons, ← List.singleton_append,
    List.filter_append]
  rcases advancePos_enc_cases (by decide) hpos with ⟨hlast, hnext⟩ | ⟨-, hsucc, hnext⟩
  · rw [pendingBytes_of_ready (henc ▸ hnext ▸ rfl), hlast]
    rfl
  · rw [pendingBytes_of_verb (by rw [henc, hnext]; exact hmode), henc, hnext]
    simp only [hsucc]

/-- The bytes left of a sequence are the byte of the position and then those of the next position (rules R135, R136). -/
theorem drop_eq_getD_cons {α : Type} {l : List α} {k : Nat} (h : k < l.length) (d : α) :
    l.drop k = l.getD k d :: l.drop (k + 1) := by
  rw [List.drop_eq_getElem_cons h, List.getD_eq_getElem l d h]

theorem pendingBytes_hex_advance {s t : State} (hmode : s.enc.mode = .hex) (hpos : s.enc.pos.toNat ≤ 8)
    (henc : t.enc = (advancePos 8 s).enc) :
    pendingBytes s = (hexSeq s.enc.pl false).getD s.enc.pos.toNat spaceChar :: pendingBytes t := by
  have hlength : (hexSeq s.enc.pl false).length = 9 := hexSeq_length _ _
  rw [pendingBytes_of_hex hmode, drop_eq_getD_cons (by omega) spaceChar]
  rcases advancePos_enc_cases (by decide) hpos with ⟨hlast, hnext⟩ | ⟨-, hsucc, hnext⟩
  · rw [pendingBytes_of_ready (henc ▸ hnext ▸ rfl), List.drop_eq_nil_of_le (by omega)]
  · rw [pendingBytes_of_hex (by rw [henc, hnext]; exact hmode), henc, hnext]
    simp only [hsucc]

theorem pendingBytes_hexs_advance {s t : State} (hmode : s.enc.mode = .hexs) (hpos : s.enc.pos.toNat ≤ 11)
    (henc : t.enc = (advancePos 11 s).enc) :
    pendingBytes s = (hexSeq s.enc.pl true).getD s.enc.pos.toNat spaceChar :: pendingBytes t := by
  have hlength : (hexSeq s.enc.pl true).length = 12 := hexSeq_length _ _
  rw [pendingBytes_of_hexs hmode, drop_eq_getD_cons (by omega) spaceChar]
  rcases advancePos_enc_cases (by decide) hpos with ⟨hlast, hnext⟩ | ⟨-, hsucc, hnext⟩
  · rw [pendingBytes_of_ready (henc ▸ hnext ▸ rfl), List.drop_eq_nil_of_le (by omega)]
  · rw [pendingBytes_of_hexs (by rw [henc, hnext]; exact hmode), henc, hnext]
    simp only [hsucc]

/-- A leading zero gives no byte (rule R123). -/
theorem decBytesFrom_skip {i v : Nat} (hi : i ≠ 0) (hzero : (extractDigit i v).1 = 0) :
    decBytesFrom i v false = decBytesFrom (i - 1) (extractDigit i v).2 false := by
  obtain ⟨n, rfl⟩ := Nat.exists_eq_succ_of_ne_zero hi
  simp only [decBytesFrom, hzero, and_self, if_true, Nat.succ_eq_add_one, Nat.add_sub_cancel]

/-- Any other digit above the units gives its character (rule R123). -/
theorem decBytesFrom_emit {i v : Nat} {started : Bool} (hi : i ≠ 0)
    (h : ¬((extractDigit i v).1 = 0 ∧ started = false)) :
    decBytesFrom i v started = digitChar (extractDigit i v).1 :: decBytesFrom (i - 1) (extractDigit i v).2 true := by
  obtain ⟨n, rfl⟩ := Nat.exists_eq_succ_of_ne_zero hi
  simp only [decBytesFrom, if_neg h, Nat.succ_eq_add_one, Nat.add_sub_cancel]

/-- In DEC above the units, a byte to emit is a digit that is no leading zero (rule R121). -/
theorem not_leadingZero_of_mustEmit {s : State} (hmode : s.enc.mode = .dec) (hmust : mustEmit s = true)
    (hidx : s.dec.idx ≠ 0#4) : ¬((extractDigit s.dec.idx.toNat s.dec.rem).1 = 0 ∧ s.dec.started = false) := by
  intro ⟨hzero, hstarted⟩
  exact absurd (hmust.symm.trans (mustEmit_eq_false_of_dec_leadingZero hmode hzero hstarted hidx)) (by decide)

/-- The mode, position and payload of a dispatched record owe exactly the record's bytes (rules R131, R140). -/
theorem pendingBytes_dispatch {p : Config.Params} {rec : Nat} {d : Renderer} {t : State} (htag : 4 ≤ recTag p rec)
    (henc : t.enc = { mode := tagMode (recTag p rec), pos := 0#4, pl := recPayload p rec })
    (hdec : t.dec = if recTag p rec = 5 then { idx := 9#4, rem := recPayload p rec, started := false } else d) :
    pendingBytes t = outBytes p rec := by
  have hlt := recTag_lt p rec
  have hcases : recTag p rec = 4 ∨ recTag p rec = 5 ∨ recTag p rec = 6 ∨ recTag p rec = 7 := by omega
  rcases hcases with h | h | h | h
  all_goals
    simp only [h] at henc hdec
    unfold outBytes
    rw [h]
  · rw [pendingBytes_of_verb (by rw [henc]; rfl), henc]; rfl
  · rw [pendingBytes_of_dec (by rw [henc]; rfl), hdec]; rfl
  · rw [pendingBytes_of_hex (by rw [henc]; rfl), henc]; rfl
  · rw [pendingBytes_of_hexs (by rw [henc]; rfl), henc]; rfl

/-- ENC's tick without `rst` conserves the bytes it owes: what it emits comes off their front, and a dispatch takes on the
bytes of the record that it pops (rules R138, R140). -/
theorem EncCase.conserves {s t : State} (hinv : EncoderInv s.cfg s.enc s.dec) (h : EncCase false s t) :
    t.encOut.cmdPop = false ∧ pendingBytes s = t.encOut.outPush.toList ++ pendingBytes t ∨
      t.encOut = { cmdPop := true, outPush := none } ∧ pendingBytes s = [] ∧
        ∃ rec rest, s.cmdq = rec :: rest ∧ pendingBytes t = outBytes s.cfg rec := by
  cases h with
  | reset hrst => exact absurd hrst Bool.false_ne_true
  | dispatch _ mode _ rec rest head tag enc dec out =>
    exact .inr ⟨out, pendingBytes_of_ready mode, rec, rest, head, pendingBytes_dispatch tag enc dec⟩
  | hold _ enc dec out =>
    refine .inl ⟨by rw [out]; rfl, ?_⟩
    rw [out, pendingBytes_congr enc dec]
    rfl
  | verbSkip _ mode zero enc _ out =>
    refine .inl ⟨by rw [out]; rfl, ?_⟩
    rw [out, pendingBytes_verb_advance mode (hinv.verb_pos mode) enc, zero]
    rfl
  | verbEmit _ mode nz _ enc _ out =>
    refine .inl ⟨by rw [out], ?_⟩
    rw [out, pendingBytes_verb_advance mode (hinv.verb_pos mode) enc]
    simp [nz]
  | decSkip _ mode _ zero started idx enc dec out =>
    refine .inl ⟨by rw [out]; rfl, ?_⟩
    rw [out, pendingBytes_of_dec mode, pendingBytes_of_dec (enc ▸ mode), dec, started,
      decBytesFrom_skip (nibble_toNat_ne_zero idx) zero, nibble_sub_one_toNat idx]
    rfl
  | decEmit _ mode _ must _ enc dec out =>
    refine .inl ⟨by rw [out], ?_⟩
    by_cases hzero : s.dec.idx = 0#4
    · rw [if_pos hzero] at enc
      rw [out, pendingBytes_of_dec mode, pendingBytes_of_decsp (by rw [enc]), hzero]
      rfl
    · rw [if_neg hzero] at enc
      simp only [if_neg hzero] at dec
      rw [out, pendingBytes_of_dec mode, pendingBytes_of_dec (enc ▸ mode), dec,
        decBytesFrom_emit (nibble_toNat_ne_zero hzero) (not_leadingZero_of_mustEmit mode must hzero),
        nibble_sub_one_toNat hzero]
      rfl
  | decspEmit _ mode _ enc _ out =>
    refine .inl ⟨by rw [out], ?_⟩
    rw [out, pendingBytes_of_decsp mode, pendingBytes_of_ready (by rw [enc])]
    rfl
  | hexEmit _ mode _ enc _ out =>
    refine .inl ⟨by rw [out], ?_⟩
    rw [out, pendingBytes_hex_advance mode (hinv.hex_pos mode) enc]
    rfl
  | hexsEmit _ mode _ enc _ out =>
    refine .inl ⟨by rw [out], ?_⟩
    rw [out, pendingBytes_hexs_advance mode (hinv.hexs_pos mode) enc]
    rfl

/-- ENC pushes only into an OUTQ with room (rule R130). -/
theorem EncCase.room_of_push {s t : State} (h : EncCase false s t) (hpush : t.encOut.outPush.isSome = true) :
    outqNotFull s = true := by
  cases h with
  | verbEmit _ _ _ room => exact room
  | decEmit _ _ _ _ room => exact room
  | decspEmit _ _ room => exact room
  | hexEmit _ _ room => exact room
  | hexsEmit _ _ room => exact room
  | reset hrst => exact absurd hrst Bool.false_ne_true
  | hold _ _ _ out => simp [out, EncoderOut.idle] at hpush
  | dispatch _ _ _ _ _ _ _ _ _ out => simp [out] at hpush
  | verbSkip _ _ _ _ _ out => simp [out, EncoderOut.idle] at hpush
  | decSkip _ _ _ _ _ _ _ _ out => simp [out, EncoderOut.idle] at hpush

/-- Without a record to dispatch, or without room in OUTQ, ENC pops no record, and in READY it stays there (rule R131). -/
theorem EncCase.no_dispatch {s t : State} (h : EncCase false s t) (hcan : canDispatch s = false) :
    t.encOut.cmdPop = false ∧ (s.enc.mode = .ready → t.enc.mode = .ready) := by
  have rendering : s.enc.mode ≠ .ready → t.encOut.cmdPop = false →
      t.encOut.cmdPop = false ∧ (s.enc.mode = .ready → t.enc.mode = .ready) := fun hmode hpop =>
    ⟨hpop, fun hready => absurd hready hmode⟩
  cases h with
  | reset hrst => exact absurd hrst Bool.false_ne_true
  | dispatch _ _ can => exact absurd (hcan.symm.trans can) Bool.false_ne_true
  | hold _ enc _ out => exact ⟨by rw [out]; rfl, fun hready => enc ▸ hready⟩
  | verbSkip _ mode _ _ _ out => exact rendering (by simp [mode]) (by rw [out]; rfl)
  | verbEmit _ mode _ _ _ _ out => exact rendering (by simp [mode]) (by rw [out])
  | decSkip _ mode _ _ _ _ _ _ out => exact rendering (by simp [mode]) (by rw [out]; rfl)
  | decEmit _ mode _ _ _ _ _ out => exact rendering (by simp [mode]) (by rw [out])
  | decspEmit _ mode _ _ _ out => exact rendering (by simp [mode]) (by rw [out])
  | hexEmit _ mode _ _ _ out => exact rendering (by simp [mode]) (by rw [out])
  | hexsEmit _ mode _ _ _ out => exact rendering (by simp [mode]) (by rw [out])

/-! ### The queues in a step without reset -/

/-- The record that CMDQ accepts from DRV in the tick, if it accepts one. -/
def acceptedRecord (s : State) : List Nat :=
  if (tickInput s).push && cmdqNotFull s then [dinEntry s.cfg .cmdq (tickInput s).din] else []

/-- CMDQ loses the record that ENC pops and gains the one that it accepts (rule R150). -/
theorem step_cmdq_of_no_rst {s t : State} (h : step s = .next t) (hrst : (tickInput s).rst = false) :
    t.cmdq = (if t.encOut.cmdPop then s.cmdq.drop 1 else s.cmdq) ++ acceptedRecord s := by
  rw [step_cmdq h, hrst, fifoNext_of_no_rst]
  rfl

/-- The history of accepted records gains the same one (rule R223). -/
theorem step_pushed_append {s t : State} (h : step s = .next t) (hrst : (tickInput s).rst = false) :
    t.env.pushed = s.env.pushed ++ acceptedRecord s := by
  rw [step_pushed_of_no_rst h hrst, pushAccepted, acceptedRecord, hrst]
  split <;> simp_all

/-- What XPORT has popped and what is left in OUTQ gain, together, the byte that ENC emits (rules R150, R156). -/
theorem step_popped_append_outq {s t : State} (h : step s = .next t) (hrst : (tickInput s).rst = false) :
    t.env.popped ++ t.outq = s.env.popped ++ s.outq ++ t.encOut.outPush.toList := by
  have hemitted : (if t.encOut.outPush.isSome && decide (s.outq.length < s.cfg.outDepth) then
      [t.encOut.outPush.getD 0#8] else []) = t.encOut.outPush.toList := by
    cases hpush : t.encOut.outPush with
    | none => rfl
    | some b =>
      have hroom := (step_encCase h hrst).room_of_push (by rw [hpush]; rfl)
      rw [outqNotFull] at hroom
      simp [hroom]
  have htaken : poppedByte s ++ (if xportPops (tickInput s).xport s then s.outq.drop 1 else s.outq) = s.outq := by
    unfold poppedByte
    rw [hrst]
    cases xportPops (tickInput s).xport s
    · rfl
    · exact List.take_append_drop 1 s.outq
  rw [step_popped h, step_outq h, hrst, fifoNext_of_no_rst, hemitted, ← List.append_assoc, if_neg Bool.false_ne_true,
    List.append_assoc s.env.popped, htaken]

/-- A tick with `rst` leaves nothing accepted, popped, queued or owed. -/
theorem ByteStream.of_rst {s t : State} (h : step s = .next t) (hrst : (tickInput s).rst = true) : ByteStream t := by
  obtain ⟨hmode, -⟩ := step_enc_of_rst h hrst
  have hpushed : t.env.pushed = [] := by
    obtain ⟨-, -, -, -, -, henv⟩ := step_fields h
    rw [henv]
    simp [envTick, hrst]
  unfold ByteStream
  rw [step_popped h, step_outq h, step_cmdq h, hrst, pendingBytes_of_ready hmode, hpushed]
  rfl

/-- A step without `rst` moves bytes and records along and loses none (rules R140, R156). -/
theorem ByteStream.of_no_rst {s t : State} (hinv : Inv s) (hstream : ByteStream s) (h : step s = .next t)
    (hrst : (tickInput s).rst = false) : ByteStream t := by
  have hmoved : t.encOut.outPush.toList ++ pendingBytes t ++
      (if t.encOut.cmdPop then s.cmdq.drop 1 else s.cmdq).flatMap (outBytes s.cfg) =
        pendingBytes s ++ s.cmdq.flatMap (outBytes s.cfg) := by
    rcases (step_encCase h hrst).conserves hinv.enc with ⟨hpop, hbytes⟩ | ⟨hout, hnone, rec, rest, hcmdq, hbytes⟩
    · rw [hpop, hbytes, if_neg Bool.false_ne_true]
    · rw [hout, hnone, hcmdq, hbytes]
      simp
  unfold ByteStream at hstream ⊢
  rw [step_popped_append_outq h hrst, step_cmdq_of_no_rst h hrst, step_pushed_append h hrst, step_cfg h,
    List.flatMap_append, List.flatMap_append, ← hstream]
  have haround := congrArg (fun l => s.env.popped ++ s.outq ++ l ++ (acceptedRecord s).flatMap (outBytes s.cfg)) hmoved
  simpa only [List.append_assoc] using haround

/-! ### The reference schedule -/

/-- Past the last position of a mode nothing remains, and before it one tick less (rule R143). -/
theorem remainingTicks_advance {s t : State} {last : Nat} (hlast : last < 15) (hpos : s.enc.pos.toNat ≤ last)
    (hremaining : ∀ u : State, u.enc.mode = s.enc.mode → remainingTicks u = last + 1 - u.enc.pos.toNat)
    (henc : t.enc = (advancePos last s).enc) : remainingTicks t + 1 = remainingTicks s := by
  rw [hremaining s rfl]
  rcases advancePos_enc_cases hlast hpos with ⟨heq, hnext⟩ | ⟨hlt, hsucc, hnext⟩
  · have hready : remainingTicks t = 0 := by simp only [remainingTicks, henc, hnext]
    omega
  · have hposition : t.enc.pos.toNat = s.enc.pos.toNat + 1 := by rw [henc, hnext]; exact hsucc
    rw [hremaining t (by rw [henc, hnext]), hposition]
    omega

/-- With room in OUTQ each tick of a rendering takes one tick off what remains (rule R143). -/
theorem EncCase.remainingTicks_succ {s t : State} (hinv : EncoderInv s.cfg s.enc s.dec) (h : EncCase false s t)
    (hroom : outqNotFull s = true) (hmode : s.enc.mode ≠ .ready) : remainingTicks t + 1 = remainingTicks s := by
  cases h with
  | reset hrst => exact absurd hrst Bool.false_ne_true
  | dispatch _ mode => exact absurd mode hmode
  | hold _ _ _ _ why =>
    rcases why with ⟨mode, -⟩ | ⟨-, full⟩
    · exact absurd mode hmode
    · exact absurd (hroom.symm.trans full) (by decide)
  | verbSkip _ mode _ enc =>
    exact remainingTicks_advance (by decide) (hinv.verb_pos mode)
      (fun u hu => by simp only [remainingTicks, hu, mode]) enc
  | verbEmit _ mode _ _ enc =>
    exact remainingTicks_advance (by decide) (hinv.verb_pos mode)
      (fun u hu => by simp only [remainingTicks, hu, mode]) enc
  | hexEmit _ mode _ enc =>
    exact remainingTicks_advance (by decide) (hinv.hex_pos mode)
      (fun u hu => by simp only [remainingTicks, hu, mode]) enc
  | hexsEmit _ mode _ enc =>
    exact remainingTicks_advance (by decide) (hinv.hexs_pos mode)
      (fun u hu => by simp only [remainingTicks, hu, mode]) enc
  | decSkip _ mode _ _ _ idx enc dec =>
    have hidx := nibble_toNat_ne_zero idx
    simp only [remainingTicks, enc, mode, dec, nibble_sub_one_toNat idx]
    omega
  | decEmit _ mode _ _ _ enc dec =>
    by_cases hzero : s.dec.idx = 0#4
    · simp only [remainingTicks, enc, mode, hzero, if_true]
      rfl
    · have hidx := nibble_toNat_ne_zero hzero
      simp only [remainingTicks, enc, mode, dec, if_neg hzero, nibble_sub_one_toNat hzero]
      omega
  | decspEmit _ mode _ enc => simp only [remainingTicks, enc, mode]

/-- A dispatch leaves the ticks of its command (rule R143). -/
theorem EncCase.remainingTicks_dispatch {s t : State} (h : EncCase false s t) (hmode : s.enc.mode = .ready)
    (hcan : canDispatch s = true) {rec : Nat} {rest : List Nat} (hcmdq : s.cmdq = rec :: rest) :
    remainingTicks t = if recTag s.cfg rec = 4 then 4 else if recTag s.cfg rec = 5 then 11
      else if recTag s.cfg rec = 6 then 9 else 12 := by
  cases h with
  | dispatch _ _ _ rec' rest' head _ enc dec =>
    cases hcmdq.symm.trans head
    simp only [remainingTicks, enc, dec, tagMode]
    by_cases h4 : recTag s.cfg rec = 4
    · simp [h4]
    by_cases h5 : recTag s.cfg rec = 5
    · simp [h5]
    by_cases h6 : recTag s.cfg rec = 6
    · simp [h6]
    · simp [h4, h5, h6]
  | hold _ _ _ _ why =>
    rcases why with ⟨-, hnot⟩ | ⟨must, -⟩
    · exact absurd (hcan.symm.trans hnot) (by decide)
    · exact absurd hmode (mode_ne_ready_of_mustEmit must)
  | reset hrst => exact absurd hrst Bool.false_ne_true
  | verbSkip _ mode => exact absurd (hmode.symm.trans mode) (by decide)
  | verbEmit _ mode => exact absurd (hmode.symm.trans mode) (by decide)
  | decSkip _ mode => exact absurd (hmode.symm.trans mode) (by decide)
  | decEmit _ mode => exact absurd (hmode.symm.trans mode) (by decide)
  | decspEmit _ mode => exact absurd (hmode.symm.trans mode) (by decide)
  | hexEmit _ mode => exact absurd (hmode.symm.trans mode) (by decide)
  | hexsEmit _ mode => exact absurd (hmode.symm.trans mode) (by decide)

theorem canDispatch_of_cons {s : State} {rec : Nat} {rest : List Nat} (hcmdq : s.cmdq = rec :: rest)
    (hroom : s.outq.length < s.cfg.outDepth) : canDispatch s = true := by
  simp [canDispatch, cmdqNotEmpty, hcmdq, outqNotFull_iff.mpr hroom]

/-! ### The byte values that ENC emits -/

theorem digitChar_range {d : Nat} (h : d ≤ 9) : 0x30 ≤ (digitChar d).toNat ∧ (digitChar d).toNat ≤ 0x39 := by
  have hlt : 0x30 + d < 2 ^ 8 := by omega
  rw [digitChar, BitVec.toNat_ofNat, Nat.mod_eq_of_lt hlt]
  omega

/-- A hex digit's character is a decimal digit or a letter from `a` to `f` (rule R80). -/
theorem hexChar_range {n : Nat} (h : n < 16) :
    (0x30 ≤ (hexChar n).toNat ∧ (hexChar n).toNat ≤ 0x39) ∨ (0x61 ≤ (hexChar n).toNat ∧ (hexChar n).toNat ≤ 0x66) := by
  revert n
  decide

theorem highNibble_lt (b : Byte) : highNibble b < 16 := Nat.mod_lt _ (by decide)

theorem lowNibble_lt (b : Byte) : lowNibble b < 16 := Nat.mod_lt _ (by decide)

/-- Every byte of a hex sequence is a hex digit's character or the space (rule R137). -/
theorem mem_hexSeq {pl : Nat} {spaced : Bool} {b : Byte} (h : b ∈ hexSeq pl spaced) :
    b = spaceChar ∨ ∃ n, n < 16 ∧ b = hexChar n := by
  rcases List.mem_append.mp h with hgroup | hlast
  · obtain ⟨g, -, hg⟩ := List.mem_flatMap.mp hgroup
    rcases List.mem_append.mp hg with hdigits | hspace
    · simp only [List.mem_cons, List.not_mem_nil, or_false] at hdigits
      rcases hdigits with hhigh | hlow
      · exact .inr ⟨_, highNibble_lt _, hhigh⟩
      · exact .inr ⟨_, lowNibble_lt _, hlow⟩
    · split at hspace
      · exact .inl (List.mem_singleton.mp hspace)
      · exact absurd hspace List.not_mem_nil
  · exact .inl (List.mem_singleton.mp hlast)

theorem getD_hexSeq (pl : Nat) (spaced : Bool) (k : Nat) :
    (hexSeq pl spaced).getD k spaceChar = spaceChar ∨
      ∃ n, n < 16 ∧ (hexSeq pl spaced).getD k spaceChar = hexChar n := by
  by_cases hk : k < (hexSeq pl spaced).length
  · rw [List.getD_eq_getElem _ _ hk]
    exact mem_hexSeq (List.getElem_mem hk)
  · exact .inl (List.getD_eq_default _ _ (Nat.le_of_not_lt hk))

theorem byte_ne_zero_of_le {b : Byte} (h : 0x20 ≤ b.toNat) : b ≠ 0x00#8 := by
  intro hzero
  rw [hzero] at h
  exact absurd h (by decide)

/-- The bytes of rule R79's table: not 0, and the space, a decimal digit or a letter from `a` to `f`. -/
theorem hexByte_codes {b : Byte} (h : b = spaceChar ∨ ∃ n, n < 16 ∧ b = hexChar n) :
    b ≠ 0x00#8 ∧ (b = 0x20#8 ∨ (0x30 ≤ b.toNat ∧ b.toNat ≤ 0x39) ∨ 0x61 ≤ b.toNat ∧ b.toNat ≤ 0x66) := by
  rcases h with rfl | ⟨n, hn, rfl⟩
  · exact ⟨by decide, .inl rfl⟩
  · rcases hexChar_range hn with hdigit | hletter
    · exact ⟨byte_ne_zero_of_le (by omega), .inr (.inl hdigit)⟩
    · exact ⟨byte_ne_zero_of_le (by omega), .inr (.inr hletter)⟩

/-- What ENC may push in each mode (rule R79). -/
theorem EncCase.push_codes {s t : State} {b : Byte} (h : EncCase false s t) (hpush : t.encOut.outPush = some b) :
    b ≠ 0x00#8 ∧
    (s.enc.mode ≠ .verb →
      b = 0x20#8 ∨ (0x30 ≤ b.toNat ∧ b.toNat ≤ 0x39) ∨
        ((s.enc.mode = .hex ∨ s.enc.mode = .hexs) ∧ 0x61 ≤ b.toNat ∧ b.toNat ≤ 0x66)) := by
  cases h with
  | reset hrst => exact absurd hrst Bool.false_ne_true
  | hold _ _ _ out => simp [out, EncoderOut.idle] at hpush
  | dispatch _ _ _ _ _ _ _ _ _ out => simp [out] at hpush
  | verbSkip _ _ _ _ _ out => simp [out, EncoderOut.idle] at hpush
  | decSkip _ _ _ _ _ _ _ _ out => simp [out, EncoderOut.idle] at hpush
  | verbEmit _ mode nz _ _ _ out =>
    rw [out] at hpush
    cases hpush
    exact ⟨nz, fun hnot => absurd mode hnot⟩
  | decEmit _ _ _ _ _ _ _ out =>
    rw [out] at hpush
    cases hpush
    obtain ⟨hdigit, -⟩ := extractDigit_spec s.dec.idx.toNat s.dec.rem
    have hrange := digitChar_range hdigit
    exact ⟨byte_ne_zero_of_le (by omega), fun _ => .inr (.inl hrange)⟩
  | decspEmit _ _ _ _ _ out =>
    rw [out] at hpush
    cases hpush
    exact ⟨by decide, fun _ => .inl rfl⟩
  | hexEmit _ mode _ _ _ out =>
    rw [out] at hpush
    cases hpush
    obtain ⟨hnz, hcode⟩ := hexByte_codes (getD_hexSeq s.enc.pl false s.enc.pos.toNat)
    exact ⟨hnz, fun _ => hcode.imp_right (Or.imp_right fun hletter => ⟨.inl mode, hletter⟩)⟩
  | hexsEmit _ mode _ _ _ out =>
    rw [out] at hpush
    cases hpush
    obtain ⟨hnz, hcode⟩ := hexByte_codes (getD_hexSeq s.enc.pl true s.enc.pos.toNat)
    exact ⟨hnz, fun _ => hcode.imp_right (Or.imp_right fun hletter => ⟨.inr mode, hletter⟩)⟩

end Sys2Proof.Machine

/-- Settles O50: ENC's tick conserves the bytes it owes, each FIFO the entries that pass through it, and both histories
record what passed; quiescence empties all that lies between them. -/
theorem byteStreamConserved : Obligations.ByteStreamConserved := by
  refine ⟨fun s t hinv hstream hstep => ?step, fun s hstream hquiet => ?quiescent⟩
  case step =>
    cases hrst : (tickInput s).rst with
    | true => exact .of_rst hstep hrst
    | false => exact .of_no_rst hinv hstream hstep hrst
  case quiescent =>
    simp only [quiescent, Bool.and_eq_true, decide_eq_true_eq, List.isEmpty_iff] at hquiet
    obtain ⟨⟨⟨hready, hcmdq⟩, houtq⟩, -⟩ := hquiet
    simpa [ByteStream, pendingBytes_of_ready hready, hcmdq, houtq] using hstream

/-- Settles O37: a hold needs a full OUTQ or nothing to dispatch, and every other tick of ENC is one of the schedule. -/
theorem referenceSchedule : Obligations.ReferenceSchedule := by
  intro s t hinv hstep hrst hroom
  have hcase := step_encCase hstep hrst
  exact ⟨hcase.remainingTicks_succ hinv.enc (outqNotFull_iff.mpr hroom), fun _ _ hmode hcmdq =>
    hcase.remainingTicks_dispatch hmode (canDispatch_of_cons hcmdq hroom) hcmdq⟩

/-- Settles O36: a tick with `rst` pushes nothing, and each emitting tick of ENC pushes a byte of its mode's table. -/
theorem emittedByteCodes : Obligations.EmittedByteCodes := by
  intro s t b hstep hpush
  cases hrst : (tickInput s).rst with
  | true =>
    obtain ⟨-, hout, -⟩ := step_enc_of_rst hstep hrst
    rw [hout] at hpush
    exact nomatch hpush
  | false => exact (step_encCase hstep hrst).push_codes hpush

/-- Settles O44: pops and pushes are judged on the queues at the start of the tick. -/
theorem noSameTickBypass : Obligations.NoSameTickBypass := by
  intro s t hstep hrst
  refine ⟨fun houtq => ?_, fun hcmdq => ?_, fun hfull => ?_⟩
  · rw [step_popped hstep, hrst]
    simp [poppedByte, houtq]
  · exact (step_encCase hstep hrst).no_dispatch (by simp [canDispatch, cmdqNotEmpty, hcmdq])
  · have hnone : acceptedRecord s = [] := by simp [acceptedRecord, cmdqNotFull, hfull]
    rw [step_pushed_append hstep hrst, step_cmdq_of_no_rst hstep hrst, hnone, List.append_nil, List.append_nil]
    exact ⟨rfl, rfl⟩

/-- Settles O52: a full OUTQ admits no dispatch, so CMDQ only gains what it accepts. -/
theorem fullOutputHoldsCommands : Obligations.FullOutputHoldsCommands := by
  intro s t hstep hrst hfull
  obtain ⟨hpop, -⟩ := (step_encCase hstep hrst).no_dispatch (by simp [canDispatch, outqNotFull_eq_false_iff.mpr hfull])
  refine ⟨hpop, acceptedRecord s, ?_⟩
  rw [step_cmdq_of_no_rst hstep hrst, hpop, if_neg Bool.false_ne_true]

end

section
/-! ## ENG: single operations, whole runs and the trace port -/

open Sys2Proof Sys2Proof.Machine

namespace Sys2Proof.Machine

/-! ### ADVANCE in one equation -/

theorem advanceRun_of_idle {p : Config.Params} {e : Engine} (h : e.phase = .idle) : advanceRun p e = e := by
  simp only [advanceRun, h]

/-- ADVANCE outside IDLE: the branches of rules R102 to R106 in their order. -/
theorem advanceRun_eq {p : Config.Params} {e : Engine} (hphase : e.phase ≠ .idle) :
    advanceRun p e =
      if e.value ≤ 1 then { e with phase := .active }
      else if stepBudget p ≤ e.steps then { traceWrite e with value := 1, exhausted := true, phase := .active }
      else if oddValue e then
        if headroomClear p e then
          { traceWrite e with value := (3 * e.value + 1) >>> 1, steps := e.steps + 2, phase := .active }
        else { traceWrite e with value := 1, overflow := true, phase := .active }
      else { traceWrite e with value := e.value >>> 1, steps := e.steps + 1, phase := .active } := by
  rcases advanceRun_cases p e with
    ⟨hidle, -⟩ | ⟨-, hle, heq⟩ | ⟨-, heff, hbudget, heq⟩ | ⟨-, heff, hbudget, hodd, hroom, heq⟩ |
      ⟨-, heff, hbudget, hodd, hroom, heq⟩ | ⟨-, heff, hbudget, heven, heq⟩
  · exact absurd hidle hphase
  · rw [heq, if_pos hle]
  · rw [heq, if_neg (Nat.not_le.mpr heff), if_pos hbudget]
  · rw [heq, if_neg (Nat.not_le.mpr heff), if_neg (Nat.not_le.mpr hbudget), if_pos hodd, if_pos hroom]
  · rw [heq, if_neg (Nat.not_le.mpr heff), if_neg (Nat.not_le.mpr hbudget), if_pos hodd, hroom,
      if_neg Bool.false_ne_true]
  · rw [heq, if_neg (Nat.not_le.mpr heff), if_neg (Nat.not_le.mpr hbudget), heven, if_neg Bool.false_ne_true]

theorem advanceRun_of_le_one {p : Config.Params} {e : Engine} (hphase : e.phase ≠ .idle) (hle : e.value ≤ 1) :
    advanceRun p e = { e with phase := .active } := by
  rw [advanceRun_eq hphase, if_pos hle]

/-- A step of the run at an odd value with headroom (rule R105). -/
theorem advanceRun_of_headroom {p : Config.Params} {e : Engine} (hphase : e.phase ≠ .idle) (heff : 1 < e.value)
    (hbudget : e.steps < stepBudget p) (hodd : e.value % 2 = 1) (hroom : headroomClear p e = true) :
    advanceRun p e =
      { traceWrite e with value := (3 * e.value + 1) >>> 1, steps := e.steps + 2, phase := .active } := by
  have hoddValue : oddValue e = true := by rw [oddValue_eq, hodd]; rfl
  rw [advanceRun_eq hphase, if_neg (Nat.not_le.mpr heff), if_neg (Nat.not_le.mpr hbudget), if_pos hoddValue, if_pos hroom]

/-- A step of the run at an even value (rule R106). -/
theorem advanceRun_of_even {p : Config.Params} {e : Engine} (hphase : e.phase ≠ .idle) (heff : 1 < e.value)
    (hbudget : e.steps < stepBudget p) (heven : e.value % 2 = 0) :
    advanceRun p e = { traceWrite e with value := e.value >>> 1, steps := e.steps + 1, phase := .active } := by
  have hevenValue : ¬oddValue e = true := by simp [oddValue_eq, heven]
  rw [advanceRun_eq hphase, if_neg (Nat.not_le.mpr heff), if_neg (Nat.not_le.mpr hbudget), if_neg hevenValue]

/-- The headroom check below its bound, whatever the value's width (rule R105). -/
theorem headroomClear_of_lt {p : Config.Params} {e : Engine} (hW : 2 ≤ p.W) (h : e.value < 2 ^ (p.W - 2)) :
    headroomClear p e = true := by
  have hfits : e.value < 2 ^ p.W := h.trans_le (Nat.pow_le_pow_right (by decide) (Nat.sub_le _ _))
  rw [headroomClear_eq p e hW hfits, decide_eq_true h]

/-! ### Runs of ADVANCE -/

/-- The first of `n + 1` ADVANCE operations, done. -/
theorem advances_succ (n : Nat) (s : State) :
    advances (n + 1) s = advances n (drawPort { s with eng := advanceRun s.cfg s.eng }) := rfl

/-- The last of `n + 1` ADVANCE operations, to be done. -/
theorem advances_succ_last (n : Nat) (s : State) :
    advances (n + 1) s = andThen (advances n s) (exec .engAdvance) := by
  induction n generalizing s with
  | zero => rfl
  | succ n ih => rw [advances_succ, ih, ← advances_succ]

/-- At value 1 or more an ADVANCE either ends the run or counts, within the budget (rules R103 to R106). -/
theorem advance_done_or_counts {s t : State} (hphase : s.eng.phase ≠ .idle) (hvalue : 1 ≤ s.eng.value)
    (ht : t = drawPort { s with eng := advanceRun s.cfg s.eng }) :
    doneO t = true ∨
      s.eng.steps < stepBudget s.cfg ∧ t.eng.phase ≠ .idle ∧ 1 ≤ t.eng.value ∧ s.eng.steps < t.eng.steps := by
  have hte : t.eng = advanceRun s.cfg s.eng := by rw [ht]; rfl
  have done : t.eng.phase = .active → t.eng.value = 1 → doneO t = true := fun hactive hone => by
    simp [doneO, hactive, hone]
  rw [advanceRun_eq hphase] at hte
  by_cases hle : s.eng.value ≤ 1
  · rw [if_pos hle] at hte
    exact .inl (done (by rw [hte]) (by rw [hte]; exact Nat.le_antisymm hle hvalue))
  by_cases hbudget : stepBudget s.cfg ≤ s.eng.steps
  · rw [if_neg hle, if_pos hbudget] at hte
    exact .inl (done (by rw [hte]) (by rw [hte]))
  have hbelow : s.eng.steps < stepBudget s.cfg := Nat.lt_of_not_le hbudget
  rw [if_neg hle, if_neg hbudget] at hte
  split at hte
  · split at hte
    · have hnext : 1 ≤ (3 * s.eng.value + 1) >>> 1 := by rw [Nat.shiftRight_one]; omega
      rw [hte]
      exact .inr ⟨hbelow, by simp, hnext, by simp⟩
    · exact .inl (done (by rw [hte]) (by rw [hte]))
  · have hnext : 1 ≤ s.eng.value >>> 1 := by rw [Nat.shiftRight_one]; omega
    rw [hte]
    exact .inr ⟨hbelow, by simp, hnext, by simp⟩

/-- A run whose budget has at most `k` steps left ends within `k + 1` ADVANCE operations (rule R113). -/
theorem run_ends_of_budget {k : Nat} {s : State} (hphase : s.eng.phase ≠ .idle) (hvalue : 1 ≤ s.eng.value)
    (hbudget : stepBudget s.cfg ≤ s.eng.steps + k) :
    ∃ n t, 1 ≤ n ∧ n ≤ k + 1 ∧ advances n s = .next t ∧ doneO t = true := by
  induction k generalizing s with
  | zero =>
    rcases advance_done_or_counts hphase hvalue rfl with hdone | ⟨hbelow, -⟩
    · exact ⟨1, _, Nat.le_refl 1, Nat.le_refl 1, rfl, hdone⟩
    · exact absurd hbelow (Nat.not_lt.mpr hbudget)
  | succ k ih =>
    rcases advance_done_or_counts hphase hvalue rfl with hdone | ⟨-, hphase', hvalue', hcounts⟩
    · exact ⟨1, _, Nat.le_refl 1, by omega, rfl, hdone⟩
    · obtain ⟨n, t, -, hn, hadvances, hdone⟩ := ih hphase' hvalue' (hbudget.trans (by omega))
      exact ⟨n + 1, t, by omega, by omega, hadvances, hdone⟩

/-! ### The shortcut trajectory -/

/-- A point where a run goes on, in the terms of ADVANCE's branches (rule R113). -/
theorem goesOn_iff {p : Config.Params} {xs : Nat × Nat} :
    goesOn p xs = true ↔ xs.1 ≠ 1 ∧ xs.2 < stepBudget p ∧ (xs.1 % 2 = 1 → xs.1 < 2 ^ (p.W - 2)) := by
  simp only [goesOn, stepBudget, Bool.and_eq_true, Bool.not_eq_true', Bool.and_eq_false_iff, decide_eq_true_eq,
    decide_eq_false_iff_not, Nat.not_le, ne_eq, and_assoc, imp_iff_not_or]

/-- The count rises along the trajectory, so no two of its points share an index of the trace. -/
theorem shortcut_count_strictMono (init : Nat) : StrictMono fun n => (shortcut init n).2 := by
  refine strictMono_nat_of_lt_succ fun n => ?_
  simp only [shortcut, shortcutStep]
  split <;> simp

/-- Where the run goes on, the next value of the trajectory is at least 1 and fits W bits. -/
theorem shortcutStep_bounds {p : Config.Params} {xs : Nat × Nat} (hW : 2 ≤ p.W) (hgo : goesOn p xs = true)
    (hpos : 1 ≤ xs.1) (hfits : xs.1 < 2 ^ p.W) : 1 ≤ (shortcutStep xs).1 ∧ (shortcutStep xs).1 < 2 ^ p.W := by
  obtain ⟨hne, -, hroom⟩ := goesOn_iff.mp hgo
  unfold shortcutStep
  by_cases hodd : xs.1 % 2 = 1
  · rw [if_pos hodd]
    have hlt := oddStep_value_lt hW (hroom hodd)
    rw [Nat.shiftRight_one] at hlt
    exact ⟨by dsimp only; omega, hlt.trans_le (two_pow_pred_le _)⟩
  · rw [if_neg hodd]
    exact ⟨by dsimp only; omega, (Nat.div_le_self _ _).trans_lt hfits⟩

theorem shortcut_bounds {p : Config.Params} {init n : Nat} (hW : 2 ≤ p.W) (hpos : 1 ≤ init) (hfits : init < 2 ^ p.W)
    (hgo : ∀ m, m < n → goesOn p (shortcut init m) = true) :
    1 ≤ (shortcut init n).1 ∧ (shortcut init n).1 < 2 ^ p.W := by
  induction n with
  | zero => exact ⟨hpos, hfits⟩
  | succ n ih =>
    obtain ⟨hpos', hfits'⟩ := ih fun m hm => hgo m (Nat.lt_succ_of_lt hm)
    exact shortcutStep_bounds hW (hgo n (Nat.lt_succ_self n)) hpos' hfits'

/-- Where the run goes on, ADVANCE is a step of the shortcut trajectory with its trace write (rules R105 to R107, R113). -/
theorem advanceRun_of_goesOn {p : Config.Params} {e : Engine} (hW : 2 ≤ p.W) (hphase : e.phase ≠ .idle)
    (hpos : 1 ≤ e.value) (hgo : goesOn p (e.value, e.steps) = true) :
    advanceRun p e =
      { traceWrite e with
        value := (shortcutStep (e.value, e.steps)).1
        steps := (shortcutStep (e.value, e.steps)).2
        phase := .active } := by
  obtain ⟨hne, hbudget, hroom⟩ := goesOn_iff.mp hgo
  dsimp only at hne hbudget hroom
  have heff : 1 < e.value := by omega
  rcases Nat.mod_two_eq_zero_or_one e.value with heven | hodd
  · rw [advanceRun_of_even hphase heff hbudget heven, Nat.shiftRight_one]
    simp [shortcutStep, heven]
  · rw [advanceRun_of_headroom hphase heff hbudget hodd (headroomClear_of_lt hW (hroom hodd)), Nat.shiftRight_one]
    simp [shortcutStep, hodd]

/-- `t` is the run that LOAD of `init` started in `s`, at point `n` of the trajectory (rule R113): its registers, the words
it has traced, and what ADVANCE left alone. -/
structure RunAt (s : State) (init n : Nat) (t : State) : Prop where
  frame : t = { s with eng := t.eng, draws := t.draws }
  running : t.eng.phase ≠ .idle
  value_eq : t.eng.value = (shortcut init n).1
  steps_eq : t.eng.steps = (shortcut init n).2
  no_overflow : t.eng.overflow = false
  not_exhausted : t.eng.exhausted = false
  traced : ∀ m, m < n → traceRead t (shortcut init m).2 = (shortcut init m).1

/-- What only ENG's operations changed in two stages, they changed in both together. -/
theorem frame_trans {s t u : State} (htu : u = { t with eng := u.eng, draws := u.draws })
    (hst : t = { s with eng := t.eng, draws := t.draws }) : u = { s with eng := u.eng, draws := u.draws } :=
  htu.trans (congrArg (fun x : State => { x with eng := u.eng, draws := u.draws }) hst)

theorem RunAt.cfg_eq {s t : State} {init n : Nat} (h : RunAt s init n t) : t.cfg = s.cfg := by rw [h.frame]

theorem RunAt.start {s : State} {init : Nat} (h : justLoaded init s.eng = true) : RunAt s init 0 s := by
  simp only [justLoaded, Bool.and_eq_true, decide_eq_true_eq, Bool.not_eq_true'] at h
  obtain ⟨⟨⟨⟨hvalue, hsteps⟩, hoverflow⟩, hexhausted⟩, hloaded⟩ := h
  exact ⟨rfl, by simp [hloaded], hvalue, hsteps, hoverflow, hexhausted, fun m hm => absurd hm (Nat.not_lt_zero m)⟩

/-- One ADVANCE takes a run that goes on to the next point of the trajectory. -/
theorem RunAt.advance {s t : State} {init n : Nat} (h : RunAt s init n t) (hW : 2 ≤ s.cfg.W)
    (hpos : 1 ≤ (shortcut init n).1) (hgo : goesOn s.cfg (shortcut init n) = true) :
    ∃ u, exec .engAdvance t = .next u ∧ RunAt s init (n + 1) u := by
  have hpoint : (t.eng.value, t.eng.steps) = shortcut init n := Prod.ext h.value_eq h.steps_eq
  have heng := advanceRun_of_goesOn (p := t.cfg) (e := t.eng) (h.cfg_eq ▸ hW) h.running (h.value_eq ▸ hpos)
    (by rw [hpoint, h.cfg_eq]; exact hgo)
  rw [hpoint] at heng
  rw [exec_engAdvance, heng]
  refine ⟨_, rfl, frame_trans (t := t) rfl h.frame, by simp, rfl, rfl, h.no_overflow, h.not_exhausted, fun m hm => ?_⟩
  refine (traceRead_of_traceWrite (s := t) (by rfl) (by rfl) _).trans ?_
  rw [h.steps_eq, h.value_eq]
  rcases Nat.lt_succ_iff_lt_or_eq.mp hm with hlt | rfl
  · rw [if_neg (shortcut_count_strictMono init hlt).ne, h.traced m hlt]
  · rw [if_pos rfl]

/-- While no stopping condition has held, `n` ADVANCE operations reach point `n` (rule R113). -/
theorem exists_runAt {s : State} {init n : Nat} (hW : 2 ≤ s.cfg.W) (hpos : 1 ≤ init) (hfits : init < 2 ^ s.cfg.W)
    (hloaded : justLoaded init s.eng = true) (hgo : ∀ m, m < n → goesOn s.cfg (shortcut init m) = true) :
    ∃ t, advances n s = .next t ∧ RunAt s init n t := by
  induction n with
  | zero => exact ⟨s, rfl, .start hloaded⟩
  | succ n ih =>
    have hbefore : ∀ m, m < n → goesOn s.cfg (shortcut init m) = true := fun m hm => hgo m (Nat.lt_succ_of_lt hm)
    obtain ⟨t, hadvances, hat⟩ := ih hbefore
    obtain ⟨hpos', -⟩ := shortcut_bounds hW hpos hfits hbefore
    obtain ⟨u, hexec, hat'⟩ := hat.advance hW hpos' (hgo n (Nat.lt_succ_self n))
    exact ⟨u, by rw [advances_succ_last, hadvances]; exact hexec, hat'⟩

/-- One ADVANCE ends a run at a point that stops it: normally at value 1, else by exhaustion at the budget, else by overflow
(rules R113, R192). -/
theorem RunAt.stop {s t : State} {init n : Nat} (h : RunAt s init n t) (hW : 2 ≤ s.cfg.W)
    (hpos : 1 ≤ (shortcut init n).1) (hfits : (shortcut init n).1 < 2 ^ s.cfg.W)
    (hstop : goesOn s.cfg (shortcut init n) = false) :
    ∃ u, exec .engAdvance t = .next u ∧ doneO u = true ∧ u.eng.steps = (shortcut init n).2 ∧
      (if (shortcut init n).1 = 1 then u.eng.overflow = false ∧ u.eng.exhausted = false
      else traceRead u (shortcut init n).2 = (shortcut init n).1 ∧
        if 2 ^ s.cfg.C - 2 ≤ (shortcut init n).2 then u.eng.overflow = false ∧ u.eng.exhausted = true
        else u.eng.overflow = true ∧ u.eng.exhausted = false) := by
  rw [← h.value_eq] at hpos hfits ⊢
  rw [← h.steps_eq]
  by_cases hone : t.eng.value = 1
  · refine ⟨_, exec_engAdvance t, ?_⟩
    rw [advanceRun_of_le_one h.running hone.le, if_pos hone]
    exact ⟨by simp [doneO, hone], rfl, h.no_overflow, h.not_exhausted⟩
  have heff : 1 < t.eng.value := by omega
  by_cases hbudget : 2 ^ s.cfg.C - 2 ≤ t.eng.steps
  · obtain ⟨u, hexec, -, -, hsteps, hoverflow, hexhausted, -, hdone, htrace⟩ := exec_engAdvance_of_forcedEnd
      (advanceRun_of_budgetReached (p := t.cfg) h.running heff (by rw [h.cfg_eq]; exact hbudget))
    refine ⟨u, hexec, hdone, hsteps, ?_⟩
    rw [if_neg hone, if_pos hbudget]
    exact ⟨by rw [htrace, if_pos rfl], hoverflow.trans h.no_overflow, hexhausted⟩
  · have hnot : ¬goesOn s.cfg (shortcut init n) = true := by simp [hstop]
    rw [goesOn_iff, ← h.value_eq, ← h.steps_eq] at hnot
    have hlarge : t.eng.value % 2 = 1 ∧ 2 ^ (s.cfg.W - 2) ≤ t.eng.value := by
      by_contra hcon
      exact hnot ⟨hone, Nat.lt_of_not_le hbudget, fun hodd => Nat.lt_of_not_le fun hle => hcon ⟨hodd, hle⟩⟩
    obtain ⟨u, hexec, -, -, hsteps, hoverflow, hexhausted, -, hdone, htrace⟩ := oddStepOverflows t (h.cfg_eq ▸ hW)
      h.running heff (h.cfg_eq ▸ Nat.lt_of_not_le hbudget) hlarge.1 (h.cfg_eq ▸ hlarge.2) (h.cfg_eq ▸ hfits)
    refine ⟨u, hexec, hdone, hsteps, ?_⟩
    rw [if_neg hone, if_neg hbudget]
    exact ⟨by rw [htrace, if_pos rfl], hoverflow, hexhausted.trans h.not_exhausted⟩

/-! ### The trace port -/

theorem traceRdataO_of_read {s : State} {a w : Nat} (h : s.eng.runTrace.read a = some w) : traceRdataO s a = w := by
  simp only [traceRdataO, h]

/-- An effective ADVANCE writes the run's words where it writes the trace (rule R107). -/
theorem advanceRun_runTrace {p : Config.Params} {e : Engine} (hphase : e.phase ≠ .idle) (heff : 1 < e.value) :
    (advanceRun p e).runTrace = e.runTrace.write e.steps e.value := by
  rw [advanceRun_eq hphase, if_neg (Nat.not_le.mpr heff)]
  repeat' split
  all_goals rfl

/-- In a tick whose control vector asks for an ADVANCE, ENG makes one. -/
theorem step_eng_of_advance {s t : State} (h : step s = .next t) (hadvance : engInstr s = .engAdvance) :
    t.eng = advanceRun s.cfg s.eng := by
  obtain ⟨-, -, ⟨d, hexec, -⟩, -⟩ := step_fields h
  rw [hadvance, exec_engAdvance] at hexec
  exact (congrArg State.eng (Host.Outcome.next.inj hexec)).symm

/-- ADVANCE leaves a completed run as it is (rule R110). -/
theorem advanceRun_of_done {s : State} (h : doneO s = true) : advanceRun s.cfg s.eng = s.eng := by
  simp only [doneO, Bool.and_eq_true, decide_eq_true_eq] at h
  obtain ⟨hactive, hone⟩ := h
  rw [advanceRun_of_le_one (by simp [hactive]) hone.le, ← hactive]

end Sys2Proof.Machine

/-- Settles O14: the budget leaves room for the two that an odd step counts. -/
theorem stepCounterNeverWraps : Obligations.StepCounterNeverWraps := by
  intro s t hfits hexec
  have hte : t.eng = advanceRun s.cfg s.eng := (congrArg State.eng (Host.Outcome.next.inj hexec)).symm
  rcases advanceRun_cases s.cfg s.eng with
    ⟨-, heq⟩ | ⟨-, -, heq⟩ | ⟨-, -, -, heq⟩ | ⟨-, -, hbudget, hodd, -, heq⟩ | ⟨-, -, -, -, -, heq⟩ |
      ⟨-, -, hbudget, heven, heq⟩
  all_goals rw [hte, heq]
  case inr.inr.inr.inl =>
    rw [stepBudget] at hbudget
    have hparity : s.eng.value % 2 = 1 := by simpa [oddValue_eq] using hodd
    exact ⟨by dsimp only; omega, .inr (.inl ⟨by omega, hparity, rfl⟩)⟩
  case inr.inr.inr.inr.inr =>
    rw [stepBudget] at hbudget
    have hparity : s.eng.value % 2 = 0 := by simpa [oddValue_eq] using heven
    exact ⟨by dsimp only; omega, .inr (.inr ⟨by omega, hparity, rfl⟩)⟩
  all_goals exact ⟨hfits, .inl rfl⟩

/-- Settles O9: with headroom the odd step loses no bit of `(3v + 1) / 2`. -/
theorem oddStepWithinHeadroom : Obligations.OddStepWithinHeadroom := by
  intro s hW hphase heff hbudget hodd hsmall
  refine ⟨_, exec_engAdvance s, rfl, ?_⟩
  rw [advanceRun_of_headroom hphase heff hbudget hodd (headroomClear_of_lt hW hsmall)]
  refine ⟨?_, oddStep_value_lt hW hsmall, rfl, rfl, rfl, rfl, traceRead_of_traceWrite rfl rfl⟩
  show 2 * ((3 * s.eng.value + 1) >>> 1) = 3 * s.eng.value + 1
  rw [Nat.shiftRight_one]
  omega

/-- Settles O8: the even step is the shift by one. -/
theorem evenStepHalves : Obligations.EvenStepHalves := by
  intro s hphase heff hbudget heven
  refine ⟨_, exec_engAdvance s, rfl, ?_⟩
  rw [advanceRun_of_even hphase heff hbudget heven]
  exact ⟨Nat.shiftRight_one _, rfl, rfl, rfl, rfl, traceRead_of_traceWrite rfl rfl⟩

/-- Settles O15: right after LOAD the whole budget of `2^C - 2` steps is left. -/
theorem runEndsWithinBudget : Obligations.RunEndsWithinBudget := by
  intro s init hvalid hpos _ hloaded
  have hat := RunAt.start hloaded
  obtain ⟨-, hC, -⟩ := hvalid
  obtain ⟨n, t, hn, hle, hadvances, hdone⟩ := run_ends_of_budget (k := stepBudget s.cfg) hat.running
    (hat.value_eq ▸ hpos) (Nat.le_add_left _ _)
  have hbudget : 2 ≤ 2 ^ s.cfg.C := Nat.le_self_pow (by omega) 2
  exact ⟨n, t, hn, by rw [stepBudget] at hle; omega, hadvances, hdone⟩

/-- Settles O16: by induction on the number of ADVANCE operations, each a step of the trajectory. -/
theorem runFollowsShortcutTrajectory : Obligations.RunFollowsShortcutTrajectory := by
  intro s init n hvalid hpos hfits hloaded hgo
  obtain ⟨hW, -⟩ := hvalid
  obtain ⟨t, hadvances, hat⟩ := exists_runAt hW hpos hfits hloaded hgo
  exact ⟨t, hadvances, hat.frame, hat.value_eq, hat.steps_eq, hat.no_overflow, hat.not_exhausted, hat.traced⟩

/-- Settles O17: the run reaches the first point that stops it, and the next ADVANCE ends it there. -/
theorem runOutcome : Obligations.RunOutcome := by
  intro s init n hvalid hpos hfits hloaded hgo hstop
  obtain ⟨hW, -⟩ := hvalid
  obtain ⟨t, hadvances, hat⟩ := exists_runAt hW hpos hfits hloaded hgo
  obtain ⟨hpos', hfits'⟩ := shortcut_bounds hW hpos hfits hgo
  obtain ⟨u, hexec, hend⟩ := hat.stop hW hpos' hfits' hstop
  exact ⟨u, by rw [advances_succ_last, hadvances]; exact hexec, hend⟩

/-- Settles O18: at value 0 an ADVANCE makes the run ACTIVE at most, and an ACTIVE run at value 0 is not done. -/
theorem runFromZeroHangs : Obligations.RunFromZeroHangs := by
  intro s n hphase hzero
  induction n generalizing s with
  | zero => exact ⟨s, rfl, hzero, rfl, rfl, rfl, by simp [doneO, hzero]⟩
  | succ n ih =>
    rw [advances_succ, advanceRun_of_le_one hphase (by omega)]
    exact ih _ (by simp) hzero

/-- Settles O19: a completed run meets only an ADVANCE at value 1, or a HOLD. -/
theorem completionPersists : Obligations.CompletionPersists := by
  intro s t hstep hdone hrst hload
  have heng : t.eng = s.eng := by
    rcases step_eng_cases hstep with ⟨hrst', -⟩ | ⟨-, hload', -⟩ | ⟨-, -, -, heng⟩ | ⟨-, -, -, heng⟩
    · exact absurd (hrst.symm.trans hrst') Bool.false_ne_true
    · exact absurd (hload.symm.trans hload') Bool.false_ne_true
    · exact heng.trans (advanceRun_of_done hdone)
    · exact heng
  refine ⟨heng, ?_⟩
  unfold doneO at hdone ⊢
  rwa [heng]

/-- Settles O20: the write is at the count, and the invariant has the run's earlier words below it. -/
theorem tracePortShowsRunWords : Obligations.TracePortShowsRunWords := by
  intro s t hinv hstep hadvance hphase heff
  have hread : ∀ a, t.eng.runTrace.read a = if a = s.eng.steps then some s.eng.value else s.eng.runTrace.read a :=
    fun a => by rw [step_eng_of_advance hstep hadvance, advanceRun_runTrace hphase heff, Memory.read_write]
  refine ⟨traceRdataO_of_read (by rw [hread, if_pos rfl]), fun a w hw => ⟨traceRdataO_of_read hw, ?_⟩⟩
  have hbelow : a < s.eng.steps := hinv.eng.run_below heff a w hw
  exact traceRdataO_of_read (by rw [hread, if_neg hbelow.ne, hw])

/-- Settles O56: LOAD and ENG_RESET empty the run's words, and each of ENG's operations draws the port's words anew. -/
theorem staleTraceWordsDrawnAfresh : Obligations.StaleTraceWordsDrawnAfresh := by
  refine ⟨fun s t init a h => ?_, fun s a hread => ?_, fun _ _ _ => exec_draws_le, fun s t init h => ?_,
    fun _ _ => step_draws_lt⟩
  · rcases h with h | h <;> (cases h; rfl)
  · simp only [traceRdataO, hread]
    rfl
  · rcases h with h | h | h | h <;> (cases h; simp)

/-- Settles O6: LOAD writes ENG's registers and leaves the trace. -/
theorem loadStartsRun : Obligations.LoadStartsRun := fun _ _ hinit =>
  ⟨_, rfl, rfl, trunc_of_lt hinit, rfl, rfl, rfl, rfl, rfl, traceRead_congr rfl rfl⟩

/-- Settles O7: neither ADVANCE is effective. -/
theorem ineffectiveAdvance : Obligations.IneffectiveAdvance := by
  refine fun s => ⟨fun hidle => ⟨s.draws + 1, ?_⟩, fun hphase hle => ⟨s.draws + 1, ?_⟩⟩
  · rw [exec_engAdvance, advanceRun_of_idle hidle]
    rfl
  · rw [exec_engAdvance, advanceRun_of_le_one hphase hle]
    rfl

/-- Settles O13: the registers of ENG_RESET are free values cut to their widths. -/
theorem engineResetReturnsToIdle : Obligations.EngineResetReturnsToIdle := fun s =>
  ⟨resetEngine s, rfl, rfl, rfl, rfl, trunc_lt _ _, trunc_lt _ _, traceRead_congr rfl rfl⟩

/-- Settles O12: HOLD only draws the port's words anew, and a FIFO's tick without a request keeps its queue. -/
theorem holdAndIdleKeepState : Obligations.HoldAndIdleKeepState := by
  refine fun s => ⟨⟨_, rfl⟩, ?_, ?_⟩
  · simp [exec, execFifoIdle, fifoTick, cmdqTick, takenBy, drawsOfPop]
  · simp [exec, execFifoIdle, fifoTick, outqTick, takenBy, drawsOfPop]

end

section
/-! ## EXT in closed form, ENC's positions, and the bytes of a command -/

open Sys2Proof Sys2Proof.Machine

namespace Sys2Proof.Machine

/-! ### EXT in closed form (rules R93, R94) -/

theorem extractDigit_fst (i v : Nat) : (extractDigit i v).1 = min 9 (v / 10 ^ i) := by
  obtain ⟨hd9, hle, -, hnext⟩ := extractDigit_spec i v
  have hpow : 0 < 10 ^ i := Nat.pow_pos (by decide)
  have hquot : (extractDigit i v).1 ≤ v / 10 ^ i := (Nat.le_div_iff_mul_le hpow).mpr hle
  rcases Nat.lt_or_ge (extractDigit i v).1 9 with hlt | hge
  · have hupper : v / 10 ^ i < (extractDigit i v).1 + 1 := Nat.div_lt_of_lt_mul (Nat.mul_comm _ _ ▸ hnext hlt)
    omega
  · omega

theorem extractDigit_snd (i v : Nat) : (extractDigit i v).2 = v - (extractDigit i v).1 * 10 ^ i := by
  obtain ⟨-, -, hrem, -⟩ := extractDigit_spec i v
  exact hrem

/-- Below `10^(i+1)` EXT divides (rule R93). -/
theorem extractDigit_of_lt {i v : Nat} (h : v < 10 ^ (i + 1)) : extractDigit i v = (v / 10 ^ i, v % 10 ^ i) := by
  have hquot : v / 10 ^ i < 10 := Nat.div_lt_of_lt_mul (by rwa [← Nat.pow_succ])
  have hdigit : (extractDigit i v).1 = v / 10 ^ i := by rw [extractDigit_fst]; omega
  have hmod := Nat.mod_eq_sub_div_mul (x := v) (k := 10 ^ i)
  exact Prod.ext hdigit (by rw [extractDigit_snd, hdigit, hmod])

/-! ### DEC's bytes (rules R123 to R125) -/

theorem decBytesFrom_succ_skip {i v : Nat} (hzero : (extractDigit (i + 1) v).1 = 0) :
    decBytesFrom (i + 1) v false = decBytesFrom i (extractDigit (i + 1) v).2 false :=
  decBytesFrom_skip (Nat.succ_ne_zero i) hzero

theorem decBytesFrom_succ_emit {i v : Nat} {started : Bool}
    (h : ¬((extractDigit (i + 1) v).1 = 0 ∧ started = false)) :
    decBytesFrom (i + 1) v started =
      digitChar (extractDigit (i + 1) v).1 :: decBytesFrom i (extractDigit (i + 1) v).2 true :=
  decBytesFrom_emit (Nat.succ_ne_zero i) h

/-- Every byte of the renderer is a digit's character. -/
theorem decBytesFrom_digits {i v : Nat} {started : Bool} {b : Byte} (h : b ∈ decBytesFrom i v started) :
    0x30 ≤ b.toNat ∧ b.toNat ≤ 0x39 := by
  induction i generalizing v started with
  | zero =>
    obtain ⟨hdigit, -⟩ := extractDigit_spec 0 v
    rw [List.mem_singleton.mp h]
    exact digitChar_range hdigit
  | succ i ih =>
    obtain ⟨hdigit, -⟩ := extractDigit_spec (i + 1) v
    simp only [decBytesFrom] at h
    split at h
    · exact ih h
    · rcases List.mem_cons.mp h with rfl | hrest
      · exact digitChar_range hdigit
      · exact ih hrest

/-- From position `i` down there are 1 to `i + 1` bytes. -/
theorem decBytesFrom_length (i v : Nat) (started : Bool) :
    1 ≤ (decBytesFrom i v started).length ∧ (decBytesFrom i v started).length ≤ i + 1 := by
  induction i generalizing v started with
  | zero => exact ⟨Nat.le_refl 1, Nat.le_refl 1⟩
  | succ i ih =>
    simp only [decBytesFrom]
    split
    · obtain ⟨hlow, hhigh⟩ := ih (extractDigit (i + 1) v).2 false
      omega
    · obtain ⟨hlow, hhigh⟩ := ih (extractDigit (i + 1) v).2 true
      simp only [List.length_cons]
      omega

/-- The reference decoder from a value already read. -/
def parseDecFrom (n : Nat) (bytes : List Byte) : Nat := bytes.foldl (fun n b => 10 * n + (b.toNat - 0x30)) n

/-- The decoder reads a digit's character as the digit. -/
theorem parseDecFrom_cons (n : Nat) {d : Nat} (hd : d ≤ 9) (bytes : List Byte) :
    parseDecFrom n (digitChar d :: bytes) = parseDecFrom (10 * n + d) bytes := by
  have hlt : 0x30 + d < 2 ^ 8 := by omega
  have hchar : (digitChar d).toNat - 0x30 = d := by
    rw [digitChar, BitVec.toNat_ofNat, Nat.mod_eq_of_lt hlt]
    omega
  rw [parseDecFrom, List.foldl_cons, hchar]
  rfl

/-- Once started, the renderer writes every digit below `10^(i+1)`, leading zeros included. -/
theorem parseDecFrom_started {i v : Nat} (hv : v < 10 ^ (i + 1)) (n : Nat) :
    parseDecFrom n (decBytesFrom i v true) = n * 10 ^ (i + 1) + v := by
  induction i generalizing v n with
  | zero =>
    have hdigit : v / 10 ^ 0 ≤ 9 := by omega
    rw [decBytesFrom, extractDigit_of_lt hv, parseDecFrom_cons n hdigit]
    simp [parseDecFrom]
    omega
  | succ i ih =>
    have hpow : 0 < 10 ^ (i + 1) := Nat.pow_pos (by decide)
    have hdigit : v / 10 ^ (i + 1) < 10 := Nat.div_lt_of_lt_mul (by rwa [← Nat.pow_succ])
    have hsplit := Nat.div_add_mod v (10 ^ (i + 1))
    rw [decBytesFrom_succ_emit (by simp), extractDigit_of_lt hv,
      parseDecFrom_cons n (Nat.le_of_lt_succ hdigit), ih (Nat.mod_lt v hpow), Nat.pow_succ 10 (i + 1)]
    linarith [hsplit]

/-- Before the start the leading zeros are left out, and what is written still reads as the value. -/
theorem parseDecFrom_unstarted {i v : Nat} (hv : v < 10 ^ (i + 1)) : parseDecFrom 0 (decBytesFrom i v false) = v := by
  induction i generalizing v with
  | zero =>
    have hdigit : v / 10 ^ 0 ≤ 9 := by omega
    rw [decBytesFrom, extractDigit_of_lt hv, parseDecFrom_cons 0 hdigit]
    simp [parseDecFrom]
  | succ i ih =>
    have hpow : 0 < 10 ^ (i + 1) := Nat.pow_pos (by decide)
    have hdigit : v / 10 ^ (i + 1) < 10 := Nat.div_lt_of_lt_mul (by rwa [← Nat.pow_succ])
    have hextract := extractDigit_of_lt hv
    by_cases hzero : v / 10 ^ (i + 1) = 0
    · have hlt : v < 10 ^ (i + 1) := (Nat.div_eq_zero_iff_lt hpow).mp hzero
      rw [decBytesFrom_succ_skip (by rw [hextract]; exact hzero), hextract,
        Nat.mod_eq_of_lt hlt, ih hlt]
    · have hsplit := Nat.div_add_mod v (10 ^ (i + 1))
      rw [decBytesFrom_succ_emit (by rw [hextract]; exact fun h => hzero h.1), hextract,
        parseDecFrom_cons 0 (Nat.le_of_lt_succ hdigit), parseDecFrom_started (Nat.mod_lt v hpow)]
      linarith [hsplit]

/-- In its domain the renderer's numeral reads as the value (rule R124). -/
theorem parseDec_decBytes {v : Nat} (hv : v ≤ 9999999999) : parseDec (decBytes v) = v :=
  parseDecFrom_unstarted (show v < 10 ^ (9 + 1) by omega)

theorem digitChar_eq_zero {d : Nat} (hd : d ≤ 9) (h : digitChar d = 0x30#8) : d = 0 := by
  have hnat := congrArg BitVec.toNat h
  rw [digitChar, BitVec.toNat_ofNat, Nat.mod_eq_of_lt (by omega)] at hnat
  simpa using hnat

/-- The numeral begins with `0` only for the value 0, whose numeral is that one digit. -/
theorem decBytesFrom_head_zero {i v : Nat} (hv : v < 10 ^ (i + 1))
    (hhead : (decBytesFrom i v false).head? = some 0x30#8) : v = 0 ∧ decBytesFrom i v false = [0x30#8] := by
  induction i generalizing v with
  | zero =>
    obtain ⟨hdigit, -⟩ := extractDigit_spec 0 v
    have hchar : digitChar (extractDigit 0 v).1 = 0x30#8 := Option.some.inj hhead
    have hzero := digitChar_eq_zero hdigit hchar
    rw [extractDigit_of_lt hv] at hzero
    exact ⟨by simpa using hzero, by rw [decBytesFrom, hchar]⟩
  | succ i ih =>
    obtain ⟨hdigit, -⟩ := extractDigit_spec (i + 1) v
    by_cases hzero : (extractDigit (i + 1) v).1 = 0
    · have hrem : (extractDigit (i + 1) v).2 = v := by rw [extractDigit_snd, hzero, Nat.zero_mul, Nat.sub_zero]
      have hlt : v < 10 ^ (i + 1) := by
        rw [extractDigit_of_lt hv] at hzero
        exact (Nat.div_eq_zero_iff_lt (Nat.pow_pos (by decide))).mp hzero
      rw [decBytesFrom_succ_skip hzero, hrem] at hhead ⊢
      exact ih hlt hhead
    · rw [decBytesFrom_succ_emit (fun h => hzero h.1)] at hhead
      exact absurd (digitChar_eq_zero hdigit (Option.some.inj hhead)) hzero

/-- From `10^(i+1) - 1` on, position `i` saturates at 9 and leaves as much for the next position (rule R125). -/
theorem extractDigit_saturated {i v : Nat} (hv : 10 ^ (i + 1) ≤ v + 1) :
    (extractDigit i v).1 = 9 ∧ 10 ^ i ≤ (extractDigit i v).2 + 1 := by
  have hpow : 0 < 10 ^ i := Nat.pow_pos (by decide)
  rw [Nat.pow_succ] at hv
  have hnine : 9 ≤ v / 10 ^ i := (Nat.le_div_iff_mul_le hpow).mpr (by omega)
  have hdigit : (extractDigit i v).1 = 9 := by rw [extractDigit_fst, Nat.min_eq_left hnine]
  exact ⟨hdigit, by rw [extractDigit_snd, hdigit]; omega⟩

theorem decBytesFrom_saturated {i v : Nat} {started : Bool} (hv : 10 ^ (i + 1) ≤ v + 1) :
    decBytesFrom i v started = List.replicate (i + 1) 0x39#8 := by
  obtain ⟨hdigit, hrem⟩ := extractDigit_saturated hv
  induction i generalizing v started with
  | zero =>
    rw [decBytesFrom, hdigit]
    rfl
  | succ i ih =>
    obtain ⟨hdigit', hrem'⟩ := extractDigit_saturated hrem
    rw [decBytesFrom_succ_emit (by simp [hdigit]), hdigit, ih hrem hdigit' hrem', List.replicate_succ (n := i + 1)]
    rfl

/-! ### Payload bytes and hex characters -/

/-- Payload byte `j`, least significant first (rule R56). -/
theorem payloadByte_eq (pl j : Nat) : payloadByte pl j = BitVec.ofNat 8 (pl / 256 ^ j % 256) := by
  rw [payloadByte, bitField, Nat.shiftRight_eq_div_pow, Nat.pow_mul]
  rfl

theorem payloadByte_toNat (pl j : Nat) : (payloadByte pl j).toNat = pl / 256 ^ j % 256 := by
  rw [payloadByte_eq, BitVec.toNat_ofNat]
  exact Nat.mod_mod _ _

theorem payloadByte_eq_zero_iff {pl j : Nat} : payloadByte pl j = 0#8 ↔ pl / 256 ^ j % 256 = 0 := by
  rw [← payloadByte_toNat, ← BitVec.toNat_inj]
  rfl

/-- The high half of payload byte `g` is hex digit `2g + 1`, counted from the least significant (rule R57). -/
theorem highNibble_payloadByte (pl g : Nat) : highNibble (payloadByte pl g) = pl / 16 ^ (2 * g + 1) % 16 := by
  have hpow : 16 ^ (2 * g + 1) = 256 ^ g * 16 := by rw [Nat.pow_succ, Nat.pow_mul]
  rw [highNibble, bitField, payloadByte_toNat, Nat.shiftRight_eq_div_pow, hpow, ← Nat.div_div_eq_div_mul]
  omega

theorem lowNibble_payloadByte (pl g : Nat) : lowNibble (payloadByte pl g) = pl / 16 ^ (2 * g) % 16 := by
  have hpow : 16 ^ (2 * g) = 256 ^ g := by rw [Nat.pow_mul]
  rw [lowNibble, bitField, payloadByte_toNat, Nat.shiftRight_zero, hpow]
  omega

/-- The character of hex digit `j` of a payload, counted from the least significant. -/
def hexDigitChar (pl j : Nat) : Byte := hexChar (pl / 16 ^ j % 16)

/-- HEX's bytes: eight hex digits, most significant first, and a space (rules R135, R137). -/
theorem hexSeq_plain (pl : Nat) : hexSeq pl false = [7, 6, 5, 4, 3, 2, 1, 0].map (hexDigitChar pl) ++ [spaceChar] := by
  simp [hexSeq, highNibble_payloadByte, lowNibble_payloadByte, hexDigitChar]

/-- HEXSPACED's bytes: a space after each two hex digits (rules R136, R137). -/
theorem hexSeq_spaced (pl : Nat) :
    hexSeq pl true =
      [hexDigitChar pl 7, hexDigitChar pl 6, spaceChar, hexDigitChar pl 5, hexDigitChar pl 4, spaceChar,
        hexDigitChar pl 3, hexDigitChar pl 2, spaceChar, hexDigitChar pl 1, hexDigitChar pl 0, spaceChar] := by
  simp [hexSeq, highNibble_payloadByte, lowNibble_payloadByte, hexDigitChar]

theorem hexDigitChar_eq (pl j : Nat) :
    hexDigitChar pl j =
      if pl / 16 ^ j % 16 < 10 then BitVec.ofNat 8 (0x30 + pl / 16 ^ j % 16)
      else BitVec.ofNat 8 (0x61 + (pl / 16 ^ j % 16 - 10)) := apply_ite (BitVec.ofNat 8) _ _ _

/-- Position `k` of HEX's bytes. -/
theorem hexSeq_plain_getD (pl : Nat) {k : Nat} (hk : k ≤ 8) :
    (hexSeq pl false).getD k spaceChar = if k = 8 then spaceChar else hexDigitChar pl (7 - k) := by
  rw [hexSeq_plain]
  interval_cases k <;> rfl

/-- Position `k` of HEXSPACED's bytes. -/
theorem hexSeq_spaced_getD (pl : Nat) {k : Nat} (hk : k ≤ 11) :
    (hexSeq pl true).getD k spaceChar =
      if k % 3 = 2 then spaceChar else hexDigitChar pl (7 - (2 * (k / 3) + k % 3)) := by
  rw [hexSeq_spaced]
  interval_cases k <;> rfl

/-- The reference decoder of hex text from a value already read (rule R141). -/
def parseHexFrom (n : Nat) (bytes : List Byte) : Nat :=
  bytes.foldl (fun n b => if b = spaceChar then n else 16 * n + hexValue b) n

/-- After the digits above `j`, the decoder takes in digit `j` of a payload (rules R80, R141). -/
theorem parseHexFrom_digit (pl j m : Nat) (rest : List Byte) :
    parseHexFrom (pl / 16 ^ (j + 1) % 16 ^ m) (hexDigitChar pl j :: rest) =
      parseHexFrom (pl / 16 ^ j % 16 ^ (m + 1)) rest := by
  have hchar : ∀ d, d < 16 → hexChar d ≠ spaceChar ∧ hexValue (hexChar d) = d := by decide
  obtain ⟨hne, hvalue⟩ := hchar (pl / 16 ^ j % 16) (Nat.mod_lt _ (by decide))
  have hdigits : 16 * (pl / 16 ^ (j + 1) % 16 ^ m) + pl / 16 ^ j % 16 = pl / 16 ^ j % 16 ^ (m + 1) := by
    rw [Nat.pow_succ' (n := m), Nat.mod_mul, Nat.pow_succ, Nat.div_div_eq_div_mul, Nat.add_comm]
  rw [parseHexFrom, List.foldl_cons, hexDigitChar, if_neg hne, hvalue, hdigits]
  rfl

/-- The decoder passes over a space. -/
theorem parseHexFrom_space (n : Nat) (rest : List Byte) :
    parseHexFrom n (spaceChar :: rest) = parseHexFrom n rest := rfl

/-- Before the first of a payload's eight digits the decoder has read nothing. -/
theorem parseHex_start (pl : Nat) (bytes : List Byte) :
    parseHex bytes = parseHexFrom (pl / 16 ^ (7 + 1) % 16 ^ 0) bytes := by
  rw [Nat.pow_zero, Nat.mod_one]
  rfl

theorem eight_digits (pl : Nat) : parseHexFrom (pl / 16 ^ 0 % 16 ^ (7 + 1)) [] = pl % 2 ^ 32 := by
  rw [Nat.pow_zero, Nat.div_one]
  rfl

/-- The eight hex digits of a payload are its low 32 bits. -/
theorem parseHex_plain (pl : Nat) : parseHex (hexSeq pl false) = pl % 2 ^ 32 := by
  rw [parseHex_start pl, hexSeq_plain]
  simp only [List.map_cons, List.map_nil, List.cons_append, List.nil_append]
  rw [parseHexFrom_digit pl 7 0, parseHexFrom_digit pl 6 1, parseHexFrom_digit pl 5 2, parseHexFrom_digit pl 4 3,
    parseHexFrom_digit pl 3 4, parseHexFrom_digit pl 2 5, parseHexFrom_digit pl 1 6, parseHexFrom_digit pl 0 7,
    parseHexFrom_space, eight_digits]

theorem parseHex_spaced (pl : Nat) : parseHex (hexSeq pl true) = pl % 2 ^ 32 := by
  rw [parseHex_start pl, hexSeq_spaced, parseHexFrom_digit pl 7 0, parseHexFrom_digit pl 6 1, parseHexFrom_space,
    parseHexFrom_digit pl 5 2, parseHexFrom_digit pl 4 3, parseHexFrom_space, parseHexFrom_digit pl 3 4,
    parseHexFrom_digit pl 2 5, parseHexFrom_space, parseHexFrom_digit pl 1 6, parseHexFrom_digit pl 0 7,
    parseHexFrom_space, eight_digits]

/-- VERBATIM's bytes, as numbers (rule R132). -/
theorem verbBytes_toNat (pl : Nat) :
    (verbBytes pl).map BitVec.toNat =
      [pl % 256, pl / 256 % 256, pl / 65536 % 256, pl / 16777216 % 256].filter fun n => n != 0 := by
  have hbytes : [0, 1, 2, 3].map (fun j => (payloadByte pl j).toNat) =
      [pl % 256, pl / 256 % 256, pl / 65536 % 256, pl / 16777216 % 256] := by
    simp [payloadByte_toNat]
  have hzero : ∀ b : Byte, (b != 0#8) = (b.toNat != 0) := by decide
  rw [← hbytes, ← Function.comp_def BitVec.toNat, ← List.map_map, List.filter_map, verbBytes]
  simp only [hzero]
  rfl

/-! ### The bytes of a record, by its tag (rule R140) -/

theorem outBytes_verbatim {p : Config.Params} {r : Nat} (h : recTag p r = 4) :
    outBytes p r = verbBytes (recPayload p r) := by simp only [outBytes, h]

theorem outBytes_decimal {p : Config.Params} {r : Nat} (h : recTag p r = 5) :
    outBytes p r = decBytes (recPayload p r) ++ [spaceChar] := by simp only [outBytes, h]

theorem outBytes_hex {p : Config.Params} {r : Nat} (h : recTag p r = 6) :
    outBytes p r = hexSeq (recPayload p r) false := by simp only [outBytes, h]

theorem outBytes_hexspaced {p : Config.Params} {r : Nat} (h : recTag p r = 7) :
    outBytes p r = hexSeq (recPayload p r) true := by simp only [outBytes, h]

/-! ### One position of ENC -/

theorem canDispatch_eq_false {s : State} (h : s.cmdq = [] ∨ s.cfg.outDepth ≤ s.outq.length) :
    canDispatch s = false := by
  rcases h with hcmdq | hfull
  · simp [canDispatch, cmdqNotEmpty, hcmdq]
  · simp [canDispatch, outqNotFull_eq_false_iff.mpr hfull]

/-- VERB's step: a zero byte is passed, another is emitted if OUTQ has room, and else ENC holds (rule R132). -/
theorem verbStep_eq (s : State) :
    verbStep s =
      if payloadByte s.enc.pl s.enc.pos.toNat = 0#8 then
        { s with encOut := EncoderOut.idle, enc := (advancePos 3 s).enc }
      else if outqNotFull s then
        { s with
          encOut := { cmdPop := false, outPush := some (payloadByte s.enc.pl s.enc.pos.toNat) }
          enc := (advancePos 3 s).enc }
      else encHold s := by
  rw [verbStep, encHold, emit, (advancePos_enc 3 s EncoderOut.idle).2,
    (advancePos_enc 3 s { cmdPop := false, outPush := some (payloadByte s.enc.pl s.enc.pos.toNat) }).2]

/-- A hex mode's step: the byte of its position if OUTQ has room, and else a hold (rules R135, R136). -/
theorem hexStep_eq (spaced : Bool) (last : Nat) (s : State) :
    hexStep spaced last s =
      if outqNotFull s then
        { s with
          encOut := { cmdPop := false, outPush := some ((hexSeq s.enc.pl spaced).getD s.enc.pos.toNat spaceChar) }
          enc := (advancePos last s).enc }
      else encHold s := by
  rw [hexStep, emit, (advancePos_enc last s _).2]

/-- What ENC's next position keeps, and where it goes. -/
theorem advancePos_enc_spec {last : Nat} {s : State} (hlast : last < 15) (hpos : s.enc.pos.toNat ≤ last) :
    (advancePos last s).enc.pl = s.enc.pl ∧
      (s.enc.pos.toNat = last → (advancePos last s).enc.mode = .ready) ∧
      (s.enc.pos.toNat < last →
        (advancePos last s).enc.mode = s.enc.mode ∧ (advancePos last s).enc.pos.toNat = s.enc.pos.toNat + 1) := by
  rcases advancePos_enc_cases hlast hpos with ⟨heq, henc⟩ | ⟨hlt, hsucc, henc⟩
  · rw [henc]
    exact ⟨rfl, fun _ => rfl, fun hlt => absurd hlt (by omega)⟩
  · rw [henc]
    exact ⟨rfl, fun heq => absurd heq (by omega), fun _ => ⟨rfl, hsucc⟩⟩

/-- A step of a hex mode with room emits its byte and goes to the next position, or to READY after the last; and without
room it holds. -/
theorem hexStep_position {spaced : Bool} {last k : Nat} {b : Byte} {s : State} (hlast : last < 15)
    (hk : s.enc.pos.toNat = k) (hle : k ≤ last) (hbyte : (hexSeq s.enc.pl spaced).getD k spaceChar = b) :
    ∃ t, hexStep spaced last s = t ∧ t = { s with enc := t.enc, encOut := t.encOut } ∧
      t.enc.pl = s.enc.pl ∧ t.encOut.cmdPop = false ∧
      (if s.outq.length < s.cfg.outDepth then
        t.encOut.outPush = some b ∧
          (if k = last then t.enc.mode = .ready else t.enc.mode = s.enc.mode ∧ t.enc.pos.toNat = k + 1)
      else t.encOut.outPush = none ∧ t.enc = s.enc) := by
  subst hk
  refine ⟨_, rfl, ?_⟩
  rw [hexStep_eq]
  by_cases hroom : s.outq.length < s.cfg.outDepth
  · obtain ⟨hpl, hready, hnext⟩ := advancePos_enc_spec hlast hle
    rw [if_pos (outqNotFull_iff.mpr hroom), if_pos hroom]
    refine ⟨rfl, hpl, rfl, congrArg some hbyte, ?_⟩
    split
    · exact hready (by assumption)
    · exact hnext (by omega)
  · rw [if_neg (outqNotFull_iff.not.mpr hroom), if_neg hroom]
    exact ⟨rfl, rfl, rfl, rfl, rfl⟩

/-- DEC's step with the digit `d` and the remainder `r` that EXT shows (rules R121, R122). -/
theorem decPosition_spec {s : State} {d r : Nat} (hmode : s.enc.mode = .dec) (hd : s.func.digit = d)
    (hr : s.func.remainder = r) :
    ∃ t, decPosition s = t ∧ t = { s with enc := t.enc, dec := t.dec, encOut := t.encOut } ∧
      t.encOut.cmdPop = false ∧ t.enc.pos = s.enc.pos ∧ t.enc.pl = s.enc.pl ∧
      (if d = 0 ∧ s.dec.started = false ∧ s.dec.idx.toNat ≠ 0 then
        t.encOut.outPush = none ∧ t.enc.mode = .dec ∧ t.dec.rem = r ∧ t.dec.started = false ∧
          t.dec.idx.toNat = s.dec.idx.toNat - 1
      else if s.outq.length < s.cfg.outDepth then
        t.encOut.outPush = some (digitChar d) ∧ t.dec.rem = r ∧ t.dec.started = true ∧
          (if s.dec.idx.toNat = 0 then t.enc.mode = .decsp
          else t.enc.mode = .dec ∧ t.dec.idx.toNat = s.dec.idx.toNat - 1)
      else t.encOut.outPush = none ∧ t.enc = s.enc ∧ t.dec = s.dec) := by
  subst hd hr
  have hidx : s.dec.idx.toNat = 0 ↔ s.dec.idx = 0#4 := ⟨fun h => BitVec.eq_of_toNat_eq h, fun h => by rw [h]; rfl⟩
  simp only [ne_eq, hidx]
  by_cases hskip : s.func.digit = 0 ∧ s.dec.started = false ∧ ¬s.dec.idx = 0#4
  · refine ⟨_, if_pos hskip, rfl, rfl, rfl, rfl, ?_⟩
    rw [if_pos hskip]
    obtain ⟨-, hstarted, hne⟩ := hskip
    exact ⟨rfl, hmode, rfl, hstarted, nibble_sub_one_toNat hne⟩
  by_cases hroom : s.outq.length < s.cfg.outDepth
  · have hnotFull : outqNotFull s = true := outqNotFull_iff.mpr hroom
    by_cases hzero : s.dec.idx = 0#4
    · refine ⟨_, (if_neg hskip).trans ((if_pos hnotFull).trans (if_pos hzero)), rfl, rfl, rfl, rfl, ?_⟩
      rw [if_neg hskip, if_pos hroom, if_pos hzero]
      exact ⟨rfl, rfl, rfl, rfl⟩
    · refine ⟨_, (if_neg hskip).trans ((if_pos hnotFull).trans (if_neg hzero)), rfl, rfl, rfl, rfl, ?_⟩
      rw [if_neg hskip, if_pos hroom, if_neg hzero]
      exact ⟨rfl, rfl, rfl, hmode, nibble_sub_one_toNat hzero⟩
  · refine ⟨_, (if_neg hskip).trans (if_neg (outqNotFull_iff.not.mpr hroom)), rfl, rfl, rfl, rfl, ?_⟩
    rw [if_neg hskip, if_neg hroom]
    exact ⟨rfl, rfl, rfl⟩

end Sys2Proof.Machine

/-- Settles O23: the largest multiple up to 9 that fits is the quotient, cut off at 9. -/
theorem extractClosedForm : Obligations.ExtractClosedForm := by
  intro s i v hi
  obtain ⟨-, hle, -, hnext⟩ := extractDigit_spec i.toNat v
  refine ⟨_, exec_extract_of_le hi v s, extractDigit_fst _ _, extractDigit_snd _ _, fun hlt => ?_, hle, hnext⟩
  rw [extractDigit_of_lt hlt]
  exact ⟨rfl, rfl⟩

/-- Settles O24: both operations look the row up first, and the table has none there. -/
theorem indexOutsideDomainFaults : Obligations.IndexOutsideDomainFaults := fun s i v hi =>
  ⟨if_neg (Nat.not_le.mpr hi), (extractOp_eq i v s).trans (if_neg (Nat.not_le.mpr hi))⟩

/-- Settles O27: EXT's closed form gives the digit and the remainder, and DEC's step the rest. -/
theorem decimalPosition : Obligations.DecimalPosition := by
  intro s pl d r hmode hidx hd hr
  have hdigit : (extracted s).digit = d := (extractDigit_fst _ _).trans hd.symm
  have hrem : (extracted s).remainder = r := by rw [hr, ← hdigit]; exact extractDigit_snd _ _
  obtain ⟨t, ht, hframe, hpop, hpos, hpl, hcases⟩ :=
    decPosition_spec (s := { s with func := extracted s }) hmode hdigit hrem
  refine ⟨t, (exec_decimal_of_dec hmode hidx pl).trans (congrArg _ ht), ?_, hpop, hpos, hpl, ?_⟩
  · rw [hframe]
  · by_cases hskip : d = 0 ∧ s.dec.started = false ∧ s.dec.idx.toNat ≠ 0
    · have hkept : r = s.dec.rem := by rw [hr, hskip.1, Nat.zero_mul, Nat.sub_zero]
      rw [if_pos hskip] at hcases ⊢
      rwa [hkept] at hcases
    · rw [if_neg hskip] at hcases ⊢
      exact hcases

/-- Settles O29: position `k` of HEX's bytes, emitted by the hex modes' common step. -/
theorem hexPosition : Obligations.HexPosition := by
  intro s pl k n hmode hpos hk hn
  obtain ⟨t, ht, hstep⟩ := hexStep_position (spaced := false) (last := 8) (by decide) hpos hk (hexSeq_plain_getD _ hk)
  refine ⟨t, (exec_hex_of_hex hmode pl).trans (congrArg _ ht), ?_⟩
  rwa [hexDigitChar_eq, ← hn, hmode] at hstep

/-- Settles O30: position `k` of HEXSPACED's bytes, emitted by the hex modes' common step. -/
theorem hexspacedPosition : Obligations.HexspacedPosition := by
  intro s pl k n hmode hpos hk hn
  obtain ⟨t, ht, hstep⟩ := hexStep_position (spaced := true) (last := 11) (by decide) hpos hk (hexSeq_spaced_getD _ hk)
  refine ⟨t, (exec_hexspaced_of_hexs hmode pl).trans (congrArg _ ht), ?_⟩
  rwa [hexDigitChar_eq, ← hn, hmode] at hstep

/-- Settles O33: in its domain the renderer writes every digit from the first that is not 0 on. -/
theorem decimalNumeral : Obligations.DecimalNumeral := by
  intro v hv
  have hdomain : v < 10 ^ (9 + 1) := by omega
  obtain ⟨hlow, hhigh⟩ := decBytesFrom_length 9 v false
  exact ⟨parseDec_decBytes hv, hlow, hhigh, fun _ => decBytesFrom_digits, decBytesFrom_head_zero hdomain⟩

/-- Settles O34: from the end of the domain on every position saturates. -/
theorem decimalSaturates : Obligations.DecimalSaturates := fun v hv =>
  decBytesFrom_saturated (show 10 ^ (9 + 1) ≤ v + 1 by omega)

/-- Settles O35: `packRecord`'s fields select the command's byte sequence, and each sequence reads back. -/
theorem protocolRoundTrip : Obligations.ProtocolRoundTrip := by
  intro p rsv pl _ hrsv hpl
  have hfields : ∀ tag, tag < 8 →
      recTag p (packRecord p tag rsv pl) = tag ∧ recPayload p (packRecord p tag rsv pl) = pl := fun tag ht => by
    obtain ⟨-, htag, -, hpayload⟩ := packRecord_fields p ht hrsv hpl
    exact ⟨htag, hpayload⟩
  obtain ⟨htag4, hpayload4⟩ := hfields 4 (by decide)
  obtain ⟨htag5, hpayload5⟩ := hfields 5 (by decide)
  obtain ⟨htag6, hpayload6⟩ := hfields 6 (by decide)
  obtain ⟨htag7, hpayload7⟩ := hfields 7 (by decide)
  rw [outBytes_verbatim htag4, outBytes_decimal htag5, outBytes_hex htag6, outBytes_hexspaced htag7, hpayload4, hpayload5,
    hpayload6, hpayload7]
  exact ⟨fun hdomain => ⟨decBytes pl, rfl, parseDec_decBytes hdomain⟩, parseHex_plain pl, parseHex_spaced pl,
    verbBytes_toNat pl⟩

/-- Settles O25: a dispatch latches a payload that fits as it stands. -/
theorem commandsDispatch : Obligations.CommandsDispatch := by
  intro s pl hmode hpl
  rw [exec_verbatim_of_ready hmode, exec_decimal_of_ready hmode, exec_hex_of_ready hmode,
    exec_hexspaced_of_ready hmode]
  refine ⟨fun hcmdq hroom => ?dispatch, fun hnot => ?hold⟩
  case dispatch =>
    obtain ⟨rec, rest, hcons⟩ := List.exists_cons_of_ne_nil hcmdq
    have hcan := canDispatch_of_cons hcons hroom
    simp [readyStep, readyStepDec, hcan, latchCommand, decStart, trunc_of_lt hpl]
  case hold =>
    have hcan := canDispatch_eq_false hnot
    simp [readyStep, readyStepDec, hcan, encHold, EncoderOut.idle]

/-- Settles O26: the three cases of VERB's step, with byte `j` as a quotient. -/
theorem verbatimPosition : Obligations.VerbatimPosition := by
  intro s pl hmode hpos
  obtain ⟨hpl, hready, hnext⟩ := advancePos_enc_spec (by decide) hpos
  rw [hmode] at hnext
  refine ⟨_, exec_verbatim_of_verb hmode pl, ?_⟩
  rw [verbStep_eq]
  by_cases hzero : s.enc.pl / 256 ^ s.enc.pos.toNat % 256 = 0
  · rw [if_pos (payloadByte_eq_zero_iff.mpr hzero)]
    exact ⟨rfl, hpl, rfl, fun h => absurd hzero h.1, fun _ => ⟨by rw [if_pos hzero]; rfl, hready, hnext⟩⟩
  rw [if_neg (payloadByte_eq_zero_iff.not.mpr hzero)]
  by_cases hroom : s.outq.length < s.cfg.outDepth
  · rw [if_pos (outqNotFull_iff.mpr hroom)]
    exact ⟨rfl, hpl, rfl, fun h => absurd hroom (Nat.not_lt.mpr h.2), fun _ =>
      ⟨by rw [if_neg hzero, ← payloadByte_eq], hready, hnext⟩⟩
  · rw [if_neg (outqNotFull_iff.not.mpr hroom)]
    exact ⟨rfl, rfl, rfl, fun _ => ⟨rfl, rfl⟩, fun h => absurd h (not_or.mpr ⟨hzero, hroom⟩)⟩

end

section
/-! ## The FIFOs: pops, the order law, and the ring buffer -/

open Sys2Proof Sys2Proof.Machine

namespace Sys2Proof.Machine

/-! ### A tick with a pop, on each queue (rules R152, R153, R155) -/

theorem cmdqTick_pop_of_cons {s : State} {rec : Nat} {rest : List Nat} (h : s.cmdq = rec :: rest) (push : Bool)
    (din : Nat) :
    cmdqTick false push true din s = { s with
      cmdq := rest ++ if push && decide (s.cmdq.length < s.cfg.cmdDepth) then [dinEntry s.cfg .cmdq din] else []
      cmdTaken := .entry rec } := by
  simp [cmdqTick, fifoNext_of_no_rst, takenBy, drawsOfPop, h]

theorem cmdqTick_pop_of_nil {s : State} (h : s.cmdq = []) (push : Bool) (din : Nat) :
    cmdqTick false push true din s = { s with
      cmdq := if push && decide (0 < s.cfg.cmdDepth) then [dinEntry s.cfg .cmdq din] else []
      cmdTaken := .unspecified (freeBits s 0 (entryWidth s.cfg .cmdq)), draws := s.draws + 1 } := by
  simp [cmdqTick, fifoNext_of_no_rst, takenBy, drawsOfPop, h]

theorem outqTick_pop_of_cons {s : State} {b : Byte} {rest : List Byte} (h : s.outq = b :: rest) (push : Bool)
    (din : Nat) :
    outqTick false push true din s = { s with
      outq := rest ++
        if push && decide (s.outq.length < s.cfg.outDepth) then [BitVec.ofNat 8 (dinEntry s.cfg .outq din)] else []
      outTaken := .entry b.toNat } := by
  simp [outqTick, fifoNext_of_no_rst, takenBy, drawsOfPop, h]

theorem outqTick_pop_of_nil {s : State} (h : s.outq = []) (push : Bool) (din : Nat) :
    outqTick false push true din s = { s with
      outq := if push && decide (0 < s.cfg.outDepth) then [BitVec.ofNat 8 (dinEntry s.cfg .outq din)] else []
      outTaken := .unspecified (freeBits s 0 (entryWidth s.cfg .outq)), draws := s.draws + 1 } := by
  simp [outqTick, fifoNext_of_no_rst, takenBy, drawsOfPop, h]

theorem exec_fifoPop (q : QueueId) (s : State) :
    exec (.fifoPop q) s = .next (fifoTick q false false true 0 s) := rfl

theorem exec_fifoPushpop (q : QueueId) (din : Nat) (s : State) :
    exec (.fifoPushpop q din) s = .next (fifoTick q false true true din s) := rfl

/-- A list that gains an entry where it has room. -/
theorem append_ite_singleton {α : Type} (c : Bool) (l : List α) (x : α) :
    (l ++ if c then [x] else []) = if c then l ++ [x] else l := by
  cases c <;> simp

/-! ### The order law of one tick -/

/-- What was there and what is accepted is, in order, what is popped and what is left (rule R156). -/
theorem fifoNext_conserves {α : Type} (depth : Nat) (push pop : Bool) (din : α) (items : List α) :
    items ++ (if push && decide (items.length < depth) then [din] else []) =
      (if pop then items.take 1 else []) ++ fifoNext depth false push pop din items := by
  rw [fifoNext_of_no_rst, ← List.append_assoc]
  cases pop
  · rfl
  · rw [if_pos rfl, if_pos rfl, List.take_append_drop]

/-! ### The ring buffer (rule R34) -/

/-- A push that the ring accepts. -/
def ringPush {α : Type} (depth : Nat) (din : α) (r : RingBuffer α) : RingBuffer α :=
  { r with mem := r.mem.set r.wr din, wr := (r.wr + 1) % depth, cnt := r.cnt + 1 }

/-- A pop of a ring that is not empty. -/
def ringPop {α : Type} (depth : Nat) (r : RingBuffer α) : RingBuffer α :=
  { r with rd := (r.rd + 1) % depth, cnt := r.cnt - 1 }

/-- A tick without reset is the accepted push and then the accepted pop, each judged against the count before both. -/
theorem ringNext_eq {α : Type} (depth : Nat) (push pop : Bool) (din : α) (r : RingBuffer α) :
    ringNext depth false push pop din r =
      if pop && decide (0 < r.cnt) then
        ringPop depth (if push && decide (r.cnt < depth) then ringPush depth din r else r)
      else if push && decide (r.cnt < depth) then ringPush depth din r else r := by
  unfold ringNext
  cases push && decide (r.cnt < depth) <;> cases pop && decide (0 < r.cnt) <;> rfl

theorem RingBuffer.Wf.push {α : Type} {depth : Nat} {r : RingBuffer α} (h : RingBuffer.Wf depth r)
    (hroom : r.cnt < depth) (din : α) : RingBuffer.Wf depth (ringPush depth din r) := by
  obtain ⟨hmem, hrd, -, hwr⟩ := h
  refine ⟨by simpa [ringPush] using hmem, hrd, hroom, ?_⟩
  simp [ringPush, hwr, Nat.add_assoc]

theorem RingBuffer.Wf.pop {α : Type} {depth : Nat} {r : RingBuffer α} (h : RingBuffer.Wf depth r)
    (hsome : 0 < r.cnt) : RingBuffer.Wf depth (ringPop depth r) := by
  obtain ⟨hmem, hrd, hcnt, hwr⟩ := h
  refine ⟨hmem, Nat.mod_lt _ (by omega), (Nat.sub_le _ _).trans hcnt, ?_⟩
  have hnext : r.rd + 1 + (r.cnt - 1) = r.rd + r.cnt := by omega
  simp [ringPop, hwr, hnext]

/-- Two cells of a ring at different distances below its depth are different cells. -/
theorem ring_cell_ne {depth rd n m : Nat} (hnm : n < m) (hm : m < depth) : (rd + n) % depth ≠ (rd + m) % depth := by
  intro heq
  have hmod : n % depth = m % depth := Nat.ModEq.add_left_cancel' rd heq
  rw [Nat.mod_eq_of_lt (hnm.trans hm), Nat.mod_eq_of_lt hm] at hmod
  exact absurd hmod hnm.ne

/-- An accepted push appends to the items that the ring stands for. -/
theorem ringItems_push {α : Type} {depth : Nat} {r : RingBuffer α} (h : RingBuffer.Wf depth r) (hroom : r.cnt < depth)
    (din : α) : ringItems depth (ringPush depth din r) = ringItems depth r ++ [din] := by
  obtain ⟨hmem, -, -, hwr⟩ := h
  have hin : (r.rd + r.cnt) % depth < r.mem.length := hmem ▸ Nat.mod_lt _ (by omega)
  simp only [ringItems, ringPush, hwr, List.range_succ, List.filterMap_append]
  congr 1
  · refine List.filterMap_congr fun n hn => List.getElem?_set_ne ?_
    exact (ring_cell_ne (List.mem_range.mp hn) hroom).symm
  · simp [List.getElem?_set_self hin]

/-- The items of a ring that is not empty begin with the cell at the read pointer. -/
theorem ringItems_pop {α : Type} {depth : Nat} {r : RingBuffer α} (h : RingBuffer.Wf depth r) (hsome : 0 < r.cnt) :
    ∃ x, ringItems depth r = x :: ringItems depth (ringPop depth r) := by
  obtain ⟨hmem, hrd, -, -⟩ := h
  obtain ⟨n, hn⟩ : ∃ n, r.cnt = n + 1 := ⟨r.cnt - 1, by omega⟩
  have hin : r.rd < r.mem.length := hmem ▸ hrd
  refine ⟨r.mem[r.rd], ?_⟩
  have hhead : r.mem[(r.rd + 0) % depth]? = some r.mem[r.rd] := by
    rw [Nat.add_zero, Nat.mod_eq_of_lt hrd, List.getElem?_eq_getElem hin]
  simp only [ringItems, ringPop, hn, Nat.add_sub_cancel, List.range_succ_eq_map, List.filterMap_cons, hhead,
    List.filterMap_map]
  congr 2
  funext k
  simp [Nat.add_assoc, Nat.add_comm 1 k]

/-- A ring stands for as many items as it counts. -/
theorem ringItems_length {α : Type} {depth : Nat} {r : RingBuffer α} (h : RingBuffer.Wf depth r) :
    (ringItems depth r).length = r.cnt := by
  induction hcnt : r.cnt generalizing r with
  | zero => simp [ringItems, hcnt]
  | succ n ih =>
    have hsome : 0 < r.cnt := by omega
    obtain ⟨x, hitems⟩ := ringItems_pop h hsome
    rw [hitems, List.length_cons, ih (h.pop hsome) (by simp [ringPop, hcnt])]

/-- A tick without reset keeps a ring in order and is the FIFO's tick on its items (rules R34, R150). -/
theorem ringNext_refines {α : Type} {depth : Nat} {r : RingBuffer α} (h : RingBuffer.Wf depth r) (push pop : Bool)
    (din : α) :
    RingBuffer.Wf depth (ringNext depth false push pop din r) ∧
      ringItems depth (ringNext depth false push pop din r) = fifoNext depth false push pop din (ringItems depth r) := by
  rw [ringNext_eq, fifoNext, ringItems_length h, if_neg Bool.false_ne_true]
  dsimp only
  cases hpush : push && decide (r.cnt < depth) <;> cases hpop : pop && decide (0 < r.cnt) <;>
    simp only [Bool.false_eq_true, if_false, if_true, Bool.and_eq_true, decide_eq_true_eq] at hpush hpop ⊢
  case false.false => exact ⟨h, trivial⟩
  case false.true =>
    obtain ⟨x, hitems⟩ := ringItems_pop h hpop.2
    exact ⟨h.pop hpop.2, by rw [hitems]; rfl⟩
  case true.false => exact ⟨h.push hpush.2 din, ringItems_push h hpush.2 din⟩
  case true.true =>
    have hpushed := h.push hpush.2 din
    have hsome : 0 < (ringPush depth din r).cnt := Nat.succ_pos _
    obtain ⟨x, hitems⟩ := ringItems_pop h hpop.2
    obtain ⟨y, hboth⟩ := ringItems_pop hpushed hsome
    rw [ringItems_push h hpush.2, hitems, List.cons_append, List.cons.injEq] at hboth
    exact ⟨hpushed.pop hsome, by rw [hitems]; exact hboth.2.symm⟩

end Sys2Proof.Machine

/-- Settles O42: by induction on the run, each tick conserving the order. -/
theorem fifoOrderLaw : Obligations.FifoOrderLaw := by
  intro α depth ops items
  induction ops generalizing items with
  | nil => exact ⟨List.append_nil items, id⟩
  | cons op rest ih =>
    obtain ⟨push, pop, din⟩ := op
    obtain ⟨horder, hdepth⟩ := ih (fifoNext depth false push pop din items)
    refine ⟨?_, fun h => hdepth (fifoNext_length_le depth false push pop din items h)⟩
    simp only [fifoRun]
    rw [← List.append_assoc, fifoNext_conserves, List.append_assoc, horder, List.append_assoc]

/-- Settles O43: a reset empties both, and any other tick is an accepted push, an accepted pop, both or neither. -/
theorem ringRefinesFifo : Obligations.RingRefinesFifo := by
  intro α depth r rst push pop din hdepth hwf
  cases rst with
  | true =>
    obtain ⟨hmem, -⟩ := hwf
    exact ⟨⟨hmem, hdepth, Nat.zero_le _, (Nat.zero_mod _).symm⟩, rfl⟩
  | false => exact ringNext_refines hwf push pop din

/-- Settles O39: a pop alone takes the head, or some value of an empty queue. -/
theorem fifoPopRule : Obligations.FifoPopRule := by
  refine fun s => ⟨fun rec rest h => ?_, fun b rest h => ?_,
    fun h => ⟨freeBits s 0 (entryWidth s.cfg .cmdq), s.draws + 1, ?_⟩,
    fun h => ⟨freeBits s 0 (entryWidth s.cfg .outq), s.draws + 1, ?_⟩⟩
  · rw [exec_fifoPop, fifoTick, cmdqTick_pop_of_cons h, Bool.false_and, if_neg Bool.false_ne_true, List.append_nil]
  · rw [exec_fifoPop, fifoTick, outqTick_pop_of_cons h, Bool.false_and, if_neg Bool.false_ne_true, List.append_nil]
  · rw [exec_fifoPop, fifoTick, cmdqTick_pop_of_nil h, Bool.false_and, if_neg Bool.false_ne_true, ← h]
  · rw [exec_fifoPop, fifoTick, outqTick_pop_of_nil h, Bool.false_and, if_neg Bool.false_ne_true, ← h]

/-- Settles O40: the pop takes the head, the push is judged against the occupancy before it, and an empty queue of a valid
build has room. -/
theorem fifoPushpopRule : Obligations.FifoPushpopRule := by
  intro s din hvalid
  obtain ⟨-, -, -, -, -, hcmdDepth, houtDepth⟩ := hvalid
  have hcmdRoom : 0 < s.cfg.cmdDepth := hcmdDepth
  have houtRoom : 0 < s.cfg.outDepth := houtDepth
  refine ⟨fun hfits => ?cmdq, fun hfits => ?outq⟩
  case cmdq =>
    have hdin : dinEntry s.cfg .cmdq din = din := dinEntry_of_lt hfits
    refine ⟨fun rec rest h => ?_, fun h =>
      ⟨freeBits s 0 (entryWidth s.cfg .cmdq), s.draws + 1, ?_⟩⟩
    · rw [exec_fifoPushpop, fifoTick, cmdqTick_pop_of_cons h, hdin, Bool.true_and, append_ite_singleton]
      simp only [decide_eq_true_eq]
    · rw [exec_fifoPushpop, fifoTick, cmdqTick_pop_of_nil h, hdin, Bool.true_and, if_pos (decide_eq_true hcmdRoom)]
  case outq =>
    have hdin : dinEntry s.cfg .outq din = din := dinEntry_of_lt hfits
    refine ⟨fun b rest h => ?_, fun h =>
      ⟨freeBits s 0 (entryWidth s.cfg .outq), s.draws + 1, ?_⟩⟩
    · rw [exec_fifoPushpop, fifoTick, outqTick_pop_of_cons h, hdin, Bool.true_and, append_ite_singleton]
      simp only [decide_eq_true_eq]
    · rw [exec_fifoPushpop, fifoTick, outqTick_pop_of_nil h, hdin, Bool.true_and, if_pos (decide_eq_true houtRoom)]

/-- Settles O41: a reset tick of either queue leaves no entry and pops nothing. -/
theorem fifoResetEmpties : Obligations.FifoResetEmpties := fun _ => ⟨rfl, rfl⟩

end

section
/-! ## The step and its decoded operations, each operation's block, and the reference driver -/

open Sys2Proof Sys2Proof.Machine

namespace Sys2Proof.Machine

/-! ### ENC's command does not look at ENG or at the draw counter -/

/-- The operations that ENC works on (rules R71, R74). -/
def IsCommand : Instr → Prop
  | .verbatim _ | .decimal _ | .hex _ | .hexspaced _ | .cmdReservedTag _ _ => True
  | .engReset | .engLoad _ | .engAdvance | .engHold => False
  | .fifoReset _ | .fifoPush _ _ | .fifoPop _ | .fifoPushpop _ _ | .fifoIdle _ => False
  | .multiples _ | .extract _ _ => False

theorem isCommand_decodeCmd (p : Config.Params) (rec : Nat) : IsCommand (decodeCmd p rec) := by
  rw [decodeCmd_eq]
  repeat' split
  all_goals trivial

/-- ENC works on a command or on nothing (rule R130). -/
theorem isCommand_of_encInstr {s : State} {i : Instr} (h : encInstr s = some i) : IsCommand i := by
  unfold encInstr at h
  split at h
  · split at h
    · obtain ⟨rec, -, rfl⟩ := Option.map_eq_some_iff.mp h
      exact isCommand_decodeCmd _ _
    · exact nomatch h
  all_goals
    cases h
    trivial

/-- `s` with ENG and the draw counter of another moment of the tick. -/
def withEng (e : Engine) (d : Nat) (s : State) : State := { s with eng := e, draws := d }

@[simp] theorem withEng_enc (e : Engine) (d : Nat) (s : State) : (withEng e d s).enc = s.enc := rfl
@[simp] theorem withEng_dec (e : Engine) (d : Nat) (s : State) : (withEng e d s).dec = s.dec := rfl
@[simp] theorem withEng_func (e : Engine) (d : Nat) (s : State) : (withEng e d s).func = s.func := rfl

theorem canDispatch_withEng (e : Engine) (d : Nat) (s : State) : canDispatch (withEng e d s) = canDispatch s := rfl

theorem outqNotFull_withEng (e : Engine) (d : Nat) (s : State) : outqNotFull (withEng e d s) = outqNotFull s := rfl

theorem readyStep_withEng (m : EncMode) (pl : Nat) (e : Engine) (d : Nat) (s : State) :
    readyStep m pl (withEng e d s) = withEng e d (readyStep m pl s) := by
  rw [readyStep, readyStep, canDispatch_withEng]
  split <;> rfl

theorem readyStepDec_withEng (pl : Nat) (e : Engine) (d : Nat) (s : State) :
    readyStepDec pl (withEng e d s) = withEng e d (readyStepDec pl s) := by
  rw [readyStepDec, readyStepDec, canDispatch_withEng]
  split <;> rfl

theorem verbStep_withEng (e : Engine) (d : Nat) (s : State) :
    verbStep (withEng e d s) = withEng e d (verbStep s) := by
  rw [verbStep_eq, verbStep_eq, advancePos_enc_congr 3 (withEng_enc e d s), withEng_enc, outqNotFull_withEng]
  split
  · rfl
  · split <;> rfl

theorem hexStep_withEng (spaced : Bool) (last : Nat) (e : Engine) (d : Nat) (s : State) :
    hexStep spaced last (withEng e d s) = withEng e d (hexStep spaced last s) := by
  rw [hexStep_eq, hexStep_eq, advancePos_enc_congr last (withEng_enc e d s), outqNotFull_withEng]
  split <;> rfl

theorem decPosition_withEng (e : Engine) (d : Nat) (s : State) :
    decPosition (withEng e d s) = withEng e d (decPosition s) := by
  rw [decPosition, decPosition, withEng_dec, withEng_func, outqNotFull_withEng]
  split
  · rfl
  · split
    · split <;> rfl
    · rfl

theorem decStep_withEng (e : Engine) (d : Nat) (s : State) :
    decStep (withEng e d s) = andThen (decStep s) fun u => .next (withEng e d u) := by
  rw [decStep_eq, decStep_eq, withEng_dec]
  split
  · exact congrArg _ (decPosition_withEng e d { s with func := extracted s })
  · rfl

theorem decspStep_withEng (e : Engine) (d : Nat) (s : State) :
    decspStep (withEng e d s) = withEng e d (decspStep s) := by
  rw [decspStep, decspStep, outqNotFull_withEng]
  split <;> rfl

/-- A command gives the same outcome, in all that it writes, whatever ENG and the draw counter hold. -/
theorem exec_withEng {i : Instr} (h : IsCommand i) (e : Engine) (d : Nat) (s : State) :
    exec i (withEng e d s) = andThen (exec i s) fun u => .next (withEng e d u) := by
  cases i with
  | verbatim pl =>
    simp only [exec, execVerbatim, withEng_enc, readyStep_withEng, verbStep_withEng]
    split <;> rfl
  | decimal pl =>
    simp only [exec, execDecimal, withEng_enc, readyStepDec_withEng, decStep_withEng, decspStep_withEng]
    split <;> rfl
  | hex pl =>
    simp only [exec, execHex, withEng_enc, readyStep_withEng, hexStep_withEng]
    split <;> rfl
  | hexspaced pl =>
    simp only [exec, execHexspaced, withEng_enc, readyStep_withEng, hexStep_withEng]
    split <;> rfl
  | cmdReservedTag tag pl => rfl
  | _ => exact h.elim

/-! ### The step in terms of the operations on the ports -/

/-- The operation decoded from ENG's vector is well formed: its operand was cut to W bits. -/
theorem wellFormed_engInstr (s : State) : WellFormed s.cfg (engInstr s) = true := by
  unfold engInstr decodeEng
  split
  · rfl
  · split
    · exact decide_eq_true (trunc_lt _ _)
    · split <;> rfl

/-- In READY with room ENC works on the command of CMDQ's head (rule R131). -/
theorem encInstr_of_head {s : State} {rec : Nat} {rest : List Nat} (hmode : s.enc.mode = .ready)
    (hcmdq : s.cmdq = rec :: rest) (hroom : s.outq.length < s.cfg.outDepth) :
    encInstr s = some (decodeCmd s.cfg rec) := by
  simp only [encInstr, hmode, canDispatch_of_cons hcmdq hroom, hcmdq, if_true]
  rfl

/-- ENC's tick on a command. -/
theorem encTick_of_command {s : State} {i : Instr} (h : encInstr s = some i) : encTick false s = exec i s := by
  simp only [encTick, h, Bool.false_eq_true, if_false]

/-- A step in which ENC works on a command gives ENC what the command gives it on the state at the start of the tick. -/
theorem step_command {s t : State} {i : Instr} (hstep : step s = .next t) (hrst : (tickInput s).rst = false)
    (hi : encInstr s = some i) :
    ∃ u, exec i s = .next u ∧ t.enc = u.enc ∧ t.dec = u.dec ∧ t.encOut = u.encOut ∧ t.func = u.func := by
  obtain ⟨-, -, ⟨d, -, u, henc, hregisters⟩, -⟩ := step_fields hstep
  rw [hrst, encTick_of_command (show encInstr { s with eng := t.eng, draws := d } = some i from hi)] at henc
  have hexec := (exec_withEng (isCommand_of_encInstr hi) t.eng d s).symm.trans henc
  obtain ⟨u', hu', hwith⟩ := andThen_next.mp hexec
  cases hwith
  exact ⟨u', hu', hregisters⟩

/-- A step in which ENC has nothing to work on leaves its registers and drives no strobe. -/
theorem step_no_command {s t : State} (hstep : step s = .next t) (hrst : (tickInput s).rst = false)
    (hi : encInstr s = none) : t.enc = s.enc ∧ t.dec = s.dec ∧ t.encOut = EncoderOut.idle := by
  obtain ⟨-, -, ⟨d, -, u, henc, tenc, tdec, tout, -⟩, -⟩ := step_fields hstep
  rw [hrst, encTick, if_neg Bool.false_ne_true,
    show encInstr { s with eng := t.eng, draws := d } = none from hi] at henc
  cases henc
  exact ⟨tenc, tdec, tout⟩

/-- A command whose execution faults makes the step fault, before XPORT's share of the tick (entry 24). -/
theorem step_fault_of_command {s : State} {i : Instr} {f : Fault} (hvalid : s.cfg.Valid)
    (hrst : (tickInput s).rst = false) (hi : encInstr s = some i) (hfault : exec i s = .fault f) :
    step s = .fault f := by
  obtain ⟨e, d, heng, -⟩ := exec_engInstr s
  have henc : encTick (tickInput s).rst (withEng e d s) = .fault f := by
    rw [hrst, encTick_of_command (show encInstr (withEng e d s) = some i from hi),
      exec_withEng (isCommand_of_encInstr hi), hfault]
    rfl
  rw [step, if_pos hvalid, tick, heng]
  change andThen (encTick (tickInput s).rst (withEng e d s)) _ = _
  rw [henc]
  rfl

/-- With `rst` a FIFO looks at no request, and without a push at no entry. -/
theorem fifoNext_masked {α : Type} {depth : Nat} {r pu po : Bool} {x y : α} (l : List α)
    (hxy : pu = true ∧ r = false → x = y) :
    fifoNext depth r (pu && !r) (po && !r) x l = fifoNext depth r pu po y l := by
  cases r with
  | true => rfl
  | false =>
    cases pu with
    | true => simp [hxy ⟨rfl, rfl⟩]
    | false => simp [fifoNext_of_no_rst]

/-- What CMDQ's decoded operation does to the queue (rule R150). -/
theorem exec_decodeFifo_cmdq (r pu po : Bool) (din : Nat) (s : State) :
    ∃ u, exec (decodeFifo .cmdq (ctrlVec r pu po) din) s = .next u ∧
      u.cmdq = fifoNext s.cfg.cmdDepth r pu po (dinEntry s.cfg .cmdq din) s.cmdq := by
  obtain ⟨d, hexec, hd⟩ := exec_decodeFifo .cmdq r pu po din s
  exact ⟨_, hexec, fifoNext_masked _ fun hpush => by rw [hd hpush]⟩

/-- What OUTQ's decoded operation does to the queue (rule R150). -/
theorem exec_decodeFifo_outq (r pu po : Bool) (b : Byte) (s : State) :
    ∃ u, exec (decodeFifo .outq (ctrlVec r pu po) b.toNat) s = .next u ∧
      u.outq = fifoNext s.cfg.outDepth r pu po b s.outq := by
  obtain ⟨d, hexec, hd⟩ := exec_decodeFifo .outq r pu po b.toNat s
  have hentry : dinEntry s.cfg .outq b.toNat = b.toNat := dinEntry_of_lt b.isLt
  refine ⟨_, hexec, fifoNext_masked _ fun hpush => ?_⟩
  rw [hd hpush, hentry, BitVec.ofNat_toNat, BitVec.setWidth_eq]

/-! ### What each operation leaves alone -/

theorem readyStep_frame (m : EncMode) (pl : Nat) (s : State) :
    readyStep m pl s = { s with enc := (readyStep m pl s).enc, encOut := (readyStep m pl s).encOut } := by
  unfold readyStep
  split <;> rfl

theorem readyStepDec_frame (pl : Nat) (s : State) :
    readyStepDec pl s = { s with
      enc := (readyStepDec pl s).enc, dec := (readyStepDec pl s).dec, encOut := (readyStepDec pl s).encOut } := by
  unfold readyStepDec
  split <;> rfl

theorem verbStep_frame (s : State) :
    verbStep s = { s with enc := (verbStep s).enc, encOut := (verbStep s).encOut } := by
  rw [verbStep_eq]
  split
  · rfl
  · split <;> rfl

theorem hexStep_frame (spaced : Bool) (last : Nat) (s : State) :
    hexStep spaced last s =
      { s with enc := (hexStep spaced last s).enc, encOut := (hexStep spaced last s).encOut } := by
  rw [hexStep_eq]
  split <;> rfl

theorem decPosition_frame (s : State) :
    decPosition s =
      { s with enc := (decPosition s).enc, dec := (decPosition s).dec, encOut := (decPosition s).encOut } := by
  unfold decPosition
  split
  · rfl
  · split
    · split <;> rfl
    · rfl

theorem decspStep_frame (s : State) :
    decspStep s = { s with enc := (decspStep s).enc, encOut := (decspStep s).encOut } := by
  unfold decspStep
  split <;> rfl

theorem exec_verbatim_frame {pl : Nat} {s t : State} (h : exec (.verbatim pl) s = .next t) :
    t = { s with enc := t.enc, encOut := t.encOut } := by
  simp only [exec, execVerbatim] at h
  split at h <;> cases h
  exacts [readyStep_frame _ _ _, verbStep_frame _, rfl, rfl, rfl, rfl]

theorem exec_hex_frame {pl : Nat} {s t : State} (h : exec (.hex pl) s = .next t) :
    t = { s with enc := t.enc, encOut := t.encOut } := by
  simp only [exec, execHex] at h
  split at h <;> cases h
  exacts [readyStep_frame _ _ _, hexStep_frame _ _ _, rfl, rfl, rfl, rfl]

theorem exec_hexspaced_frame {pl : Nat} {s t : State} (h : exec (.hexspaced pl) s = .next t) :
    t = { s with enc := t.enc, encOut := t.encOut } := by
  simp only [exec, execHexspaced] at h
  split at h <;> cases h
  exacts [readyStep_frame _ _ _, hexStep_frame _ _ _, rfl, rfl, rfl, rfl]

theorem exec_decimal_frame {pl : Nat} {s t : State} (h : exec (.decimal pl) s = .next t) :
    t = { s with enc := t.enc, dec := t.dec, encOut := t.encOut, func := t.func } := by
  simp only [exec, execDecimal] at h
  split at h
  case h_1 => cases h; rw [readyStepDec_frame]
  case h_2 =>
    rw [decStep_eq] at h
    split at h <;> cases h
    rw [decPosition_frame]
  case h_3 => cases h; rw [decspStep_frame]
  all_goals cases h; rfl

/-! ### The reference driver's idle, load and run -/

/-- In D_IDLE the driver holds ENG (rule R176). -/
theorem tickInput_of_idle {s : State} (hon : s.env.drvOn = true) (hmode : s.env.drv.mode = .dIdle) :
    (tickInput s).engCtrl = ctrlVec (scriptInput s).rst false false := by
  simp [tickInput, driverInput, hon, hmode]

/-- In D_LOAD the driver loads the trial after its last (rule R177). -/
theorem tickInput_of_load {s : State} (hon : s.env.drvOn = true) (hmode : s.env.drv.mode = .dLoad) :
    (tickInput s).engCtrl = ctrlVec (scriptInput s).rst true false ∧
      (tickInput s).init = trunc s.cfg.W (s.env.drv.trial + 1) := by
  simp [tickInput, driverInput, hon, hmode]

/-- In D_RUN the driver advances ENG until it is done (rule R178). -/
theorem tickInput_of_run {s : State} (hon : s.env.drvOn = true) (hmode : s.env.drv.mode = .dRun) :
    (tickInput s).engCtrl = ctrlVec (scriptInput s).rst false (!doneO s) := by
  simp [tickInput, driverInput, hon, hmode]

/-- A LOAD on ENG's port starts the run (rule R101). -/
theorem step_eng_of_load {s t : State} (h : step s = .next t) (hrst : (tickInput s).rst = false)
    (hload : (tickInput s).engCtrl.getLsbD 1 = true) : t.eng = loadRun (trunc s.cfg.W (tickInput s).init) s.eng := by
  rcases step_eng_cases h with ⟨hrst', -⟩ | ⟨-, -, heng⟩ | ⟨-, hload', -⟩ | ⟨-, hload', -⟩
  · exact absurd (hrst.symm.trans hrst') Bool.false_ne_true
  · exact heng
  all_goals exact absurd (hload'.symm.trans hload) Bool.false_ne_true

/-- An ADVANCE on ENG's port advances the run (rule R102). -/
theorem step_eng_of_advance_bits {s t : State} (h : step s = .next t) (hrst : (tickInput s).rst = false)
    (hload : (tickInput s).engCtrl.getLsbD 1 = false) (hadvance : (tickInput s).engCtrl.getLsbD 0 = true) :
    t.eng = advanceRun s.cfg s.eng := by
  rcases step_eng_cases h with ⟨hrst', -⟩ | ⟨-, hload', -⟩ | ⟨-, -, -, heng⟩ | ⟨-, -, hadvance', -⟩
  · exact absurd (hrst.symm.trans hrst') Bool.false_ne_true
  · exact absurd (hload.symm.trans hload') Bool.false_ne_true
  · exact heng
  · exact absurd (hadvance'.symm.trans hadvance) Bool.false_ne_true

/-- In a tick without `rst` the driver reads its byte, and then the tick's inbound byte arrives (rule R173; entry 17). -/
theorem step_inq_of_drvOn {s t : State} (h : step s = .next t) (hrst : (tickInput s).rst = false)
    (hon : s.env.drvOn = true) : t.env.inq = driverInq s ++ (tickInput s).inbound.toList := by
  obtain ⟨-, -, -, -, -, henv⟩ := step_fields h
  rw [henv]
  simp [envTick, hrst, hon]

theorem driverNext_of_idle {s : State} (hmode : s.env.drv.mode = .dIdle) :
    driverNext s = if s.env.inq.head? = some 65#8 then { s.env.drv with mode := .dLoad } else s.env.drv := by
  simp only [driverNext, hmode]

theorem driverNext_of_load {s : State} (hmode : s.env.drv.mode = .dLoad) :
    driverNext s = { s.env.drv with trial := trunc s.cfg.W (s.env.drv.trial + 1), mode := .dRun } := by
  simp only [driverNext, hmode]

theorem driverNext_of_run {s : State} (hmode : s.env.drv.mode = .dRun) :
    driverNext s =
      if doneO s then
        { runRecord s with
          pending := runReport s
          mode := if runReport s = [] then .dLoad else .dReport }
      else s.env.drv := by
  simp only [driverNext, hmode]

/-- The driver's step in D_IDLE (rule R176). -/
theorem step_of_driverIdle {s t : State} (hstep : step s = .next t) (hon : s.env.drvOn = true)
    (hrst : (tickInput s).rst = false) (hmode : s.env.drv.mode = .dIdle) :
    t.eng = s.eng ∧
      (∀ b rest, s.env.inq = b :: rest → (∃ added, t.env.inq = rest ++ added) ∧
        t.env.drv.mode = if b = 65#8 then .dLoad else .dIdle) ∧
      (s.env.inq = [] → t.env.drv = s.env.drv) := by
  have hctrl := tickInput_of_idle hon hmode
  have hdrv := (step_drv_of_drvOn hstep hrst hon).trans (driverNext_of_idle hmode)
  have hinq := step_inq_of_drvOn hstep hrst hon
  simp only [driverInq, hmode] at hinq
  refine ⟨step_eng_of_hold hstep hrst (by rw [hctrl, ctrlVec_bit_one]) (by rw [hctrl, ctrlVec_bit_zero]), ?_, ?_⟩
  · intro b rest hbytes
    rw [hbytes] at hinq
    rw [hbytes, List.head?_cons] at hdrv
    refine ⟨⟨_, hinq⟩, ?_⟩
    rw [hdrv]
    by_cases hstart : b = 65#8
    · rw [if_pos hstart, if_pos (congrArg some hstart)]
    · rw [if_neg hstart, if_neg fun hsome => hstart (Option.some.inj hsome)]
      exact hmode
  · intro hnone
    rw [hdrv, hnone]
    rfl

/-- The driver's step in D_LOAD (rule R177). -/
theorem step_of_driverLoad {s t : State} (hstep : step s = .next t) (hon : s.env.drvOn = true)
    (hrst : (tickInput s).rst = false) (hmode : s.env.drv.mode = .dLoad) :
    t.eng.value = (s.env.drv.trial + 1) % 2 ^ s.cfg.W ∧ t.eng.phase = .loaded ∧ t.eng.steps = 0 ∧
      t.env.drv.trial = (s.env.drv.trial + 1) % 2 ^ s.cfg.W ∧ t.env.drv.mode = .dRun := by
  obtain ⟨hctrl, hinit⟩ := tickInput_of_load hon hmode
  have heng := step_eng_of_load hstep hrst (by rw [hctrl, ctrlVec_bit_one])
  rw [hinit, trunc_of_lt (trunc_lt _ _)] at heng
  have hdrv := (step_drv_of_drvOn hstep hrst hon).trans (driverNext_of_load hmode)
  rw [heng, hdrv]
  exact ⟨rfl, rfl, rfl, rfl, rfl⟩

/-- The driver's step in D_RUN before completion (rule R178). -/
theorem step_of_driverRun {s t : State} (hstep : step s = .next t) (hon : s.env.drvOn = true)
    (hrst : (tickInput s).rst = false) (hmode : s.env.drv.mode = .dRun) (hdone : doneO s = false) :
    t.env.drv = s.env.drv ∧ ∃ u, exec .engAdvance s = .next u ∧ t.eng = u.eng := by
  have hctrl := tickInput_of_run hon hmode
  have hdrv := (step_drv_of_drvOn hstep hrst hon).trans (driverNext_of_run hmode)
  rw [hdone, if_neg Bool.false_ne_true] at hdrv
  exact ⟨hdrv, _, exec_engAdvance s, step_eng_of_advance_bits hstep hrst (by rw [hctrl, ctrlVec_bit_one])
    (by rw [hctrl, ctrlVec_bit_zero, hdone]; rfl)⟩

/-! ### The reference driver's reports -/

/-- A record with `rsv` 0 is its tag and its payload (rule R70). -/
theorem packRecord_rsv_zero (p : Config.Params) (tag pl : Nat) :
    packRecord p tag 0 pl = tag * 2 ^ (p.P + 2) + pl := by
  rw [packRecord, Nat.zero_mul, Nat.add_zero]

/-- On an overflow the driver reports an X line and keeps its record (rule R178, case d). -/
theorem driverReport_of_overflow {s : State} (h : s.eng.overflow = true) :
    runRecord s = s.env.drv ∧ runReport s = reportRecords s.cfg (pseudoErrRep 0x58#8 s.eng.steps s.env.drv.trial) := by
  simp [runRecord, runReport, h]

/-- Else on an exhaustion it reports an N line and keeps its record (rule R178, case e). -/
theorem driverReport_of_exhausted {s : State} (h : s.eng.overflow = false) (h' : s.eng.exhausted = true) :
    runRecord s = s.env.drv ∧ runReport s = reportRecords s.cfg (pseudoErrRep 0x4E#8 s.eng.steps s.env.drv.trial) := by
  simp [runRecord, runReport, h, h']

/-- Else a longer trajectory is a new record, reported with its index (rule R178, case c). -/
theorem driverReport_of_record {s : State} (h : s.eng.overflow = false) (h' : s.eng.exhausted = false)
    (hlonger : s.env.drv.bestLength < s.eng.steps) :
    runRecord s =
      { s.env.drv with
        bestLength := s.eng.steps
        bestTrial := s.env.drv.trial
        recordCount := trunc s.cfg.P (s.env.drv.recordCount + 1) } ∧
    runReport s = reportRecords s.cfg
      (pseudoReport (trunc s.cfg.P (s.env.drv.recordCount + 1)) s.eng.steps s.env.drv.trial) := by
  simp [runRecord, runReport, h, h', hlonger]

/-- Else there is nothing to report (rule R178, case f). -/
theorem driverReport_of_shorter {s : State} (h : s.eng.overflow = false) (h' : s.eng.exhausted = false)
    (hshorter : ¬s.env.drv.bestLength < s.eng.steps) : runRecord s = s.env.drv ∧ runReport s = [] := by
  simp [runRecord, runReport, h, h', hshorter]

end Sys2Proof.Machine

/-- Settles O45: each block's share of the tick is the execution of its port's operation on the state at the start, which the
blocks before it in the tick do not touch as far as it looks. -/
theorem stepRunsDecodedOperations : Obligations.StepRunsDecodedOperations := by
  refine ⟨fun s t hstep => ⟨?_, ?_, ?_, ?_, ?_, ?_, ?_⟩, fun s rec rest i hmode hcmdq hroom hdecode => ?_,
    fun _ _ _ => step_fault_of_command⟩
  · exact decode_engCtrl rfl (wellFormed_engInstr s)
  · obtain ⟨-, -, ⟨d, hexec, -⟩, -⟩ := step_fields hstep
    exact ⟨_, hexec, rfl⟩
  · intro hrst
    obtain ⟨hmode, hout, -⟩ := step_enc_of_rst hstep hrst
    exact ⟨hmode, hout⟩
  · exact step_no_command hstep
  · exact fun _ => step_command hstep
  · obtain ⟨u, hexec, hcmdq⟩ := exec_decodeFifo_cmdq (tickInput s).rst (tickInput s).push t.encOut.cmdPop
      (tickInput s).din s
    exact ⟨u, hexec, (step_cmdq hstep).trans hcmdq.symm⟩
  · obtain ⟨u, hexec, houtq⟩ := exec_decodeFifo_outq (tickInput s).rst t.encOut.outPush.isSome
      (xportPops (tickInput s).xport s) (t.encOut.outPush.getD 0#8) s
    exact ⟨u, hexec, (step_outq hstep).trans houtq.symm⟩
  · simp only [decode] at hdecode
    split at hdecode <;> cases hdecode
    exact encInstr_of_head hmode hcmdq hroom

/-- Settles O31: the operation is the fault itself, and the step that dispatches such a record runs it. -/
theorem reservedTagFaults : Obligations.ReservedTagFaults := by
  refine ⟨fun _ _ _ => rfl, fun s rec rest hvalid hrst hmode hcmdq htag hroom => ?_⟩
  refine step_fault_of_command hvalid hrst (encInstr_of_head hmode hcmdq hroom) ?_
  rw [decodeCmd_eq, if_neg (by omega), if_neg (by omega), if_neg (by omega), if_neg (by omega)]
  rfl

/-- Settles O51: each operation's next state is written down as an update of its own block. -/
theorem operationsWriteOwnBlock : Obligations.OperationsWriteOwnBlock := by
  intro i s t h
  cases i with
  | verbatim pl => exact exec_verbatim_frame h
  | decimal pl => exact exec_decimal_frame h
  | hex pl => exact exec_hex_frame h
  | hexspaced pl => exact exec_hexspaced_frame h
  | cmdReservedTag tag pl => exact nomatch h
  | engReset => cases h; rfl
  | engLoad init => cases h; rfl
  | engAdvance => cases h; rfl
  | engHold => cases h; rfl
  | fifoReset q => cases q <;> cases h <;> rfl
  | fifoPush q din => cases q <;> cases h <;> rfl
  | fifoPop q => cases q <;> cases h <;> rfl
  | fifoPushpop q din => cases q <;> cases h <;> rfl
  | fifoIdle q =>
    obtain ⟨-, hcmdq, houtq⟩ := holdAndIdleKeepState s
    cases q with
    | cmdq => rw [hcmdq] at h; cases h; rfl
    | outq => rw [houtq] at h; cases h; rfl
  | multiples i =>
    simp only [exec, execMultiples, lookupRow] at h
    split at h <;> cases h
    rfl
  | extract i v =>
    simp only [exec, execExtract, extractOp_eq] at h
    split at h <;> cases h
    rfl

/-- Settles O53: the driver's step by its mode. -/
theorem driverLoadsAndRuns : Obligations.DriverLoadsAndRuns := fun _ _ hstep hon hrst =>
  ⟨step_of_driverIdle hstep hon hrst, step_of_driverLoad hstep hon hrst, step_of_driverRun hstep hon hrst⟩

/-- Settles O54: the outcome selects the report, whose records `packRecord` writes with `rsv` 0. -/
theorem driverReportsByOutcome : Obligations.DriverReportsByOutcome := by
  intro s t hstep hon hrst hmode hdone
  have hctrl := tickInput_of_run hon hmode
  have hdrv := (step_drv_of_drvOn hstep hrst hon).trans (driverNext_of_run hmode)
  rw [if_pos hdone] at hdrv
  refine ⟨step_eng_of_hold hstep hrst (by rw [hctrl, ctrlVec_bit_one])
    (by rw [hctrl, ctrlVec_bit_zero, hdone]; rfl), ?_⟩
  rw [hdrv]
  cases hoverflow : s.eng.overflow with
  | true =>
    obtain ⟨hrecord, hreport⟩ := driverReport_of_overflow hoverflow
    simp [hrecord, hreport, reportRecords_errRep, packRecord_rsv_zero]
  | false =>
    cases hexhausted : s.eng.exhausted with
    | true =>
      obtain ⟨hrecord, hreport⟩ := driverReport_of_exhausted hoverflow hexhausted
      simp [hrecord, hreport, reportRecords_errRep, packRecord_rsv_zero]
    | false =>
      by_cases hlonger : s.env.drv.bestLength < s.eng.steps
      · obtain ⟨hrecord, hreport⟩ := driverReport_of_record hoverflow hexhausted hlonger
        simp [hrecord, hreport, hlonger, reportRecords_report, packRecord_rsv_zero, trunc]
      · obtain ⟨hrecord, hreport⟩ := driverReport_of_shorter hoverflow hexhausted hlonger
        simp [hrecord, hreport, hlonger]

end
